-- ==== Sys2Proof/Word.lean ====
section
/-! DEFINITION. The vocabulary of the Leben engine: the word and byte types, instruction characters,
row modes, encoded and decoded rows, fault kinds and reasons. Types only; every function over them
stands in Decode.lean or under Machine/. -/

namespace Sys2Proof

/-- A register value and a word of data memory: a u16 (10_state.md R20, 20_memory.md R50). -/
abbrev Word := BitVec 16

/-- A byte of an encoded row or of a stdin or stdout transfer. -/
abbrev Byte := BitVec 8

/-- A register index, 0 to 15 (10_state.md R20). -/
abbrev Reg := Fin 16

/-- A position of a row, 0 to 15 (30_encoding.md R80). -/
abbrev Pos := Fin 16

/-- A position mask: position `i` is in it iff bit `i` is set (00_scope.md R9). -/
abbrev PosMask := BitVec 16

/-- The 18 instruction characters, in the order of their codes (30_encoding.md R83). -/
inductive Character where
  | noop | copy | cut | pointerRead | writeStdout
  | add | sub | mul | div | and | or | xor
  | zero | one | random | readStdin | allocate | pointerWrite
  deriving DecidableEq, Repr

/-- The mode of a row: multi-register, or single-register naming one register (30_encoding.md R89). -/
inductive Mode where
  | multi
  | single (r : Reg)
  deriving DecidableEq, Repr

/-- The 16 characters of a row, position 0 first. -/
abbrev Slots := Vector Character 16

/-- A row word: the selector byte and the 16 slot bytes (30_encoding.md R80). -/
structure RowWord where
  sel : Byte
  ch : Vector Byte 16
  deriving DecidableEq, Repr

/-- A decoded row (30_encoding.md R89). -/
structure Row where
  mode : Mode
  ch : Slots
  deriving DecidableEq, Repr

/-- What the decoder of 30_encoding.md R88 returns when it raises nothing (R89). -/
inductive Decoded where
  | endMarker
  | row (r : Row)
  deriving DecidableEq, Repr

/-- The participating positions of one row of a run, with the mode of the row: all that a run needs
of a row that holds one character and Noop (40_run_resolver.md R111). -/
structure Marked where
  mode : Mode
  mask : PosMask
  deriving DecidableEq, Repr

/-- The three read-linked characters, the sources of a pair (40_run_resolver.md R118). -/
inductive Source where
  | copy | cut | pointerRead
  deriving DecidableEq, Repr

/-- The sink kinds of a pair: the source's own character, Allocate or PointerWrite
(40_run_resolver.md R121). -/
inductive Sink where
  | same | allocate | pointerWrite
  deriving DecidableEq, Repr

/-- The seven operate characters (30_encoding.md R83). -/
inductive Operate where
  | add | sub | mul | div | and | or | xor
  deriving DecidableEq, Repr

/-- The fault kinds (60_exceptions.md R260). -/
inductive FaultKind where
  | decodeFault | linkageFault | memoryFault | underflowOnEmptyChain
  deriving DecidableEq, Repr

/-- The fault sub-reasons, in the order of their codes (60_exceptions.md R262). -/
inductive FaultReason where
  | unknownSelector | reservedCharacter | multiOnlyInSingle | endNonZero | noRow
  | headMixed | headSink | noFollowingRow | sinkKind | sinkMixed | sinkCount
  | chainCount | chainMixed
  | readOutOfBounds | writeOutOfBounds | allocCapacity | divByZero
  | emptyChain
  deriving DecidableEq, Repr

/-- A raised fault (00_scope.md R10): its reason and the offending row, counted from the head row of
the run. `60_exceptions.md` R263 gives the row of each reason. -/
structure Raise where
  offset : Nat
  reason : FaultReason
  deriving DecidableEq, Repr

end Sys2Proof
end

