-- ==== Sys2Proof/Syntax.lean ====
section
/-! DEFINITION. `Instr`: one constructor per row of spec/opcode_table.json. -/

namespace Sys2Proof

/-- The instructions. The first three constructors and `reservedSelector`, `reservedCharacter` are
what the decoder reads from ONE row word: a row of either mode with its 16 characters, the end
marker, or one of the two reserved code spaces. Each of the other constructors is the RUN of a head
row whose only character besides Noop is the one it is named after, with the marked positions of
every row of the run as its operands (40_run_resolver.md R111, R118, R121, R122). A multi-only
character has no mode operand: its rows are multi-register rows (30_encoding.md R84). Log entry 9. -/
inductive Instr where
  /-- `R<n>`: a single-register row naming register `r` (30_encoding.md R82). -/
  | single (r : Reg) (ch : Slots)
  /-- `M`: a multi-register row (R82). -/
  | multi (ch : Slots)
  /-- `END`: the end marker (R87). -/
  | endMark
  /-- A row word whose selector is reserved (R86). -/
  | reservedSelector (sel : Byte)
  /-- Noop in every position of a row of mode `m` (41_write_class.md R150). -/
  | noop (m : Mode)
  /-- Copy: source row and sink row (42_read_linked.md R180). -/
  | copy (src snk : Marked)
  /-- Cut: source row and sink row (R181). -/
  | cut (src snk : Marked)
  /-- PointerRead: the source's and the sink's positions (R182). -/
  | pointerRead (p q : PosMask)
  /-- WriteStdout at the positions of `p` (41_write_class.md R155). -/
  | writeStdout (p : PosMask)
  /-- Add: the head row and the rows after it (43_operate.md R211). -/
  | add (head : Marked) (rest : List Marked)
  /-- Sub (R212). -/
  | sub (head : Marked) (rest : List Marked)
  /-- Mul (R213). -/
  | mul (head : Marked) (rest : List Marked)
  /-- Div (R214). -/
  | div (head : Marked) (rest : List Marked)
  /-- And (R215). -/
  | and (head : Marked) (rest : List Marked)
  /-- Or (R216). -/
  | or (head : Marked) (rest : List Marked)
  /-- Xor (R217). -/
  | xor (head : Marked) (rest : List Marked)
  /-- Zero at the marked positions (41_write_class.md R151). -/
  | zero (p : Marked)
  /-- One at the marked positions (R152). -/
  | one (p : Marked)
  /-- Random at the marked positions (R153). -/
  | random (p : Marked)
  /-- ReadStdin at the positions of `p` (R154). -/
  | readStdin (p : PosMask)
  /-- Allocate at the positions of `q`, fed by a source row of kind `x` (44_reverse_linked.md R240). -/
  | allocate (x : Source) (src : Marked) (q : PosMask)
  /-- PointerWrite at the positions of `q`, fed by a source row of kind `x` (R241). -/
  | pointerWrite (x : Source) (src : Marked) (q : PosMask)
  /-- A row word of a row of mode `m` whose lowest reserved slot is position `i`, with code `code`
  (30_encoding.md R85). -/
  | reservedCharacter (m : Mode) (i : Pos) (code : Byte)
  deriving DecidableEq, Repr

end Sys2Proof
end

