-- ==== Sys2Proof/Decode.lean ====
section
/-! DEFINITION. The decoder and the encoder: notation helpers (00_scope.md R6 to R9), the row word as
bytes, the row decoder (30_encoding.md R88), the classification of a head row and the run resolver
(40_run_resolver.md R118, R121, R122), the encoder, and the table words the host asks about. -/

namespace Sys2Proof

/-! ## Notation (00_scope.md R6 to R9) -/

/-- The 16 positions in ascending order. -/
def allPos : List Pos := [0, 1, 2, 3, 4, 5, 6, 7, 8, 9, 10, 11, 12, 13, 14, 15]

/-- The vector whose entry `i` is `f i`. -/
def tabulate {α : Type} (f : Pos → α) : Vector α 16 :=
  #v[f 0, f 1, f 2, f 3, f 4, f 5, f 6, f 7, f 8, f 9, f 10, f 11, f 12, f 13, f 14, f 15]

/-- `asc(m)`: the positions of a mask in ascending order (R9). -/
def positions (m : PosMask) : List Pos := allPos.filter (fun p => m.getLsbD p.val)

/-- `popcount(m)` (R9). -/
def popcount (m : PosMask) : Nat := (positions m).length

/-- The mask of the positions that satisfy `f`. -/
def maskWhere (f : Pos → Bool) : PosMask :=
  allPos.foldr (fun p m => if f p then m ||| (1#16 <<< p.val) else m) 0#16

/-- `cat_w(e_0, ..., e_{k-1})`: element 0 is the least significant (R8). -/
def cat (w : Nat) : List Nat → Nat
  | [] => 0
  | e :: es => e + 2 ^ w * cat w es

/-- `split_w(V, k)`, the inverse of `cat` (R8). -/
def split (w : Nat) (v : Nat) : Nat → List Nat
  | 0 => []
  | k + 1 => v % 2 ^ w :: split w (v / 2 ^ w) k

/-- `trunc_N(v)` of an integer, a value in `[0, 2^N)` (R7). -/
def trunc (n : Nat) (v : Int) : Nat := (v % (2 ^ n : Int)).toNat

/-- Bit `i` of `v` (R6). -/
def bitOf (v : Nat) (i : Nat) : Nat := v / 2 ^ i % 2

/-- `PEXT(v, m)`: the bits of `v` at the positions of `m`, gathered (R9). -/
def pext (v : Word) (m : PosMask) : Nat := cat 1 ((positions m).map (fun p => bitOf v.toNat p.val))

/-- The word whose bit at each position of the list is the next bit of `v`, lowest first. -/
def scatter (v : Nat) : List Pos → Word
  | [] => 0#16
  | p :: ps => (BitVec.ofNat 16 (v % 2) <<< p.val) ||| scatter (v / 2) ps

/-- `PDEP(V, m)`: the low bits of `V` scattered to the positions of `m` (R9). -/
def pdep (v : Nat) (m : PosMask) : Word := scatter v (positions m)

/-! ## Character codes (30_encoding.md R83, R84) -/

/-- The code of a character (R83). -/
def Character.code : Character → Byte
  | .noop => 0x00
  | .copy => 0x01
  | .cut => 0x02
  | .pointerRead => 0x03
  | .writeStdout => 0x04
  | .add => 0x05
  | .sub => 0x06
  | .mul => 0x07
  | .div => 0x08
  | .and => 0x09
  | .or => 0x0A
  | .xor => 0x0B
  | .zero => 0x0C
  | .one => 0x0D
  | .random => 0x0E
  | .readStdin => 0x0F
  | .allocate => 0x10
  | .pointerWrite => 0x11

/-- The character with a code, none for the reserved codes 0x12 to 0xFF (R83, R85). -/
def characterOfCode (b : Byte) : Option Character :=
  match b.toNat with
  | 0x00 => some .noop
  | 0x01 => some .copy
  | 0x02 => some .cut
  | 0x03 => some .pointerRead
  | 0x04 => some .writeStdout
  | 0x05 => some .add
  | 0x06 => some .sub
  | 0x07 => some .mul
  | 0x08 => some .div
  | 0x09 => some .and
  | 0x0A => some .or
  | 0x0B => some .xor
  | 0x0C => some .zero
  | 0x0D => some .one
  | 0x0E => some .random
  | 0x0F => some .readStdin
  | 0x10 => some .allocate
  | 0x11 => some .pointerWrite
  | _ => none

/-- All 18 characters in code order. -/
def allCharacters : List Character :=
  [.noop, .copy, .cut, .pointerRead, .writeStdout, .add, .sub, .mul, .div, .and, .or, .xor,
   .zero, .one, .random, .readStdin, .allocate, .pointerWrite]

/-- The multi-only characters (R84). -/
def Character.multiOnly : Character → Bool
  | .pointerRead | .writeStdout | .readStdin | .allocate | .pointerWrite => true
  | .noop | .copy | .cut | .add | .sub | .mul | .div | .and | .or | .xor
  | .zero | .one | .random => false

/-- The five local characters (40_run_resolver.md R118). -/
def Character.isLocal : Character → Bool
  | .zero | .one | .random | .readStdin | .writeStdout => true
  | .noop | .copy | .cut | .pointerRead | .add | .sub | .mul | .div | .and | .or | .xor
  | .allocate | .pointerWrite => false

/-- The character of a source kind. -/
def Source.char : Source → Character
  | .copy => .copy
  | .cut => .cut
  | .pointerRead => .pointerRead

/-- The character of an operate kind. -/
def Operate.char : Operate → Character
  | .add => .add
  | .sub => .sub
  | .mul => .mul
  | .div => .div
  | .and => .and
  | .or => .or
  | .xor => .xor

/-- The character a sink row of a pair with source `x` holds (R121). -/
def Sink.char (x : Source) : Sink → Character
  | .same => x.char
  | .allocate => .allocate
  | .pointerWrite => .pointerWrite

/-! ## Row words as bytes and as one number (30_encoding.md R80) -/

/-- The 17 bytes of a row word, byte 0 first (R80). -/
def RowWord.bytes (w : RowWord) : List Byte := w.sel :: w.ch.toList

/-- The row word of 17 bytes, none for any other number of bytes (R80, R90). -/
def rowOfBytes : List Byte → Option RowWord
  | [] => none
  | s :: cs => if h : cs.length = 16 then some ⟨s, ⟨cs.toArray, by simpa using h⟩⟩ else none

/-- `W`, the little-endian reading of the 17 bytes (R80). -/
def RowWord.value (w : RowWord) : Nat := cat 8 (w.bytes.map BitVec.toNat)

/-- The row word whose little-endian reading is `v` modulo 2^136 (R80). -/
def rowOfValue (v : Nat) : RowWord :=
  ⟨BitVec.ofNat 8 v, tabulate (fun i => BitVec.ofNat 8 (v / 2 ^ (8 * (i.val + 1))))⟩

/-! ## The row decoder (30_encoding.md R82, R85 to R88) -/

/-- Whether a selector is reserved (R86). -/
def reservedSel (s : Byte) : Bool := 0x11 ≤ s.toNat && s.toNat ≤ 0xFE

/-- The mode a selector below 0x11 names (R82). -/
def modeOfSel (s : Byte) : Mode :=
  if s = 0x10 then .multi else .single (Fin.ofNat 16 s.toNat)

/-- The lowest position whose slot byte is a reserved code (R85). -/
def firstReserved (w : RowWord) : Option Pos :=
  allPos.find? (fun p => (characterOfCode w.ch[p]).isNone)

/-- The characters of a row word whose slot bytes are all defined codes. -/
def slotsOf (w : RowWord) : Slots :=
  tabulate (fun p => (characterOfCode w.ch[p]).getD .noop)

/-- `Decode(q, word)` (R88): the decoded row, or the reason of the DecodeFault, the first that fails
in the spec's order of checks. -/
def decodeRow (w : RowWord) : Except FaultReason Decoded :=
  if w.sel = 0xFF then
    if allPos.any (fun p => w.ch[p] != 0x00) then .error .endNonZero else .ok .endMarker
  else if reservedSel w.sel then .error .unknownSelector
  else if (firstReserved w).isSome then .error .reservedCharacter
  else if modeOfSel w.sel != .multi && allPos.any (fun p => (slotsOf w)[p].multiOnly) then
    .error .multiOnlyInSingle
  else .ok (.row ⟨modeOfSel w.sel, slotsOf w⟩)

/-- The row instruction of a decoded row. -/
def Row.instr (r : Row) : Instr :=
  match r.mode with
  | .multi => .multi r.ch
  | .single n => .single n r.ch

/-- The instruction of one row word. The two reserved code spaces of the table have constructors; a
multi-only character in a single-register row and an end marker with a non-zero slot are rejected by
name (R84, R87, R88). -/
def decode (w : RowWord) : Except FaultReason Instr :=
  match decodeRow w with
  | .ok .endMarker => .ok .endMark
  | .ok (.row r) => .ok r.instr
  | .error .unknownSelector => .ok (.reservedSelector w.sel)
  | .error e =>
    match e, firstReserved w with
    | .reservedCharacter, some i => .ok (.reservedCharacter (modeOfSel w.sel) i w.ch[i])
    | _, _ => .error e

/-- `decode` on bytes: a list that is not 17 bytes long is no row word (R80, R90). -/
def decodeBytes (bs : List Byte) : Option (Except FaultReason Instr) :=
  (rowOfBytes bs).map decode

/-! ## Signals of a decoded row (30_encoding.md R91) -/

/-- `mask_K(row)` (R91). -/
def Row.maskOf (r : Row) (k : Character) : PosMask := maskWhere (fun p => r.ch[p] == k)

/-- `count_K(row)` (R91). -/
def Row.count (r : Row) (k : Character) : Nat := popcount (r.maskOf k)

/-- `kinds(row)`: the characters other than Noop that occur in the row, in code order, each once
(R91). -/
def Row.kinds (r : Row) : List Character :=
  allCharacters.filter (fun k => k != .noop && allPos.any (fun p => r.ch[p] == k))

/-- `w(row)` of a row of a mode: 16 or 1 (R91). -/
def Mode.width : Mode → Nat
  | .multi => 16
  | .single _ => 1

/-- The positions of a row that hold `k`, with the row's mode. -/
def Row.marked (r : Row) (k : Character) : Marked := ⟨r.mode, r.maskOf k⟩

/-- The number of marked positions. -/
def Marked.count (m : Marked) : Nat := popcount m.mask

/-- The row that holds `k` at the marked positions and Noop elsewhere. -/
def uniformRow (k : Character) (m : Marked) : Row :=
  ⟨m.mode, tabulate (fun p => if m.mask.getLsbD p.val then k else .noop)⟩

/-! ## Classification of the head row (40_run_resolver.md R118) -/

/-- The class of a head row that raises no fault (R118). -/
inductive HeadClass where
  | nop
  | loc
  | source (x : Source)
  | chain (o : Operate)
  deriving DecidableEq, Repr

/-- The class of a row whose only kind is the non-local `k` (R118, 44_reverse_linked.md R242). -/
def classOfKind : Character → Except FaultReason HeadClass
  | .copy => .ok (.source .copy)
  | .cut => .ok (.source .cut)
  | .pointerRead => .ok (.source .pointerRead)
  | .add => .ok (.chain .add)
  | .sub => .ok (.chain .sub)
  | .mul => .ok (.chain .mul)
  | .div => .ok (.chain .div)
  | .and => .ok (.chain .and)
  | .or => .ok (.chain .or)
  | .xor => .ok (.chain .xor)
  | .allocate | .pointerWrite => .error .headSink
  | .zero | .one | .random | .readStdin | .writeStdout => .ok .loc
  | .noop => .ok .nop

/-- Classification of the head row (R118). -/
def classify (r : Row) : Except FaultReason HeadClass :=
  match r.kinds with
  | [] => .ok .nop
  | [k] => classOfKind k
  | ks => if ks.all Character.isLocal then .ok .loc else .error .headMixed

/-! ## The run resolver (40_run_resolver.md R119 to R122) -/

/-- A resolved run: one of the classes of R118 with the marked positions of its rows. -/
inductive Run where
  /-- A Nop run (R119). -/
  | nop
  /-- A Local run, the head row alone (R120). -/
  | loc
  /-- A source row of kind `x` and its sink row of kind `y` (R121). -/
  | pair (x : Source) (src : Marked) (y : Sink) (snk : Marked)
  /-- An operate chain: the head row and the rows after it (R122). -/
  | chain (o : Operate) (head : Marked) (rest : List Marked)
  deriving DecidableEq, Repr

/-- The sink kind that a row of the one kind `k` is for a source of kind `x`, if any (R121). -/
def sinkOf (x : Source) (k : Character) : Option Sink :=
  if k = x.char then some .same
  else if k = .allocate then some .allocate
  else if k = .pointerWrite then some .pointerWrite
  else none

/-- `ResolveSink` on the decoded next row `r1`, for a source of kind `x` with `k` positions (R121). -/
def checkSink (x : Source) (k : Nat) (r1 : Row) : Except Raise (Sink × Marked) :=
  match r1.kinds with
  | [] => .error ⟨1, .sinkKind⟩
  | [c] =>
    match sinkOf x c with
    | none => .error ⟨1, .sinkKind⟩
    | some y => if r1.count c = k then .ok (y, r1.marked c) else .error ⟨1, .sinkCount⟩
  | _ => .error ⟨1, .sinkMixed⟩

/-- `ResolveSink` (R121): `rest` is the image after the head row. -/
def resolveSink (x : Source) (k : Nat) (rest : List RowWord) : Except Raise (Sink × Marked) :=
  match rest with
  | [] => .error ⟨0, .noFollowingRow⟩
  | w :: _ =>
    match decodeRow w with
    | .error e => .error ⟨1, e⟩
    | .ok .endMarker => .error ⟨0, .noFollowingRow⟩
    | .ok (.row r1) => checkSink x k r1

/-- What one look-ahead row does to a chain of `c` occurrences of `o` (R122): it continues the chain
(its marked positions), ends it (none), or faults. -/
def chainRow (o : Operate) (c : Nat) (r : Row) : Except FaultReason (Option Marked) :=
  if r.count o.char = 0 then .ok none
  else if r.count o.char ≠ c then .error .chainCount
  else if r.kinds ≠ [o.char] then .error .chainMixed
  else .ok (some (r.marked o.char))

/-- The loop of `ResolveChain` (R122): the rows after the head that continue the chain. `q` is the
offset of the first row of the list from the head row. -/
def chainRows (o : Operate) (c : Nat) : Nat → List RowWord → Except Raise (List Marked)
  | _, [] => .ok []
  | q, w :: ws =>
    match decodeRow w with
    | .error e => .error ⟨q, e⟩
    | .ok .endMarker => .ok []
    | .ok (.row r) =>
      match chainRow o c r with
      | .error e => .error ⟨q, e⟩
      | .ok none => .ok []
      | .ok (some m) =>
        match chainRows o c (q + 1) ws with
        | .error e => .error e
        | .ok ms => .ok (m :: ms)

/-- The run a head row starts, `rest` being the image after it (R118 to R122). -/
def resolve (r0 : Row) (rest : List RowWord) : Except Raise Run :=
  match classify r0 with
  | .error e => .error ⟨0, e⟩
  | .ok .nop => .ok .nop
  | .ok .loc => .ok .loc
  | .ok (.source x) =>
    match resolveSink x (r0.count x.char) rest with
    | .error e => .error e
    | .ok (y, snk) => .ok (.pair x (r0.marked x.char) y snk)
  | .ok (.chain o) =>
    match chainRows o (r0.count o.char) 1 rest with
    | .error e => .error e
    | .ok [] => .error ⟨0, .emptyChain⟩
    | .ok (m :: ms) => .ok (.chain o (r0.marked o.char) (m :: ms))

/-- The number of rows a run consumes (R130). -/
def Run.rows : Run → Nat
  | .nop | .loc => 1
  | .pair _ _ _ _ => 2
  | .chain _ _ rest => 1 + rest.length

/-- The instruction of a local head row: its one character's, or the row's own when it mixes local
kinds (41_write_class.md R156). -/
def localInstr (r : Row) : Instr :=
  match r.kinds with
  | [.zero] => .zero (r.marked .zero)
  | [.one] => .one (r.marked .one)
  | [.random] => .random (r.marked .random)
  | [.readStdin] => .readStdin (r.maskOf .readStdin)
  | [.writeStdout] => .writeStdout (r.maskOf .writeStdout)
  | _ => r.instr

/-- The instruction of a chain. -/
def chainInstr (head : Marked) (rest : List Marked) : Operate → Instr
  | .add => .add head rest
  | .sub => .sub head rest
  | .mul => .mul head rest
  | .div => .div head rest
  | .and => .and head rest
  | .or => .or head rest
  | .xor => .xor head rest

/-- The instruction of a pair. -/
def pairInstr (x : Source) (src : Marked) (snk : Marked) : Sink → Instr
  | .allocate => .allocate x src snk.mask
  | .pointerWrite => .pointerWrite x src snk.mask
  | .same =>
    match x with
    | .copy => .copy src snk
    | .cut => .cut src snk
    | .pointerRead => .pointerRead src.mask snk.mask

/-- The instruction that a run of head row `r0` is. -/
def Run.instr (r0 : Row) : Run → Instr
  | .nop => .noop r0.mode
  | .loc => localInstr r0
  | .pair x src y snk => pairInstr x src snk y
  | .chain o head rest => chainInstr head rest o

/-- The instruction at the start of a sequence of row words, as a run: the head row decoded (R88,
R116), classified (R118) and resolved (R121, R122). -/
def decodeRun (ws : List RowWord) : Except Raise Instr :=
  match ws with
  | [] => .error ⟨0, .noRow⟩
  | w :: rest =>
    match decodeRow w with
    | .ok (.row r0) =>
      match resolve r0 rest with
      | .error e => .error e
      | .ok run => .ok (run.instr r0)
    | _ =>
      match decode w with
      | .error e => .error ⟨0, e⟩
      | .ok i => .ok i

/-! ## The encoder (30_encoding.md R80 to R87) -/

/-- The selector byte of a mode (R82). -/
def Mode.sel : Mode → Byte
  | .multi => 0x10
  | .single r => BitVec.ofNat 8 r.val

/-- The row word of a row (R80). -/
def Row.word (r : Row) : RowWord := ⟨r.mode.sel, tabulate (fun p => r.ch[p].code)⟩

/-- The end marker's row word (R87). -/
def endWord : RowWord := ⟨0xFF, tabulate (fun _ => 0x00)⟩

/-- The row word of the row that holds `k` at the marked positions and Noop elsewhere. -/
def markedWord (k : Character) (m : Marked) : RowWord := (uniformRow k m).word

/-- The row words of an instruction, in image order (R81). -/
def encode : Instr → List RowWord
  | .single r ch => [Row.word ⟨.single r, ch⟩]
  | .multi ch => [Row.word ⟨.multi, ch⟩]
  | .endMark => [endWord]
  | .reservedSelector sel => [⟨sel, tabulate (fun _ => 0x00)⟩]
  | .noop m => [markedWord .noop ⟨m, 0⟩]
  | .copy src snk => [markedWord .copy src, markedWord .copy snk]
  | .cut src snk => [markedWord .cut src, markedWord .cut snk]
  | .pointerRead p q => [markedWord .pointerRead ⟨.multi, p⟩, markedWord .pointerRead ⟨.multi, q⟩]
  | .writeStdout p => [markedWord .writeStdout ⟨.multi, p⟩]
  | .add head rest => (head :: rest).map (markedWord .add)
  | .sub head rest => (head :: rest).map (markedWord .sub)
  | .mul head rest => (head :: rest).map (markedWord .mul)
  | .div head rest => (head :: rest).map (markedWord .div)
  | .and head rest => (head :: rest).map (markedWord .and)
  | .or head rest => (head :: rest).map (markedWord .or)
  | .xor head rest => (head :: rest).map (markedWord .xor)
  | .zero p => [markedWord .zero p]
  | .one p => [markedWord .one p]
  | .random p => [markedWord .random p]
  | .readStdin p => [markedWord .readStdin ⟨.multi, p⟩]
  | .allocate x src q => [markedWord x.char src, markedWord .allocate ⟨.multi, q⟩]
  | .pointerWrite x src q => [markedWord x.char src, markedWord .pointerWrite ⟨.multi, q⟩]
  | .reservedCharacter m i code => [⟨m.sel, tabulate (fun p => if p = i then code else 0x00)⟩]

/-- The number of rows an instruction consumes (40_run_resolver.md R130); a row instruction counts
itself. -/
def Instr.rows : Instr → Nat
  | .single _ _ | .multi _ | .endMark | .reservedSelector _ | .reservedCharacter _ _ _ => 1
  | .noop _ | .zero _ | .one _ | .random _ | .readStdin _ | .writeStdout _ => 1
  | .copy _ _ | .cut _ _ | .pointerRead _ _ | .allocate _ _ _ | .pointerWrite _ _ _ => 2
  | .add _ rest | .sub _ rest | .mul _ rest | .div _ rest | .and _ rest | .or _ rest
  | .xor _ rest => 1 + rest.length

/-! ## The words of spec/opcode_table.json -/

/-- A multi-register row word with one slot byte, at position 0. -/
def slotWord (b : Byte) : RowWord := ⟨0x10, tabulate (fun p => if p = 0 then b else 0x00)⟩

/-- The rows laid out for a table row whose bits are `w`: the row word itself for the 136-bit rows;
for an 8-bit slot code, which is one byte of a row, a multi-register row holding it at position 0,
with the second row its run needs (a sink row or a chain row of the same character), or, before
Allocate and PointerWrite, a Copy source row. Log entry 10. -/
def tableRows (nbits w : Nat) : List RowWord :=
  if nbits ≤ 8 then
    let b : Byte := BitVec.ofNat 8 w
    match characterOfCode b with
    | some .copy | some .cut | some .pointerRead
    | some .add | some .sub | some .mul | some .div | some .and | some .or | some .xor =>
      [slotWord b, slotWord b]
    | some .allocate | some .pointerWrite => [slotWord Character.copy.code, slotWord b]
    | _ => [slotWord b]
  else [rowOfValue w]

/-- What the decoder reads from a table row's word: a row format is read by the row decoder, a slot
code by the run decoder from the rows `tableRows` lays out. -/
def decodeTableWord (nbits w : Nat) : Option Instr :=
  if nbits ≤ 8 then
    match decodeRun (tableRows nbits w ++ [endWord]) with
    | .ok i => some i
    | .error _ => none
  else
    match decode (rowOfValue w) with
    | .ok i => some i
    | .error _ => none

end Sys2Proof
end

