-- ==== Sys2Proof/Config.lean ====
section
/-! DEFINITION. The implementation parameters of 00_scope.md R5 and the one free value of the spec,
the random draws. -/

namespace Sys2Proof

/-- `MEM_CAP`: the largest data-memory length in words (00_scope.md R5, 20_memory.md R50).
DESIGN CHOICE: the spec's own value is taken, log entry 14. -/
def Config.memCap : Nat := 65536

/-- `IMG_MAX`: the largest number of rows of a program image (00_scope.md R5). -/
def Config.imgMax : Nat := 65536

/-- `ROW_BYTES`: the bytes of an encoded row (00_scope.md R5). -/
def Config.rowBytes : Nat := 17

/-- `PC_INDEX`: the program counter is register 14 (10_state.md R21). -/
def Config.pcIndex : Reg := 14

/-- `SP_INDEX`: the stack pointer is register 15 (10_state.md R21). -/
def Config.spIndex : Reg := 15

/-- `RNG`: the answer to the `k`-th request `Draw(w)`, `w` bits wide (10_state.md R44). A FREE VALUE:
it has no body, so nothing can be proved of it (41_write_class.md R153 lets the model assume nothing).
Log entry 5. -/
opaque Config.draw (w : Nat) (k : Nat) : BitVec w

end Sys2Proof
end

