-- ==== Sys2Proof/Machine/State.lean ====
section
/-! DEFINITION. The state of the machine as plain data (10_state.md R34), its reset value (R46), and
the two reason types of the host's interface. -/

namespace Sys2Proof.Machine

/-- `RUNSTATE` (10_state.md R29); its values 0, 1 and 2 are `runStateCode` of Ops.lean. -/
inductive RunState where
  | running | halted | faulted
  deriving DecidableEq, Repr

/-- The fault record (10_state.md R30). -/
structure FaultRecord where
  /-- `FAULT_KIND`, codes of 60_exceptions.md R261. -/
  kind : BitVec 3
  /-- `FAULT_ROW`, rows of 60_exceptions.md R263. -/
  row : BitVec 16
  /-- `FAULT_REASON`, codes of 60_exceptions.md R262. -/
  reason : BitVec 5
  deriving DecidableEq, Repr

/-- The data memory (10_state.md R31, 20_memory.md R50): its length in words, and the words that are
not zero as (address, word) cells with strictly rising addresses. An allocated word that is not
listed is 0, the value of new words (R54). The addressable unit is the word, so a cell holds a word.
Log entry 6. -/
structure Memory where
  /-- `MemLen`. -/
  len : Nat
  cells : List (Nat × Word)
  deriving DecidableEq, Repr

/-- The complete state (10_state.md R34), with the parameters of the step (the image, the stdin
stream, the number of draws taken) as fields beside it. -/
structure State where
  /-- The register file `x[0]` to `x[15]` (R20); `pc` is `x[14]`, `sp` is `x[15]` (R21). -/
  x : Vector Word 16
  /-- `(MemLen, Mem)` (R31). -/
  mem : Memory
  /-- `RUNSTATE` (R29). -/
  runstate : RunState
  /-- `FAULT_KIND`, `FAULT_ROW`, `FAULT_REASON` (R30). -/
  fault : FaultRecord
  /-- `stdin_pos`: stdin bytes consumed (R42). -/
  stdinPos : Nat
  /-- `stdout`: bytes emitted, first byte first (R43). -/
  stdout : List Byte
  /-- The program image, a parameter (R32). Log entry 1. -/
  image : List RowWord
  /-- `STDIN`: the bytes the host has supplied so far, a parameter (R42). Log entry 3. -/
  stdin : List Byte
  /-- Whether the host has closed stdin (R42). Log entry 3. -/
  stdinClosed : Bool
  /-- The model's own counter: the random draws taken so far (R44). Log entry 5. -/
  drawPos : Nat
  deriving DecidableEq, Repr

/-- No step of this machine stops with a host-level fault, so there is no constructor: every fault of
the spec is a next state with `RUNSTATE = Faulted` (40_run_resolver.md R129), and a run that waits
for stdin, or is stuck on a closed one, changes nothing (60_exceptions.md R268). Safe; log entries 4
and 8. -/
inductive Fault
  deriving DecidableEq, Repr

/-- Why an instruction has no meaning. -/
inductive Refusal where
  /-- Raised by an arm of `exec` that has no meaning yet (none is left). Safe. -/
  | notModelled (mnemonic : String)
  deriving DecidableEq, Repr

/-- The machine right after reset (10_state.md R46, 70_reset_and_hazards.md R290), with no image
loaded, no stdin byte supplied and no draw taken (log entries 2, 3 and 5). -/
def State.reset : State where
  x := #v[0, 0, 0, 0, 0, 0, 0, 0, 0, 0, 0, 0, 0, 0, 0, 0]
  mem := ⟨0, []⟩
  runstate := .running
  fault := ⟨0, 0, 0⟩
  stdinPos := 0
  stdout := []
  image := []
  stdin := []
  stdinClosed := false
  drawPos := 0

end Sys2Proof.Machine
end

