-- ==== Sys2Proof/Machine/Ops.lean ====
section
/-! DEFINITION. The named operations over the state: registers, data memory, stdin, taking a fault,
the commit of a run's effects, fetch, and the host's actions between steps. -/

namespace Sys2Proof.Machine

/-! ## Registers (10_state.md R20 to R26) -/

/-- Read register `r` (10_state.md R22). -/
def State.reg (s : State) (r : Reg) : Word := s.x[r]

/-- The program counter, register 14 (10_state.md R24). -/
def State.pc (s : State) : Word := s.reg Config.pcIndex

/-- The stack pointer, register 15 (10_state.md R21, R26). -/
def State.sp (s : State) : Word := s.reg Config.spIndex

/-- A register write request (40_run_resolver.md R113): at commit
`x[reg] <- (x[reg] AND NOT mask) OR (value AND mask)`. -/
structure RegWrite where
  reg : Reg
  mask : Word
  value : Word
  deriving DecidableEq, Repr

/-- One register write request applied (40_run_resolver.md R113). -/
def applyWrite (x : Vector Word 16) (w : RegWrite) : Vector Word 16 :=
  x.set w.reg ((x[w.reg] &&& ~~~w.mask) ||| (w.value &&& w.mask))

/-- Register write requests applied in order; a later request to the same bit wins
(40_run_resolver.md R124). -/
def applyWrites (x : Vector Word 16) : List RegWrite → Vector Word 16
  | [] => x
  | w :: ws => applyWrites (applyWrite x w) ws

/-! ## Data memory (20_memory.md R50 to R55) -/

/-- The word listed at address `a`, 0 where none is (new words are 0, R54). -/
def getCell (a : Nat) : List (Nat × Word) → Word
  | [] => 0#16
  | (b, u) :: cs => if a = b then u else getCell a cs

/-- The cells with `v` at address `a`, in canonical form: rising addresses, no zero word. -/
def putCell (a : Nat) (v : Word) : List (Nat × Word) → List (Nat × Word)
  | [] => if v = 0#16 then [] else [(a, v)]
  | (b, u) :: cs =>
    if a < b then (if v = 0#16 then (b, u) :: cs else (a, v) :: (b, u) :: cs)
    else if a = b then (if v = 0#16 then cs else (a, v) :: cs)
    else (b, u) :: putCell a v cs

/-- `MemRead(a, 1)` (R52): the word at a valid address, none at any other. -/
def Memory.read (m : Memory) (a : Nat) : Option Word :=
  if a < m.len then some (getCell a m.cells) else none

/-- `MemWrite(a, 1, v)` at a valid address (R53); nothing is written at any other, where the run has
already raised its fault (40_run_resolver.md R123). -/
def Memory.write (m : Memory) (a : Nat) (v : Word) : Memory :=
  if a < m.len then { m with cells := putCell a v m.cells } else m

/-- Whether `MemAlloc(s)` raises AllocCapacity (R54). -/
def Memory.allocFails (len s : Nat) : Bool :=
  decide (Config.memCap ≤ len) || decide (Config.memCap < len + s)

/-- `MemAlloc(s)` (R54): `s` words of value 0 appended; nothing is appended past `MEM_CAP`, where the
run has already raised its fault. -/
def Memory.alloc (m : Memory) (s : Nat) : Memory :=
  if m.len + s ≤ Config.memCap then { m with len := m.len + s } else m

/-- The data memory as the spec's sequence `Mem[0]` to `Mem[MemLen-1]` (R50). -/
def Memory.words (m : Memory) : List Word := (List.range m.len).map (fun a => getCell a m.cells)

/-- The cells from address `lo` on of a memory of `len` words: strictly rising, below `len`, none
zero. -/
def cellsOk (len : Nat) : Nat → List (Nat × Word) → Bool
  | _, [] => true
  | lo, (a, v) :: cs => decide (lo ≤ a) && decide (a < len) && v != 0#16 && cellsOk len (a + 1) cs

/-- The canonical form of the data memory, and its bound `MemLen <= MEM_CAP` (10_state.md R31). -/
def Memory.wf (m : Memory) : Bool := decide (m.len ≤ Config.memCap) && cellsOk m.len 0 m.cells

/-! ## Faults (60_exceptions.md R260 to R266) -/

/-- The code of a fault kind (60_exceptions.md R261). -/
def kindCode : FaultKind → BitVec 3
  | .decodeFault => 1
  | .linkageFault => 2
  | .memoryFault => 3
  | .underflowOnEmptyChain => 4

/-- The kind a sub-reason belongs to (60_exceptions.md R262). -/
def kindOfReason : FaultReason → FaultKind
  | .unknownSelector | .reservedCharacter | .multiOnlyInSingle | .endNonZero | .noRow => .decodeFault
  | .headMixed | .headSink | .noFollowingRow | .sinkKind | .sinkMixed | .sinkCount
  | .chainCount | .chainMixed => .linkageFault
  | .readOutOfBounds | .writeOutOfBounds | .allocCapacity | .divByZero => .memoryFault
  | .emptyChain => .underflowOnEmptyChain

/-- The code of a sub-reason (60_exceptions.md R262). -/
def reasonCode : FaultReason → BitVec 5
  | .unknownSelector => 1
  | .reservedCharacter => 2
  | .multiOnlyInSingle => 3
  | .endNonZero => 4
  | .noRow => 5
  | .headMixed => 6
  | .headSink => 7
  | .noFollowingRow => 8
  | .sinkKind => 9
  | .sinkMixed => 10
  | .sinkCount => 11
  | .chainCount => 12
  | .chainMixed => 13
  | .readOutOfBounds => 14
  | .writeOutOfBounds => 15
  | .allocCapacity => 16
  | .divByZero => 17
  | .emptyChain => 18

/-- The record of a raised fault, its row counted from the head index `h` (60_exceptions.md R263). -/
def faultRecord (h : Word) (r : Raise) : FaultRecord :=
  ⟨kindCode (kindOfReason r.reason), BitVec.ofNat 16 (h.toNat + r.offset), reasonCode r.reason⟩

/-- TAKING A FAULT (60_exceptions.md R265, R266): `RUNSTATE <- Faulted` and the fault record; every
other field keeps its pre-run value. There is no return from a fault but `State.doReset` (R267). -/
def State.takeFault (s : State) (r : Raise) : State :=
  { s with runstate := .faulted, fault := faultRecord s.pc r }

/-! ## The status the block outputs (10_state.md R29, R30, R45) -/

/-- The numeric value of a run state (10_state.md R29; 92_eei_decisions.md D22). The spec gives
`RUNSTATE` values and no width, so the value is a number. -/
def runStateCode : RunState → Nat
  | .running => 0
  | .halted => 1
  | .faulted => 2

/-- What the block outputs to its host (10_state.md R45): the value of `RUNSTATE` and the fault
record. -/
def State.status (s : State) : Nat × FaultRecord := (runStateCode s.runstate, s.fault)

/-! ## The effects of a run and their commit (40_run_resolver.md R123 to R125) -/

/-- What the evaluation of a run collects (40_run_resolver.md R123). -/
structure Effects where
  /-- Register write requests, in the order the family rule lists them. -/
  regw : List RegWrite := []
  /-- Sizes of the allocations. -/
  alloc : List Nat := []
  /-- Memory writes: address and word. -/
  memw : List (Nat × Word) := []
  /-- Stdout bytes. -/
  out : List Byte := []
  /-- Stdin bytes consumed. -/
  nin : Nat := 0
  /-- Random draws taken. -/
  ndraw : Nat := 0
  /-- Rows consumed. -/
  n : Nat
  deriving DecidableEq, Repr

/-- Whether a run wrote `pc`: 14 is in the set of registers its requests name
(40_run_resolver.md R125). -/
def Effects.writesPc (e : Effects) : Bool := e.regw.any (fun w => w.reg == Config.pcIndex)

/-- The registers after the run's requests and the pc update (40_run_resolver.md R124 steps 1 and 6,
R125). -/
def commitRegs (s : State) (e : Effects) : Vector Word 16 :=
  if e.writesPc then applyWrites s.x e.regw
  else (applyWrites s.x e.regw).set Config.pcIndex (BitVec.ofNat 16 (s.pc.toNat + e.n))

/-- Allocations in order (40_run_resolver.md R124 step 2). -/
def allocAll (m : Memory) : List Nat → Memory
  | [] => m
  | z :: zs => allocAll (m.alloc z) zs

/-- Memory writes in order; a later write to the same address wins (40_run_resolver.md R124 step 3). -/
def writeAll (m : Memory) : List (Nat × Word) → Memory
  | [] => m
  | (a, v) :: ws => writeAll (m.write a v) ws

/-- `Commit` (40_run_resolver.md R124) and the pc update (R125). -/
def commit (s : State) (e : Effects) : State :=
  { s with
    x := commitRegs s e
    mem := writeAll (allocAll s.mem e.alloc) e.memw
    stdout := s.stdout ++ e.out
    stdinPos := s.stdinPos + e.nin
    drawPos := s.drawPos + e.ndraw }

/-- The state after a run: its effects committed, or its fault taken and nothing committed
(40_run_resolver.md R123, R129). -/
def settle (s : State) : Except Raise Effects → State
  | .ok e => commit s e
  | .error r => s.takeFault r

/-! ## The three outcomes of a step (40_run_resolver.md R129) -/

/-- `Outcome` of 40_run_resolver.md R129. -/
inductive StepResult where
  | next (s : State)
  | wait
  | stuck
  deriving DecidableEq, Repr

/-- The host-level outcome of a step from `s`: a step that waits, or is stuck, changes no state
(40_run_resolver.md R129), so the engine is still Running in the same state. Log entry 4. -/
def toHost (s : State) : StepResult → Host.Outcome State Fault Refusal
  | .next s' => .next s'
  | .wait => .next s
  | .stuck => .next s

/-- How stdin answers a run that needs bytes (10_state.md R42, 41_write_class.md R156). -/
inductive StdinReply where
  | ready
  | wait
  | stuck
  deriving DecidableEq, Repr

/-- The stdin bytes not yet consumed. -/
def State.stdinLeft (s : State) : List Byte := s.stdin.drop s.stdinPos

/-- Whether stdin holds the `need` bytes a run reads: if not, the step waits, or is stuck when the
host has closed the stream (41_write_class.md R156). -/
def State.stdinReply (s : State) (need : Nat) : StdinReply :=
  if need ≤ s.stdinLeft.length then .ready
  else if s.stdinClosed then .stuck
  else .wait

/-! ## Fetch (40_run_resolver.md R116) -/

/-- The image from the head row on. -/
def State.rowsAtPc (s : State) : List RowWord := s.image.drop s.pc.toNat

/-- The image after the head row, the rows look-ahead may fetch (40_run_resolver.md R127). -/
def State.rowsAfterPc (s : State) : List RowWord := s.image.drop (s.pc.toNat + 1)

/-- The fetch of the head row (40_run_resolver.md R116): the instruction of the row word at `pc`, or
the DecodeFault. -/
def fetchHead (s : State) : Except Raise Instr :=
  match s.rowsAtPc with
  | [] => .error ⟨0, .noRow⟩
  | w :: _ =>
    match decode w with
    | .ok i => .ok i
    | .error e => .error ⟨0, e⟩

/-! ## The host's actions (10_state.md R45, 70_reset_and_hazards.md R290 to R299) -/

/-- `reset` from any state (70_reset_and_hazards.md R290): every state element takes its reset value;
the parameters of the run (image, stdin stream, draws) are the host's and stay. Log entry 17. -/
def State.doReset (s : State) : State :=
  { State.reset with
    image := s.image, stdin := s.stdin, stdinClosed := s.stdinClosed, drawPos := s.drawPos }

/-- The host supplies stdin bytes, in order (70_reset_and_hazards.md R299); a closed stream takes
none. -/
def State.supplyStdin (s : State) (bs : List Byte) : State :=
  if s.stdinClosed then s else { s with stdin := s.stdin ++ bs }

/-- The host closes stdin (70_reset_and_hazards.md R299). -/
def State.closeStdin (s : State) : State := { s with stdinClosed := true }

/-- `n` rows of 17 bytes each, and nothing after them (30_encoding.md R81). -/
def rowsOfBytes : Nat → List Byte → Option (List RowWord)
  | 0, [] => some []
  | 0, _ :: _ => none
  | n + 1, bs =>
    match rowOfBytes (bs.take Config.rowBytes), rowsOfBytes n (bs.drop Config.rowBytes) with
    | some w, some ws => some (w :: ws)
    | _, _ => none

/-- The rows of an image given as bytes (30_encoding.md R81): none when the length is no multiple of
17. -/
def imageOfBytes (bs : List Byte) : Option (List RowWord) :=
  rowsOfBytes (bs.length / Config.rowBytes) bs

/-- `ValidImage` (70_reset_and_hazards.md R292): 1 to 65536 rows, the last of them the end marker. -/
def validImage (img : List RowWord) : Bool :=
  decide (1 ≤ img.length) && decide (img.length ≤ Config.imgMax) && img.getLast? == some endWord

/-- Launch (70_reset_and_hazards.md R294, R299): the reset state with an image, the stdin bytes
supplied so far and whether the stream is closed; an image that breaks R292 is refused. -/
def launch (img : List RowWord) (stdin : List Byte) (closed : Bool) : Option State :=
  if validImage img then
    some { State.reset with image := img, stdin := stdin, stdinClosed := closed }
  else none

/-- `image` with `rows` placed at row `q`, and padded with end markers up to `q`. -/
def placeRows (image rows : List RowWord) (q : Nat) : List RowWord :=
  image.take q ++ List.replicate (q - image.length) endWord ++ rows ++ image.drop (q + rows.length)

end Sys2Proof.Machine
end

