-- ==== Sys2Proof/Machine/Operands.lean ====
section
/-! DEFINITION. Every operand form of the engine: elements, values, element writes and write-back
(40_run_resolver.md R110 to R114). -/

namespace Sys2Proof.Machine

/-- `elem_S(row, p)` (R110): a whole register in a multi-register row, one bit of the named register
in a single-register row. -/
def elem (s : State) (m : Mode) (p : Pos) : Nat :=
  match m with
  | .multi => (s.reg p).toNat
  | .single r => bitOf (s.reg r).toNat p.val

/-- The elements of a row's marked positions, in ascending position order (R111, R112). -/
def elements (s : State) (m : Marked) : List Nat := (positions m.mask).map (elem s m.mode)

/-- The value of a row's marked positions, the concatenation of its elements (R112). -/
def value (s : State) (m : Marked) : Nat := cat m.mode.width (elements s m)

/-- `ElemWrite(row, p, e)` (R113): an element too wide keeps its low bits, one narrower is
zero-extended. -/
def elemWrite (m : Mode) (p : Pos) (e : Nat) : RegWrite :=
  match m with
  | .multi => ⟨p, 0xFFFF#16, BitVec.ofNat 16 e⟩
  | .single r => ⟨r, 1#16 <<< p.val, BitVec.ofNat 16 (e % 2) <<< p.val⟩

/-- The writes of one element to each marked position, in ascending order. -/
def writesTo (m : Marked) (es : List Nat) : List RegWrite :=
  List.zipWith (elemWrite m.mode) (positions m.mask) es

/-- The width in bits of the value of a row's marked positions: `k * w` (R112). -/
def markedBits (m : Marked) : Nat := m.count * m.mode.width

/-- `WriteBack(row, P, V)` (R114). -/
def writeBack (m : Marked) (v : Nat) : List RegWrite :=
  writesTo m (split m.mode.width (v % 2 ^ markedBits m) m.count)

end Sys2Proof.Machine
end

