-- ==== Sys2Proof/Machine/Flags.lean ====
section
/-! DEFINITION. The engine has no flags, condition codes or predicates (10_state.md R27). What other
machines put in flags, the carry, borrow and overflow of a chain, is discarded by the one truncation
of 43_operate.md R210, which is here. -/

namespace Sys2Proof.Machine

/-- `R <- acc mod 2^(c * w_{n-1})`, the non-negative remainder of an unbounded result at the width of
the last row (43_operate.md R210). -/
def chainResult (last : Marked) (acc : Int) : Nat := trunc (markedBits last) acc

end Sys2Proof.Machine
end

