-- ==== Sys2Proof/Machine/Chain.lean ====
section
/-! DEFINITION. The operate characters (43_operate.md): Add, Sub, Mul, Div, And, Or, Xor, each a chain
of rows. -/

namespace Sys2Proof.Machine

/-- `Op_Add` (R211). -/
def opAdd (acc : Int) (v : Nat) : Except FaultReason Int := .ok (acc + v)

/-- `Op_Sub` (R212), in the integers. -/
def opSub (acc : Int) (v : Nat) : Except FaultReason Int := .ok (acc - v)

/-- `Op_Mul` (R213). -/
def opMul (acc : Int) (v : Nat) : Except FaultReason Int := .ok (acc * v)

/-- `Op_Div` (R214): the unsigned quotient; a zero divisor raises DivByZero. -/
def opDiv (acc : Int) (v : Nat) : Except FaultReason Int :=
  if v = 0 then .error .divByZero else .ok (Int.ofNat (acc.toNat / v))

/-- `Op_And` (R215), bitwise on non-negative integers. -/
def opAnd (acc : Int) (v : Nat) : Except FaultReason Int := .ok (Int.ofNat (acc.toNat &&& v))

/-- `Op_Or` (R216). -/
def opOr (acc : Int) (v : Nat) : Except FaultReason Int := .ok (Int.ofNat (acc.toNat ||| v))

/-- `Op_Xor` (R217). -/
def opXor (acc : Int) (v : Nat) : Except FaultReason Int := .ok (Int.ofNat (acc.toNat ^^^ v))

/-- The left-to-right combination of R210: `j` is the offset of the first value's row from the head
row, the row a zero divisor is reported at (R214). -/
def chainFold (op : Int → Nat → Except FaultReason Int) : Nat → Int → List Nat → Except Raise Int
  | _, acc, [] => .ok acc
  | j, acc, v :: vs =>
    match op acc v with
    | .error e => .error ⟨j, e⟩
    | .ok acc' => chainFold op (j + 1) acc' vs

/-- The last row of a chain, its destination (R210). -/
def lastRow (head : Marked) (rest : List Marked) : Marked := rest.getLastD head

/-- `ChainEffects` (R210); a chain of the head row alone raises EmptyChain (40_run_resolver.md
R122). -/
def chainEffects (op : Int → Nat → Except FaultReason Int) (head : Marked) (rest : List Marked)
    (s : State) : Except Raise Effects :=
  match rest with
  | [] => .error ⟨0, .emptyChain⟩
  | _ :: _ =>
    match chainFold op 1 (value s head) (rest.map (value s)) with
    | .error e => .error e
    | .ok acc =>
      .ok { regw := writeBack (lastRow head rest) (chainResult (lastRow head rest) acc)
            n := 1 + rest.length }

/-- Add (R211). -/
def execAdd (head : Marked) (rest : List Marked) (s : State) : Host.Outcome State Fault Refusal :=
  toHost s (.next (settle s (chainEffects opAdd head rest s)))

/-- Sub (R212). -/
def execSub (head : Marked) (rest : List Marked) (s : State) : Host.Outcome State Fault Refusal :=
  toHost s (.next (settle s (chainEffects opSub head rest s)))

/-- Mul (R213). -/
def execMul (head : Marked) (rest : List Marked) (s : State) : Host.Outcome State Fault Refusal :=
  toHost s (.next (settle s (chainEffects opMul head rest s)))

/-- Div (R214). -/
def execDiv (head : Marked) (rest : List Marked) (s : State) : Host.Outcome State Fault Refusal :=
  toHost s (.next (settle s (chainEffects opDiv head rest s)))

/-- And (R215). -/
def execAnd (head : Marked) (rest : List Marked) (s : State) : Host.Outcome State Fault Refusal :=
  toHost s (.next (settle s (chainEffects opAnd head rest s)))

/-- Or (R216). -/
def execOr (head : Marked) (rest : List Marked) (s : State) : Host.Outcome State Fault Refusal :=
  toHost s (.next (settle s (chainEffects opOr head rest s)))

/-- Xor (R217). -/
def execXor (head : Marked) (rest : List Marked) (s : State) : Host.Outcome State Fault Refusal :=
  toHost s (.next (settle s (chainEffects opXor head rest s)))

end Sys2Proof.Machine
end

