-- ==== Sys2Proof/Machine/Local.lean ====
section
/-! DEFINITION. The write-class and local characters (41_write_class.md): Noop, Zero, One, Random,
ReadStdin, WriteStdout, and the Local run of a row that mixes them. -/

namespace Sys2Proof.Machine

/-- Zero at position `p` (R151). -/
def zeroWrite (m : Mode) (p : Pos) : RegWrite := elemWrite m p 0

/-- One at position `p` (R152). -/
def oneWrite (m : Mode) (p : Pos) : RegWrite := elemWrite m p (2 ^ m.width - 1)

/-- Random at position `p` with the `k`-th draw, of the position's width (R153). -/
def randomWrite (m : Mode) (p : Pos) (k : Nat) : RegWrite :=
  elemWrite m p (Config.draw m.width k).toNat

/-- ReadStdin at position `p` taking byte `b`, zero-extended (R154). -/
def stdinWrite (m : Mode) (p : Pos) (b : Byte) : RegWrite := elemWrite m p b.toNat

/-- The byte WriteStdout emits at position `p`: bits 7 to 0 of the register (R155). -/
def stdoutByte (s : State) (p : Pos) : Byte := BitVec.ofNat 8 (s.reg p).toNat

/-- The effects with one more register write request before the others. -/
def Effects.withWrite (e : Effects) (w : RegWrite) : Effects := { e with regw := w :: e.regw }

/-- The effects with one more stdout byte before the others. -/
def Effects.withOut (e : Effects) (b : Byte) : Effects := { e with out := b :: e.out }

/-- `LocalEffects` (R156) from the positions left, after `nin` stdin bytes and `nd` draws. A position
whose character is not local does not participate. -/
def localEffects (s : State) (r : Row) : Nat → Nat → List Pos → Effects
  | nin, nd, [] => { nin := nin, ndraw := nd, n := 1 }
  | nin, nd, p :: ps =>
    match r.ch[p] with
    | .zero => (localEffects s r nin nd ps).withWrite (zeroWrite r.mode p)
    | .one => (localEffects s r nin nd ps).withWrite (oneWrite r.mode p)
    | .random =>
      (localEffects s r nin (nd + 1) ps).withWrite (randomWrite r.mode p (s.drawPos + nd))
    | .readStdin =>
      (localEffects s r (nin + 1) nd ps).withWrite (stdinWrite r.mode p (s.stdinLeft.getD nin 0))
    | .writeStdout => (localEffects s r nin nd ps).withOut (stdoutByte s p)
    | .noop | .copy | .cut | .pointerRead | .add | .sub | .mul | .div | .and | .or | .xor
    | .allocate | .pointerWrite => localEffects s r nin nd ps

/-- A Local run (R156, 40_run_resolver.md R120): it waits, or is stuck, when stdin holds fewer bytes
than the row has ReadStdin positions. -/
def runLocal (r : Row) (s : State) : StepResult :=
  match s.stdinReply (r.count .readStdin) with
  | .ready => .next (commit s (localEffects s r 0 0 allPos))
  | .wait => .wait
  | .stuck => .stuck

/-- Noop: a row of 16 Noops only advances `pc` (R150, 40_run_resolver.md R119). -/
def execNoop (_m : Mode) (s : State) : Host.Outcome State Fault Refusal :=
  toHost s (.next (commit s { n := 1 }))

/-- Zero (R151). -/
def execZero (p : Marked) (s : State) : Host.Outcome State Fault Refusal :=
  toHost s (runLocal (uniformRow .zero p) s)

/-- One (R152). -/
def execOne (p : Marked) (s : State) : Host.Outcome State Fault Refusal :=
  toHost s (runLocal (uniformRow .one p) s)

/-- Random (R153). -/
def execRandom (p : Marked) (s : State) : Host.Outcome State Fault Refusal :=
  toHost s (runLocal (uniformRow .random p) s)

/-- ReadStdin (R154). -/
def execReadStdin (p : PosMask) (s : State) : Host.Outcome State Fault Refusal :=
  toHost s (runLocal (uniformRow .readStdin ⟨.multi, p⟩) s)

/-- WriteStdout (R155). -/
def execWriteStdout (p : PosMask) (s : State) : Host.Outcome State Fault Refusal :=
  toHost s (runLocal (uniformRow .writeStdout ⟨.multi, p⟩) s)

end Sys2Proof.Machine
end

