-- ==== Sys2Proof/Machine/ReadLinked.lean ====
section
/-! DEFINITION. The read-linked characters (42_read_linked.md): Copy, Cut, PointerRead. The source row
is the head row, the sink row is the row after it. -/

namespace Sys2Proof.Machine

/-- The words at the addresses of a PointerRead source, or ReadOutOfBounds at the source row for the
first address not below `MemLen` (R182). -/
def readWords (m : Memory) : List Nat → Except Raise (List Nat)
  | [] => .ok []
  | a :: as =>
    match m.read a with
    | none => .error ⟨0, .readOutOfBounds⟩
    | some v =>
      match readWords m as with
      | .error e => .error e
      | .ok vs => .ok (v.toNat :: vs)

/-- The inputs a source row of kind `x` gives: its elements, or the memory words they address
(R183). -/
def sourceValues (x : Source) (src : Marked) (s : State) : Except Raise (List Nat) :=
  match x with
  | .copy | .cut => .ok (elements s src)
  | .pointerRead => readWords s.mem (elements s src)

/-- The requests that zero the source positions of a Cut, none for the other sources (R181, R183). -/
def cutWrites (x : Source) (src : Marked) : List RegWrite :=
  match x with
  | .cut => (positions src.mask).map (fun p => elemWrite src.mode p 0)
  | .copy | .pointerRead => []

/-- `PairEffects` for a sink row of the source's own kind (R180 to R184): element by element, the Cut
zeroing first. -/
def pairEffects (x : Source) (src snk : Marked) (s : State) : Except Raise Effects :=
  match sourceValues x src s with
  | .error e => .error e
  | .ok es => .ok { regw := cutWrites x src ++ writesTo snk es, n := 2 }

/-- Copy (R180). -/
def execCopy (src snk : Marked) (s : State) : Host.Outcome State Fault Refusal :=
  toHost s (.next (settle s (pairEffects .copy src snk s)))

/-- Cut (R181). -/
def execCut (src snk : Marked) (s : State) : Host.Outcome State Fault Refusal :=
  toHost s (.next (settle s (pairEffects .cut src snk s)))

/-- PointerRead (R182). -/
def execPointerRead (p q : PosMask) (s : State) : Host.Outcome State Fault Refusal :=
  toHost s (.next (settle s (pairEffects .pointerRead ⟨.multi, p⟩ ⟨.multi, q⟩ s)))

end Sys2Proof.Machine
end

