-- ==== Sys2Proof/Machine/ReverseLinked.lean ====
section
/-! DEFINITION. The reverse-linked characters (44_reverse_linked.md): Allocate and PointerWrite, the
sinks of a read-linked source. -/

namespace Sys2Proof.Machine

/-- The loop of `AllocEffects` (R240): the bases and the sizes of the allocations at `len` and after,
one per input, or AllocCapacity at the sink row. -/
def allocBases : Nat → List Nat → Except Raise (List Nat × List Nat)
  | _, [] => .ok ([], [])
  | len, e :: es =>
    let z := e % 2 ^ 16
    if Memory.allocFails len z then .error ⟨1, .allocCapacity⟩
    else
      match allocBases (len + z) es with
      | .error r => .error r
      | .ok (bases, sizes) => .ok (len :: bases, z :: sizes)

/-- `AllocEffects` (R240). -/
def allocEffects (x : Source) (src : Marked) (q : PosMask) (s : State) : Except Raise Effects :=
  match sourceValues x src s with
  | .error e => .error e
  | .ok es =>
    match allocBases s.mem.len es with
    | .error e => .error e
    | .ok (bases, sizes) =>
      .ok { regw := cutWrites x src ++ writesTo ⟨.multi, q⟩ bases, alloc := sizes, n := 2 }

/-- The loop of `PtrWriteEffects` (R241): the address of each sink position, from the pre-run state,
with its input; WriteOutOfBounds at the sink row for the first address not below `MemLen`. -/
def storeWrites (s : State) : List Pos → List Nat → Except Raise (List (Nat × Word))
  | p :: ps, e :: es =>
    if s.mem.len ≤ (s.reg p).toNat then .error ⟨1, .writeOutOfBounds⟩
    else
      match storeWrites s ps es with
      | .error r => .error r
      | .ok ws => .ok (((s.reg p).toNat, BitVec.ofNat 16 e) :: ws)
  | _, _ => .ok []

/-- `PtrWriteEffects` (R241). -/
def pointerWriteEffects (x : Source) (src : Marked) (q : PosMask) (s : State) :
    Except Raise Effects :=
  match sourceValues x src s with
  | .error e => .error e
  | .ok es =>
    match storeWrites s (positions q) es with
    | .error e => .error e
    | .ok ws => .ok { regw := cutWrites x src, memw := ws, n := 2 }

/-- Allocate (R240). -/
def execAllocate (x : Source) (src : Marked) (q : PosMask) (s : State) :
    Host.Outcome State Fault Refusal :=
  toHost s (.next (settle s (allocEffects x src q s)))

/-- PointerWrite (R241). -/
def execPointerWrite (x : Source) (src : Marked) (q : PosMask) (s : State) :
    Host.Outcome State Fault Refusal :=
  toHost s (.next (settle s (pointerWriteEffects x src q s)))

end Sys2Proof.Machine
end

