-- ==== Sys2Proof/Machine/Rows.lean ====
section
/-! DEFINITION. The row formats of the opcode table: a row of either mode, whose run is resolved and
handed to the meaning of its character (40_run_resolver.md R115 to R131), the end marker, and the two
reserved code spaces. -/

namespace Sys2Proof.Machine

/-- The meaning of an operate chain, by its character. -/
def runChain (o : Operate) (head : Marked) (rest : List Marked) (s : State) :
    Host.Outcome State Fault Refusal :=
  match o with
  | .add => execAdd head rest s
  | .sub => execSub head rest s
  | .mul => execMul head rest s
  | .div => execDiv head rest s
  | .and => execAnd head rest s
  | .or => execOr head rest s
  | .xor => execXor head rest s

/-- The meaning of a pair, by its source and sink characters (42_read_linked.md R183). -/
def runPair (x : Source) (src : Marked) (y : Sink) (snk : Marked) (s : State) :
    Host.Outcome State Fault Refusal :=
  match y with
  | .allocate => execAllocate x src snk.mask s
  | .pointerWrite => execPointerWrite x src snk.mask s
  | .same =>
    match x with
    | .copy => execCopy src snk s
    | .cut => execCut src snk s
    | .pointerRead => execPointerRead src.mask snk.mask s

/-- The run of a decoded head row at `pc` (40_run_resolver.md R118, R129): resolved with the image
rows after it, then executed; a fault of the resolver is taken (R123). -/
def runRow (r : Row) (s : State) : Host.Outcome State Fault Refusal :=
  match resolve r s.rowsAfterPc with
  | .error e => .next (s.takeFault e)
  | .ok .nop => execNoop r.mode s
  | .ok .loc => toHost s (runLocal r s)
  | .ok (.pair x src y snk) => runPair x src y snk s
  | .ok (.chain o head rest) => runChain o head rest s

/-- A single-register row (30_encoding.md R82). A multi-only character in it is a DecodeFault (R84),
which the decoder has raised before a run sees such a row. -/
def execSingle (n : Reg) (ch : Slots) (s : State) : Host.Outcome State Fault Refusal :=
  if allPos.any (fun p => ch[p].multiOnly) then .next (s.takeFault ⟨0, .multiOnlyInSingle⟩)
  else runRow ⟨.single n, ch⟩ s

/-- A multi-register row (30_encoding.md R82). -/
def execMulti (ch : Slots) (s : State) : Host.Outcome State Fault Refusal := runRow ⟨.multi, ch⟩ s

/-- The end marker at the head: `RUNSTATE <- Halted`, nothing else changes (40_run_resolver.md
R117). -/
def execEndMark (s : State) : Host.Outcome State Fault Refusal :=
  .next { s with runstate := .halted }

/-- A reserved selector: DecodeFault(UnknownSelector) (30_encoding.md R86). -/
def execReservedSelector (_sel : Byte) (s : State) : Host.Outcome State Fault Refusal :=
  .next (s.takeFault ⟨0, .unknownSelector⟩)

/-- A reserved character code: DecodeFault(ReservedCharacter) (30_encoding.md R85). -/
def execReservedCharacter (_m : Mode) (_i : Pos) (_code : Byte) (s : State) :
    Host.Outcome State Fault Refusal :=
  .next (s.takeFault ⟨0, .reservedCharacter⟩)

/-- What a Running step's stdin answers (40_run_resolver.md R129): `wait` or `stuck` when the head row
is a Local row that needs more bytes than stdin holds, else `ready`. -/
def stepReply (s : State) : StdinReply :=
  match s.rowsAtPc with
  | [] => .ready
  | w :: _ =>
    match decodeRow w with
    | .ok (.row r) =>
      match classify r with
      | .ok .loc => s.stdinReply (r.count .readStdin)
      | _ => .ready
    | _ => .ready

end Sys2Proof.Machine
end

