-- ==== Sys2Proof/Machine/Dispatch.lean ====
section
/-! DEFINITION. `exec`: the meaning of each instruction, one arm per constructor of `Instr`. -/

namespace Sys2Proof.Machine

def exec (i : Instr) (s : State) : Host.Outcome State Fault Refusal :=
  match i with
  -- the row formats
  | .single r ch => Sys2Proof.Machine.execSingle r ch s
  | .multi ch => Sys2Proof.Machine.execMulti ch s
  | .endMark => Sys2Proof.Machine.execEndMark s
  | .reservedSelector sel => Sys2Proof.Machine.execReservedSelector sel s
  -- the characters
  | .noop m => Sys2Proof.Machine.execNoop m s
  | .copy src snk => Sys2Proof.Machine.execCopy src snk s
  | .cut src snk => Sys2Proof.Machine.execCut src snk s
  | .pointerRead p q => Sys2Proof.Machine.execPointerRead p q s
  | .writeStdout p => Sys2Proof.Machine.execWriteStdout p s
  | .add head rest => Sys2Proof.Machine.execAdd head rest s
  | .sub head rest => Sys2Proof.Machine.execSub head rest s
  | .mul head rest => Sys2Proof.Machine.execMul head rest s
  | .div head rest => Sys2Proof.Machine.execDiv head rest s
  | .and head rest => Sys2Proof.Machine.execAnd head rest s
  | .or head rest => Sys2Proof.Machine.execOr head rest s
  | .xor head rest => Sys2Proof.Machine.execXor head rest s
  | .zero p => Sys2Proof.Machine.execZero p s
  | .one p => Sys2Proof.Machine.execOne p s
  | .random p => Sys2Proof.Machine.execRandom p s
  | .readStdin p => Sys2Proof.Machine.execReadStdin p s
  | .allocate x src q => Sys2Proof.Machine.execAllocate x src q s
  | .pointerWrite x src q => Sys2Proof.Machine.execPointerWrite x src q s
  | .reservedCharacter m p code => Sys2Proof.Machine.execReservedCharacter m p code s

end Sys2Proof.Machine
end

