-- ==== Sys2Proof/Machine/Step.lean ====
section
/-! DEFINITION. One step of the engine (40_run_resolver.md R115, R129), and the placing of a table
word where the next step fetches. -/

namespace Sys2Proof.Machine

/-- One step (40_run_resolver.md R115, R129): while Running, the head row at `pc` is fetched and
decoded and its run executed; a fault of the fetch is taken (R116). In a terminal state a step changes
nothing (R128, 10_state.md R45). -/
def step (s : State) : Host.Outcome State Fault Refusal :=
  match s.runstate with
  | .running =>
    match fetchHead s with
    | .ok i => exec i s
    | .error r => .next (s.takeFault r)
  | .halted => .next s
  | .faulted => .next s

/-- `s` with the rows of a table word (Decode.lean's `tableRows`) and an end marker after them in the
image at `pc`. Log entry 10. -/
def State.withFetchWord (s : State) (nbits w : Nat) : State :=
  { s with image := placeRows s.image (tableRows nbits w ++ [endWord]) s.pc.toNat }

end Sys2Proof.Machine
end

