-- ==== Sys2Proof/Machine/Assembly.lean ====
section
/-! DEFINITION. The assembly syntax the spec defines for its examples (30_encoding.md R83, R95). No
instruction's meaning rests on it. -/

namespace Sys2Proof.Machine

/-- The letter of a character (30_encoding.md R83). -/
def letterOf : Character → Char
  | .noop => '.'
  | .copy => 'C'
  | .cut => 'X'
  | .pointerRead => 'P'
  | .writeStdout => 'O'
  | .add => '+'
  | .sub => '-'
  | .mul => '*'
  | .div => '/'
  | .and => '&'
  | .or => '|'
  | .xor => '^'
  | .zero => '0'
  | .one => '1'
  | .random => '?'
  | .readStdin => 'I'
  | .allocate => 'A'
  | .pointerWrite => 'W'

/-- The character with a letter (30_encoding.md R83). -/
def characterOfLetter (c : Char) : Option Character := allCharacters.find? (fun k => letterOf k == c)

/-- A decimal number, digit by digit after `acc`. DESIGN CHOICE: leading zeros are accepted, log entry
20. -/
def decimalFrom : Nat → List Char → Option Nat
  | acc, [] => some acc
  | acc, c :: cs =>
    if '0'.toNat ≤ c.toNat ∧ c.toNat ≤ '9'.toNat then
      decimalFrom (10 * acc + (c.toNat - '0'.toNat)) cs
    else none

/-- `selector ::= "M" | "R" decimal`, decimal in 0..15 (R95). DESIGN CHOICE: the grammar does not say
what a decimal is, and any digits whose number is in 0..15 are one, leading zeros too (`R007` is `R7`);
log entry 20. -/
def selectorOf : List Char → Option Byte
  | ['M'] => some 0x10
  | 'R' :: d :: ds =>
    match decimalFrom 0 (d :: ds) with
    | some n => if n ≤ 15 then some (BitVec.ofNat 8 n) else none
    | none => none
  | _ => none

/-- The codes of a list of letters. -/
def codesOf : List Char → Option (List Byte)
  | [] => some []
  | c :: cs =>
    match characterOfLetter c, codesOf cs with
    | some k, some bs => some (k.code :: bs)
    | _, _ => none

/-- `group ::= letter{8}` (R95). -/
def groupOf (g : List Char) : Option (List Byte) := if g.length = 8 then codesOf g else none

/-- The parts of a line between its spaces. -/
def splitSpaces : List Char → List (List Char)
  | [] => [[]]
  | c :: cs =>
    match splitSpaces cs with
    | [] => [[c]]
    | t :: ts => if c = ' ' then [] :: t :: ts else (c :: t) :: ts

/-- `row ::= selector " " group " " group` (R95). -/
def assembleRow (l : List Char) : Option RowWord :=
  match splitSpaces l with
  | [sel, g1, g2] =>
    match selectorOf sel, groupOf g1, groupOf g2 with
    | some s, some b1, some b2 => rowOfBytes (s :: (b1 ++ b2))
    | _, _, _ => none
  | _ => none

/-- A line without its comment and without the spaces at its end (R95). DESIGN CHOICE: no production of
the grammar places `comment` or says what `blank` is; here a comment may end any line, the spaces
before it and the spaces at the end of a line without one are dropped, and a line of nothing but
spaces and a comment is blank. Log entry 21. -/
def stripComment (l : List Char) : List Char :=
  ((l.takeWhile (· ≠ ';')).reverse.dropWhile (· = ' ')).reverse

/-- The row words of an assembly text, one for each row or END line, none if a line is refused
(R95). -/
def assemble : List (List Char) → Option (List RowWord)
  | [] => some []
  | l :: ls =>
    match assemble ls with
    | none => none
    | some ws =>
      match stripComment l with
      | [] => some ws
      | ['E', 'N', 'D'] => some (endWord :: ws)
      | cs => (assembleRow cs).map (· :: ws)

end Sys2Proof.Machine
end

