-- ==== Sys2Proof/WellFormed.lean ====
section
/-! DEFINITION. Well-formed instructions: what the decoder and the run resolver can read. -/

namespace Sys2Proof

/-- No multi-only character stands in the slots (30_encoding.md R84). -/
def noMultiOnly (ch : Slots) : Bool := allPos.all (fun p => !ch[p].multiOnly)

/-- At least one position is marked (40_run_resolver.md R118: the kind occurs in the row). -/
def someMarked (m : PosMask) : Bool := m != 0

/-- The rows of a pair mark equally many positions (40_run_resolver.md R121). -/
def sameCount (a b : PosMask) : Bool := popcount a == popcount b

/-- A chain has at least two rows (40_run_resolver.md R122), and each marks as many positions as the
head (43_operate.md R210). -/
def chainOk (head : Marked) (rest : List Marked) : Bool :=
  someMarked head.mask && !rest.isEmpty && rest.all (fun m => sameCount head.mask m.mask)

/-- A PointerRead source stands in a multi-register row (30_encoding.md R84). -/
def sourceModeOk (x : Source) (src : Marked) : Bool := x != .pointerRead || src.mode == .multi

/-- Whether an instruction is well-formed. -/
def Instr.wf : Instr → Bool
  | .single _ ch => noMultiOnly ch
  | .multi _ => true
  | .endMark => true
  | .reservedSelector sel => reservedSel sel
  | .noop _ => true
  | .copy src snk => someMarked src.mask && sameCount src.mask snk.mask
  | .cut src snk => someMarked src.mask && sameCount src.mask snk.mask
  | .pointerRead p q => someMarked p && sameCount p q
  | .writeStdout p => someMarked p
  | .add head rest => chainOk head rest
  | .sub head rest => chainOk head rest
  | .mul head rest => chainOk head rest
  | .div head rest => chainOk head rest
  | .and head rest => chainOk head rest
  | .or head rest => chainOk head rest
  | .xor head rest => chainOk head rest
  | .zero p => someMarked p.mask
  | .one p => someMarked p.mask
  | .random p => someMarked p.mask
  | .readStdin p => someMarked p
  | .allocate x src q => someMarked src.mask && sameCount src.mask q && sourceModeOk x src
  | .pointerWrite x src q => someMarked src.mask && sameCount src.mask q && sourceModeOk x src
  | .reservedCharacter _ _ code => 0x12 ≤ code.toNat

/-- Whether an instruction is one of the row formats of the table, read from one row word. -/
def Instr.isRowFormat : Instr → Bool
  | .single _ _ | .multi _ | .endMark | .reservedSelector _ | .reservedCharacter _ _ _ => true
  | .noop _ | .copy _ _ | .cut _ _ | .pointerRead _ _ | .writeStdout _
  | .add _ _ | .sub _ _ | .mul _ _ | .div _ _ | .and _ _ | .or _ _ | .xor _ _
  | .zero _ | .one _ | .random _ | .readStdin _ | .allocate _ _ _ | .pointerWrite _ _ _ => false

end Sys2Proof
end

