-- ==== Sys2Proof/Safety.lean ====
section
/-! DEFINITION. The terms the claims use: the invariant of the machine, what a faulted state is, what a
row of the image is, which register bits a row reaches, the frame of a run, and the end of a run. -/

namespace Sys2Proof.Machine

/-! ## The invariant -/

/-- The 18 sub-reasons (60_exceptions.md R262). -/
def allReasons : List FaultReason :=
  [.unknownSelector, .reservedCharacter, .multiOnlyInSingle, .endNonZero, .noRow, .headMixed,
   .headSink, .noFollowingRow, .sinkKind, .sinkMixed, .sinkCount, .chainCount, .chainMixed,
   .readOutOfBounds, .writeOutOfBounds, .allocCapacity, .divByZero, .emptyChain]

/-- The fault record is zero unless the engine is Faulted, and then it holds a sub-reason and the kind
that sub-reason belongs to (10_state.md R30, 60_exceptions.md R261, R262). -/
def recordOk (s : State) : Bool :=
  match s.runstate with
  | .running => s.fault == ⟨0, 0, 0⟩
  | .halted => s.fault == ⟨0, 0, 0⟩
  | .faulted =>
    allReasons.any (fun r =>
      s.fault.kind == kindCode (kindOfReason r) && s.fault.reason == reasonCode r)

/-- The invariant of the machine: the memory is canonical and at most `MEM_CAP` words long
(10_state.md R31), the fault record fits the run state (R30), and no more stdin bytes are consumed
than were supplied (R42). -/
def State.inv (s : State) : Bool :=
  s.mem.wf && recordOk s && decide (s.stdinPos ≤ s.stdin.length)

/-! ## Faulted states -/

/-- `s` with `RUNSTATE = Faulted` and the fault record given by its three numbers
(60_exceptions.md R265, R266). -/
def faultedAt (s : State) (kind row reason : Nat) : State :=
  { s with
    runstate := .faulted
    fault := ⟨BitVec.ofNat 3 kind, BitVec.ofNat 16 row, BitVec.ofNat 5 reason⟩ }

/-! ## Rows of the image -/

/-- The decoded image row `k` rows after the head row, none where there is no row or it does not
decode (40_run_resolver.md R116). -/
def rowAt (s : State) (k : Nat) : Option Decoded :=
  match s.image[s.pc.toNat + k]? with
  | none => none
  | some w =>
    match decodeRow w with
    | .ok d => some d
    | .error _ => none

/-- Whether the image row `k` rows after the head row continues a chain of `c` occurrences of `o`
(40_run_resolver.md R122). -/
def continuesChain (s : State) (o : Operate) (c k : Nat) : Bool :=
  match rowAt s k with
  | some (.row r) => r.count o.char == c && r.kinds == [o.char]
  | _ => false

/-- Whether a chain of `o` ends before the image row `k` rows after the head row without a fault: there
is no such row, it is the end marker, or it holds no `o` (40_run_resolver.md R122). -/
def endsChain (s : State) (o : Operate) (k : Nat) : Bool :=
  decide (s.image.length ≤ s.pc.toNat + k) ||
  match rowAt s k with
  | some (.row r) => r.count o.char == 0
  | some .endMarker => true
  | none => false

/-! ## Register frames -/

/-- Whether the marked positions of a row reach bit `b` of register `r` (40_run_resolver.md R113). -/
def reaches (m : Marked) (r : Reg) (b : Nat) : Bool :=
  match m.mode with
  | .multi => m.mask.getLsbD r.val
  | .single n => n == r && m.mask.getLsbD b

/-- Whether a write to the marked positions of a row names register `r` (40_run_resolver.md R125). -/
def touches (m : Marked) (r : Reg) : Bool :=
  match m.mode with
  | .multi => m.mask.getLsbD r.val
  | .single n => n == r && m.mask != 0

/-- The registers after a run of `n` rows that writes the marked positions `ms` and nothing else: every
bit no marked position reaches keeps its value, and `pc` advances past the run unless a write names
it (40_run_resolver.md R124, R125). -/
def RegFrame (s t : State) (n : Nat) (ms : List Marked) : Prop :=
  (∀ (r : Reg) (b : Nat), (∀ m ∈ ms, reaches m r b = false) →
    (r = Config.pcIndex → ∃ m ∈ ms, touches m Config.pcIndex = true) →
    (t.reg r).getLsbD b = (s.reg r).getLsbD b) ∧
  ((∀ m ∈ ms, touches m Config.pcIndex = false) → t.pc = BitVec.ofNat 16 (s.pc.toNat + n))

/-- Every bit a row's marked positions reach, but for those `except` reaches, is zero. -/
def ZeroedBut (t : State) (m except : Marked) : Prop :=
  ∀ (r : Reg) (b : Nat), reaches m r b = true → reaches except r b = false →
    (t.reg r).getLsbD b = false

/-- The source positions that a run writes: those of a Cut (42_read_linked.md R181, R183). -/
def cutRows (x : Source) (src : Marked) : List Marked :=
  match x with
  | .cut => [src]
  | .copy | .pointerRead => []

/-! ## Inputs of the sinks -/

/-- The inputs a source gives, for readable addresses (42_read_linked.md R183). -/
def inputsOf (x : Source) (src : Marked) (s : State) : List Nat :=
  match x with
  | .copy | .cut => elements s src
  | .pointerRead => (elements s src).map (fun a => (getCell a s.mem.cells).toNat)

/-- The addresses of a PointerRead source are readable (42_read_linked.md R182). -/
def readable (x : Source) (src : Marked) (s : State) : Bool :=
  x != .pointerRead || (elements s src).all (fun a => decide (a < s.mem.len))

/-- Whether allocations of these sizes, one after the other, all succeed (44_reverse_linked.md
R240). -/
def allocFit : Nat → List Nat → Bool
  | _, [] => true
  | len, z :: zs =>
    decide (len < Config.memCap) && decide (len + z ≤ Config.memCap) && allocFit (len + z) zs

/-- The number of positions before `p` that hold `k`. -/
def countBefore (r : Row) (k : Character) (p : Pos) : Nat :=
  ((positions (r.maskOf k)).filter (fun q => q < p)).length

/-- The element a position of a Local row holds after the run, none where the run writes nothing
(41_write_class.md R156). -/
def localAfter (r : Row) (s : State) (p : Pos) : Option Nat :=
  match r.ch[p] with
  | .zero => some 0
  | .one => some (2 ^ r.mode.width - 1)
  | .random =>
    some (Config.draw r.mode.width (s.drawPos + countBefore r .random p)).toNat
  | .readStdin => (s.stdin[s.stdinPos + countBefore r .readStdin p]?).map BitVec.toNat
  | .noop | .copy | .cut | .pointerRead | .writeStdout | .add | .sub | .mul | .div | .and | .or
  | .xor | .allocate | .pointerWrite => none

/-- What a Local run does (41_write_class.md R156). -/
def LocalResult (r : Row) (s t : State) : Prop :=
  (∀ p v, localAfter r s p = some v → elem t r.mode p = v) ∧
  RegFrame s t 1 [r.marked .zero, r.marked .one, r.marked .random, r.marked .readStdin] ∧
  t.stdout = s.stdout ++
    (positions (r.maskOf .writeStdout)).map (fun p => (s.reg p).extractLsb' 0 8) ∧
  t.stdinPos = s.stdinPos + r.count .readStdin ∧
  t.drawPos = s.drawPos + r.count .random ∧
  t = { s with
        x := t.x, stdout := t.stdout, stdinPos := t.stdinPos, drawPos := t.drawPos }

/-- The encoding of a character, as its rule states it: its code, its letter, and whether it may stand in
multi-register rows only (30_encoding.md R83, R84). -/
def Encoded (k : Character) (code : Byte) (letter : Char) (multiOnly : Bool) : Prop :=
  k.code = code ∧ characterOfCode code = some k ∧ letterOf k = letter ∧
  characterOfLetter letter = some k ∧ k.multiOnly = multiOnly

/-! ## The end of a run -/

/-- `t` is the end of a run of the engine, its last step taken from `s` (70_reset_and_hazards.md
R298). -/
def Ends (s t : State) : Prop :=
  s.runstate = .running ∧ step s = .next t ∧ t.runstate = .halted

/-- The observation of an ended run (70_reset_and_hazards.md R298). -/
structure Observation where
  x : Vector Word 16
  memLen : Nat
  mem : List Word
  stdout : List Byte
  stdinPos : Nat
  deriving DecidableEq, Repr

/-- What is observed of a state (70_reset_and_hazards.md R298). -/
def observe (s : State) : Observation := ⟨s.x, s.mem.len, s.mem.words, s.stdout, s.stdinPos⟩

/-- A launch state (70_reset_and_hazards.md R294): a valid image in the reset state, with any stdin
stream and any draws. -/
def Launched (s : State) : Prop :=
  validImage s.image = true ∧
  s = { State.reset with
        image := s.image, stdin := s.stdin, stdinClosed := s.stdinClosed, drawPos := s.drawPos }

end Sys2Proof.Machine
end

