-- ==== Sys2Proof/Certificates/Slice0/Obligations.lean ====
section
/-! DEFINITION. The statements for the provers, each formalising rules of spec/. -/

section

open Sys2Proof Sys2Proof.Machine

/-! ## Encoding -/

/-- 30_encoding.md R82, R83, R84, R87, R88: written-out row words decode to the instructions they stand
for, or to the DecodeFault. That a word of a reserved space decodes to an instruction of its own, which
keeps the selector or the lowest reserved slot and drops the rest, is the model's choice, log entry
11. -/
def Obligations.SampleWordsDecode : Prop :=
  decode ⟨0x03, #v[0, 0, 0x0D, 0, 0x0C, 0, 0, 0, 0, 0, 0, 0, 0, 0, 0, 0]⟩ =
    .ok (.single 3 #v[.noop, .noop, .one, .noop, .zero, .noop, .noop, .noop,
      .noop, .noop, .noop, .noop, .noop, .noop, .noop, .noop]) ∧
  decode ⟨0x10, #v[0, 0x0F, 0x10, 0x11, 0x04, 0x03, 0x0E, 0, 0, 0, 0, 0, 0, 0, 0, 0x0B]⟩ =
    .ok (.multi #v[.noop, .readStdin, .allocate, .pointerWrite, .writeStdout, .pointerRead, .random,
      .noop, .noop, .noop, .noop, .noop, .noop, .noop, .noop, .xor]) ∧
  decode ⟨0xFF, #v[0, 0, 0, 0, 0, 0, 0, 0, 0, 0, 0, 0, 0, 0, 0, 0]⟩ = .ok .endMark ∧
  decode ⟨0x12, #v[0x13, 0, 0, 0, 0, 0, 0, 0, 0, 0, 0, 0, 0, 0, 0, 0]⟩ =
    .ok (.reservedSelector 0x12) ∧
  decode ⟨0x05, #v[0x03, 0x12, 0, 0, 0, 0, 0, 0, 0, 0, 0, 0, 0, 0, 0, 0]⟩ =
    .ok (.reservedCharacter (.single 5) 1 0x12) ∧
  decode ⟨0x03, #v[0x03, 0, 0, 0, 0, 0, 0, 0, 0, 0, 0, 0, 0, 0, 0, 0]⟩ = .error .multiOnlyInSingle ∧
  decode ⟨0xFF, #v[0x12, 0, 0, 0, 0, 0, 0, 0, 0, 0, 0, 0, 0, 0, 0, 0]⟩ = .error .endNonZero

/-- Every well-formed row format is read back from its one row word (30_encoding.md R80, R82, R83,
R87). The one word of each instruction of the reserved spaces is the model's choice, log entry 11. -/
def Obligations.RowDecodeEncode : Prop :=
  ∀ i : Instr, i.isRowFormat = true → i.wf = true → (encode i).map decode = [.ok i]

/-- Every well-formed run is read back from its row words by the decoder and the run resolver, whatever
stands in the image after the end marker that follows them (40_run_resolver.md R118, R121, R122). -/
def Obligations.RunDecodeEncode : Prop :=
  ∀ (i : Instr) (rest : List RowWord), i.isRowFormat = false → i.wf = true →
    decodeRun (encode i ++ endWord :: rest) = .ok i

/-- A row word that decodes to a row is that row's word, and one that decodes to the end marker is the
end marker's word: nothing else in the encoding carries meaning (30_encoding.md R97). -/
def Obligations.DecodedRowIsItsWord : Prop :=
  (∀ (w : RowWord) (r : Row), decodeRow w = .ok (.row r) → r.word = w) ∧
  (∀ w : RowWord, decodeRow w = .ok .endMarker → w = endWord)

/-! ## The decoder's faults -/

/-- 30_encoding.md R86: a reserved selector is DecodeFault(UnknownSelector). -/
def Obligations.ReservedSelectorFaults : Prop :=
  (∀ (sel : Byte) (s : State),
    exec (.reservedSelector sel) s = .next (faultedAt s 1 s.pc.toNat 1)) ∧
  (∀ (s : State) (w : RowWord), s.runstate = .running → s.image[s.pc.toNat]? = some w →
    0x11 ≤ w.sel.toNat → w.sel.toNat ≤ 0xFE → step s = .next (faultedAt s 1 s.pc.toNat 1)) ∧
  (∀ w : RowWord, 0x11 ≤ w.sel.toNat → w.sel.toNat ≤ 0xFE → decodeRow w = .error .unknownSelector)

/-- 30_encoding.md R85: a reserved character code in any position of a row with a defined selector is
DecodeFault(ReservedCharacter). That the selector is checked first is R88's order. -/
def Obligations.ReservedCharacterFaults : Prop :=
  (∀ (m : Mode) (p : Pos) (code : Byte) (s : State),
    exec (.reservedCharacter m p code) s = .next (faultedAt s 1 s.pc.toNat 2)) ∧
  (∀ (s : State) (w : RowWord) (p : Pos), s.runstate = .running →
    s.image[s.pc.toNat]? = some w → w.sel.toNat ≤ 0x10 → 0x12 ≤ (w.ch[p]).toNat →
    step s = .next (faultedAt s 1 s.pc.toNat 2)) ∧
  (∀ (w : RowWord) (p : Pos), w.sel.toNat ≤ 0x10 → 0x12 ≤ (w.ch[p]).toNat →
    decodeRow w = .error .reservedCharacter)

/-- 30_encoding.md R84: a multi-only character in a single-register row is
DecodeFault(MultiOnlyInSingle). That reserved codes are checked first is R88's order. -/
def Obligations.MultiOnlyInSingleFaults : Prop :=
  (∀ (s : State) (w : RowWord) (p : Pos), s.runstate = .running →
    s.image[s.pc.toNat]? = some w → w.sel.toNat < 0x10 → (∀ q : Pos, (w.ch[q]).toNat < 0x12) →
    (w.ch[p]).toNat ∈ [0x03, 0x04, 0x0F, 0x10, 0x11] →
    step s = .next (faultedAt s 1 s.pc.toNat 3)) ∧
  (∀ (w : RowWord) (p : Pos), w.sel.toNat < 0x10 → (∀ q : Pos, (w.ch[q]).toNat < 0x12) →
    (w.ch[p]).toNat ∈ [0x03, 0x04, 0x0F, 0x10, 0x11] →
    decodeRow w = .error .multiOnlyInSingle)

/-- 30_encoding.md R87: an end marker with a slot that is not 0x00 is DecodeFault(EndNonZero). -/
def Obligations.EndMarkerWithNonZeroSlotFaults : Prop :=
  ∀ (s : State) (w : RowWord) (p : Pos), s.runstate = .running →
    s.image[s.pc.toNat]? = some w → w.sel = 0xFF → w.ch[p] ≠ 0x00 →
    step s = .next (faultedAt s 1 s.pc.toNat 4)

/-! ## The step -/

/-- 40_run_resolver.md R115, R129: while Running, a step is the meaning of the instruction the row word
at `pc` decodes to. -/
def Obligations.StepRunsDecodedInstruction : Prop :=
  ∀ (s : State) (w : RowWord) (i : Instr), s.runstate = .running →
    s.image[s.pc.toNat]? = some w → decode w = .ok i → step s = exec i s

/-- 40_run_resolver.md R115: a step executes one run. When the image rows from `pc` on resolve to the
run `i`, the step is the meaning of `i`, so the statements about the 18 characters speak of steps. -/
def Obligations.StepRunsResolvedRun : Prop :=
  ∀ (s : State) (i : Instr), s.runstate = .running → decodeRun (s.image.drop s.pc.toNat) = .ok i →
    step s = exec i s

/-- 40_run_resolver.md R123: a fault raised during fetch or resolution is recorded and changes nothing
else. -/
def Obligations.ResolverFaultIsTaken : Prop :=
  ∀ (s : State) (r : Raise), s.runstate = .running →
    decodeRun (s.image.drop s.pc.toNat) = .error r →
    step s = .next { s with runstate := .faulted, fault := faultRecord s.pc r }

/-- 40_run_resolver.md R116: a head fetch at or beyond the image length is DecodeFault(NoRow). -/
def Obligations.FetchBeyondImageFaults : Prop :=
  ∀ s : State, s.runstate = .running → s.image.length ≤ s.pc.toNat →
    step s = .next (faultedAt s 1 s.pc.toNat 5)

/-- 40_run_resolver.md R128: in a terminal state a step request changes nothing. -/
def Obligations.TerminalStatesKeepEverything : Prop :=
  ∀ s : State, s.runstate = .halted ∨ s.runstate = .faulted → step s = .next s

/-- 40_run_resolver.md R117: the end marker at the head sets RUNSTATE to Halted and changes nothing
else. -/
def Obligations.EndMarkerHalts : Prop :=
  (∀ s : State, exec .endMark s = .next { s with runstate := .halted }) ∧
  (∀ s : State, s.runstate = .running → s.image[s.pc.toNat]? = some endWord →
    step s = .next { s with runstate := .halted })

/-! ## Local characters -/

/-- 40_run_resolver.md R119, 41_write_class.md R150: a Nop run of either mode reads nothing and writes
nothing, and `pc` advances by 1. -/
def Obligations.NoopOnlyAdvancesPc : Prop :=
  ∀ (m : Mode) (s : State), ∃ t, exec (.noop m) s = .next t ∧
    t = { s with x := t.x } ∧ t.pc = BitVec.ofNat 16 (s.pc.toNat + 1) ∧
    ∀ r : Reg, r ≠ 14 → t.reg r = s.reg r

/-- 41_write_class.md R151: each Zero position is set to zero; nothing else changes but `pc`. -/
def Obligations.ZeroResult : Prop :=
  Encoded .zero 0x0C '0' false ∧
  ∀ (p : Marked) (s : State), ∃ t, exec (.zero p) s = .next t ∧
    elements t p = (positions p.mask).map (fun _ => 0) ∧
    RegFrame s t 1 [p] ∧ t = { s with x := t.x }

/-- 41_write_class.md R152: each One position is set to all ones of its width; nothing else changes but
`pc`. -/
def Obligations.OneResult : Prop :=
  Encoded .one 0x0D '1' false ∧
  ∀ (p : Marked) (s : State), ∃ t, exec (.one p) s = .next t ∧
    elements t p = (positions p.mask).map (fun _ => 2 ^ p.mode.width - 1) ∧
    RegFrame s t 1 [p] ∧ t = { s with x := t.x }

/-- 41_write_class.md R153: the Random positions, in ascending order, take one draw each, of the
position's width. The draws are the model's free values, counted by the model's own field `drawPos` (log
entry 5): the statement holds whatever they are. -/
def Obligations.RandomResult : Prop :=
  Encoded .random 0x0E '?' false ∧
  ∀ (p : Marked) (s : State), ∃ t, exec (.random p) s = .next t ∧
    elements t p =
      (List.range p.count).map (fun j => (Config.draw p.mode.width (s.drawPos + j)).toNat) ∧
    RegFrame s t 1 [p] ∧ t = { s with x := t.x, drawPos := s.drawPos + p.count }

/-- 41_write_class.md R154: with enough bytes supplied, the ReadStdin positions, in ascending order,
take one byte each, zero-extended, and exactly that many bytes are consumed. -/
def Obligations.ReadStdinResult : Prop :=
  ∀ (p : PosMask) (s : State), s.stdinPos + popcount p ≤ s.stdin.length →
    ∃ t, exec (.readStdin p) s = .next t ∧
      elements t ⟨.multi, p⟩ =
        ((s.stdin.drop s.stdinPos).take (popcount p)).map BitVec.toNat ∧
      RegFrame s t 1 [⟨.multi, p⟩] ∧
      t = { s with x := t.x, stdinPos := s.stdinPos + popcount p }

/-- 40_run_resolver.md R129, 10_state.md R42: a Running step whose head is a Local row that needs more
bytes than stdin holds waits, or is stuck when the host has closed stdin, and changes no state. That the
model's step then answers the state it started from is the model's choice, log entry 4. -/
def Obligations.ReadStdinWaitsOrIsStuck : Prop :=
  ∀ (s : State) (r : Row), s.runstate = .running → rowAt s 0 = some (.row r) →
    r.kinds.all Character.isLocal = true → s.stdinPos ≤ s.stdin.length →
    s.stdin.length < s.stdinPos + r.count .readStdin →
    step s = .next s ∧ stepReply s = (if s.stdinClosed then .stuck else .wait)

/-- 41_write_class.md R155: the WriteStdout positions, in ascending order, emit bits 7 to 0 of their
registers, and no register is written but `pc`. -/
def Obligations.WriteStdoutResult : Prop :=
  Encoded .writeStdout 0x04 'O' true ∧
  ∀ (p : PosMask) (s : State), ∃ t, exec (.writeStdout p) s = .next t ∧
    t.stdout = s.stdout ++ (positions p).map (fun q => (s.reg q).extractLsb' 0 8) ∧
    RegFrame s t 1 [] ∧ t = { s with x := t.x, stdout := t.stdout }

/-- 41_write_class.md R156: a row of either mode that mixes local characters does what each of them
does, in one run of one row, once stdin holds its bytes. Draws are the model's free values (log entry
5). -/
def Obligations.LocalRowResult : Prop :=
  (∀ (ch : Slots) (s : State), (Row.mk .multi ch).kinds.all Character.isLocal = true →
    s.stdinPos + (Row.mk .multi ch).count .readStdin ≤ s.stdin.length →
    ∃ t, exec (.multi ch) s = .next t ∧ LocalResult ⟨.multi, ch⟩ s t) ∧
  (∀ (n : Reg) (ch : Slots) (s : State), noMultiOnly ch = true →
    (Row.mk (.single n) ch).kinds.all Character.isLocal = true →
    ∃ t, exec (.single n ch) s = .next t ∧ LocalResult ⟨.single n, ch⟩ s t)

/-! ## Read-linked pairs -/

/-- 42_read_linked.md R180, R184: sink position j takes source element j of the pre-run state, cut or
zero-extended to the sink's width; nothing else changes but `pc`. -/
def Obligations.CopyResult : Prop :=
  Encoded .copy 0x01 'C' false ∧
  ∀ (src snk : Marked) (s : State), src.count = snk.count →
    ∃ t, exec (.copy src snk) s = .next t ∧
      elements t snk = (elements s src).map (fun e => e % 2 ^ snk.mode.width) ∧
      RegFrame s t 2 [snk] ∧ t = { s with x := t.x }

/-- 42_read_linked.md R181, R184: as Copy, and every source bit that no sink position reaches becomes
zero; where a sink position reaches the same storage, the sink's write wins. -/
def Obligations.CutResult : Prop :=
  Encoded .cut 0x02 'X' false ∧
  ∀ (src snk : Marked) (s : State), src.count = snk.count →
    ∃ t, exec (.cut src snk) s = .next t ∧
      elements t snk = (elements s src).map (fun e => e % 2 ^ snk.mode.width) ∧
      ZeroedBut t src snk ∧
      RegFrame s t 2 [src, snk] ∧ t = { s with x := t.x }

/-- 42_read_linked.md R182: with every address below MemLen, sink position j takes the word at the
address in source register j; nothing else changes but `pc`. -/
def Obligations.PointerReadResult : Prop :=
  ∀ (p q : PosMask) (s : State), popcount p = popcount q →
    (∀ a ∈ elements s ⟨.multi, p⟩, a < s.mem.len) →
    ∃ t, exec (.pointerRead p q) s = .next t ∧
      (elements t ⟨.multi, q⟩).map some =
        (elements s ⟨.multi, p⟩).map (fun a => (s.mem.words[a]?).map BitVec.toNat) ∧
      RegFrame s t 2 [⟨.multi, q⟩] ∧ t = { s with x := t.x }

/-- 42_read_linked.md R182: an address not below MemLen is MemoryFault(h, ReadOutOfBounds), for every
sink kind. -/
def Obligations.PointerReadOutOfBoundsFaults : Prop :=
  ∀ (p q : PosMask) (s : State) (a : Nat), a ∈ elements s ⟨.multi, p⟩ → s.mem.len ≤ a →
    exec (.pointerRead p q) s = .next (faultedAt s 3 s.pc.toNat 14) ∧
    exec (.allocate .pointerRead ⟨.multi, p⟩ q) s = .next (faultedAt s 3 s.pc.toNat 14) ∧
    exec (.pointerWrite .pointerRead ⟨.multi, p⟩ q) s = .next (faultedAt s 3 s.pc.toNat 14)

/-- 42_read_linked.md R185, 40_run_resolver.md R121: a source row that is the last row, or that the end
marker follows, is LinkageFault(h, NoFollowingRow). -/
def Obligations.NoFollowingRowFaults : Prop :=
  ∀ (s : State) (x : Source) (r0 : Row), s.runstate = .running → rowAt s 0 = some (.row r0) →
    r0.kinds = [x.char] →
    (s.image.length ≤ s.pc.toNat + 1 ∨ rowAt s 1 = some .endMarker) →
    step s = .next (faultedAt s 2 s.pc.toNat 8)

/-- 42_read_linked.md R185, 44_reverse_linked.md R243: a sink row of two or more kinds is
LinkageFault(h+1, SinkMixed). -/
def Obligations.SinkMixedFaults : Prop :=
  ∀ (s : State) (x : Source) (r0 r1 : Row), s.runstate = .running → rowAt s 0 = some (.row r0) →
    r0.kinds = [x.char] → rowAt s 1 = some (.row r1) → 2 ≤ r1.kinds.length →
    step s = .next (faultedAt s 2 (s.pc.toNat + 1) 10)

/-- 42_read_linked.md R185: a sink row that is all Noop, or whose one kind is not a receiving kind of
the source, is LinkageFault(h+1, SinkKind). -/
def Obligations.SinkKindFaults : Prop :=
  ∀ (s : State) (x : Source) (r0 r1 : Row), s.runstate = .running → rowAt s 0 = some (.row r0) →
    r0.kinds = [x.char] → rowAt s 1 = some (.row r1) → r1.kinds.length ≤ 1 →
    x.char ∉ r1.kinds → Character.allocate ∉ r1.kinds → Character.pointerWrite ∉ r1.kinds →
    step s = .next (faultedAt s 2 (s.pc.toNat + 1) 9)

/-- 42_read_linked.md R185, 44_reverse_linked.md R243: a sink row of a receiving kind whose count
differs from the source's is LinkageFault(h+1, SinkCount). -/
def Obligations.SinkCountFaults : Prop :=
  ∀ (s : State) (x : Source) (y : Character) (r0 r1 : Row), s.runstate = .running →
    rowAt s 0 = some (.row r0) → r0.kinds = [x.char] → rowAt s 1 = some (.row r1) →
    y ∈ [x.char, .allocate, .pointerWrite] → r1.kinds = [y] → r1.count y ≠ r0.count x.char →
    step s = .next (faultedAt s 2 (s.pc.toNat + 1) 11)

/-! ## Operate chains -/

/-- 43_operate.md R210, R211: the last row's positions take the sum of all row values of the pre-run
state, modulo the last row's width; nothing else changes but `pc`. -/
def Obligations.AddResult : Prop :=
  Encoded .add 0x05 '+' false ∧
  ∀ (head : Marked) (rest : List Marked) (s : State), rest ≠ [] →
    ∃ t, exec (.add head rest) s = .next t ∧
      value t (rest.getLastD head) =
        (value s head + (rest.map (value s)).sum) % 2 ^ markedBits (rest.getLastD head) ∧
      RegFrame s t (1 + rest.length) [rest.getLastD head] ∧ t = { s with x := t.x }

/-- 43_operate.md R210, R212: the head row's value less all the others, in the integers, modulo the last
row's width. -/
def Obligations.SubResult : Prop :=
  Encoded .sub 0x06 '-' false ∧
  ∀ (head : Marked) (rest : List Marked) (s : State), rest ≠ [] →
    ∃ t, exec (.sub head rest) s = .next t ∧
      (value t (rest.getLastD head) : Int) =
        ((value s head : Int) - ((rest.map (value s)).sum : Nat)) %
          (2 ^ markedBits (rest.getLastD head) : Int) ∧
      RegFrame s t (1 + rest.length) [rest.getLastD head] ∧ t = { s with x := t.x }

/-- 43_operate.md R210, R213: the product of all row values, modulo the last row's width. -/
def Obligations.MulResult : Prop :=
  Encoded .mul 0x07 '*' false ∧
  ∀ (head : Marked) (rest : List Marked) (s : State), rest ≠ [] →
    ∃ t, exec (.mul head rest) s = .next t ∧
      value t (rest.getLastD head) =
        (value s head * (rest.map (value s)).prod) % 2 ^ markedBits (rest.getLastD head) ∧
      RegFrame s t (1 + rest.length) [rest.getLastD head] ∧ t = { s with x := t.x }

/-- 43_operate.md R210, R214: with no zero divisor, the unsigned quotients taken left to right, modulo
the last row's width; the dividend may be zero. -/
def Obligations.DivResult : Prop :=
  ∀ (head : Marked) (rest : List Marked) (s : State), rest ≠ [] →
    (∀ m ∈ rest, value s m ≠ 0) →
    ∃ t, exec (.div head rest) s = .next t ∧
      value t (rest.getLastD head) =
        (rest.foldl (fun acc m => acc / value s m) (value s head)) %
          2 ^ markedBits (rest.getLastD head) ∧
      RegFrame s t (1 + rest.length) [rest.getLastD head] ∧ t = { s with x := t.x }

/-- 43_operate.md R210, R215: the bitwise and of all row values, modulo the last row's width. -/
def Obligations.AndResult : Prop :=
  Encoded .and 0x09 '&' false ∧
  ∀ (head : Marked) (rest : List Marked) (s : State), rest ≠ [] →
    ∃ t, exec (.and head rest) s = .next t ∧
      value t (rest.getLastD head) =
        (rest.foldl (fun acc m => acc &&& value s m) (value s head)) %
          2 ^ markedBits (rest.getLastD head) ∧
      RegFrame s t (1 + rest.length) [rest.getLastD head] ∧ t = { s with x := t.x }

/-- 43_operate.md R210, R216: the bitwise or of all row values, modulo the last row's width. -/
def Obligations.OrResult : Prop :=
  Encoded .or 0x0A '|' false ∧
  ∀ (head : Marked) (rest : List Marked) (s : State), rest ≠ [] →
    ∃ t, exec (.or head rest) s = .next t ∧
      value t (rest.getLastD head) =
        (rest.foldl (fun acc m => acc ||| value s m) (value s head)) %
          2 ^ markedBits (rest.getLastD head) ∧
      RegFrame s t (1 + rest.length) [rest.getLastD head] ∧ t = { s with x := t.x }

/-- 43_operate.md R210, R217: the bitwise exclusive or of all row values, modulo the last row's
width. -/
def Obligations.XorResult : Prop :=
  Encoded .xor 0x0B '^' false ∧
  ∀ (head : Marked) (rest : List Marked) (s : State), rest ≠ [] →
    ∃ t, exec (.xor head rest) s = .next t ∧
      value t (rest.getLastD head) =
        (rest.foldl (fun acc m => acc ^^^ value s m) (value s head)) %
          2 ^ markedBits (rest.getLastD head) ∧
      RegFrame s t (1 + rest.length) [rest.getLastD head] ∧ t = { s with x := t.x }

/-- 43_operate.md R214: the first row j >= 1 whose value is 0 is MemoryFault(h+j, DivByZero). -/
def Obligations.DivByZeroFaults : Prop :=
  ∀ (head : Marked) (before after : List Marked) (m : Marked) (s : State),
    (∀ d ∈ before, value s d ≠ 0) → value s m = 0 →
    exec (.div head (before ++ m :: after)) s =
      .next (faultedAt s 3 (s.pc.toNat + 1 + before.length) 17)

/-- 43_operate.md R218: an operate head that no following row continues is
UnderflowOnEmptyChain(h, EmptyChain). -/
def Obligations.EmptyChainFaults : Prop :=
  ∀ (s : State) (o : Operate) (r0 : Row), s.runstate = .running → rowAt s 0 = some (.row r0) →
    r0.kinds = [o.char] → endsChain s o 1 = true →
    step s = .next (faultedAt s 4 s.pc.toNat 18)

/-- 43_operate.md R218: a row after the head that holds O, but not c times, is
LinkageFault(q, ChainCount), when every row between continues the chain. -/
def Obligations.ChainCountFaults : Prop :=
  ∀ (s : State) (o : Operate) (r0 r : Row) (q : Nat), s.runstate = .running →
    rowAt s 0 = some (.row r0) → r0.kinds = [o.char] →
    (∀ k, k < q → continuesChain s o (r0.count o.char) (1 + k) = true) →
    rowAt s (1 + q) = some (.row r) → r.count o.char ≠ 0 → r.count o.char ≠ r0.count o.char →
    step s = .next (faultedAt s 2 (s.pc.toNat + 1 + q) 12)

/-- 43_operate.md R218: a row after the head that holds O c times and also another kind is
LinkageFault(q, ChainMixed), when every row between continues the chain. -/
def Obligations.ChainMixedFaults : Prop :=
  ∀ (s : State) (o : Operate) (r0 r : Row) (q : Nat), s.runstate = .running →
    rowAt s 0 = some (.row r0) → r0.kinds = [o.char] →
    (∀ k, k < q → continuesChain s o (r0.count o.char) (1 + k) = true) →
    rowAt s (1 + q) = some (.row r) → r.count o.char = r0.count o.char → 2 ≤ r.kinds.length →
    step s = .next (faultedAt s 2 (s.pc.toNat + 1 + q) 13)

/-- 40_run_resolver.md R127: a look-ahead row that does not decode raises its DecodeFault at its own
index, even when the row would only have ended the run. -/
def Obligations.LookAheadDecodeFaults : Prop :=
  ∀ (s : State) (r0 : Row) (w : RowWord) (e : FaultReason) (q : Nat), s.runstate = .running →
    rowAt s 0 = some (.row r0) → s.image[s.pc.toNat + 1 + q]? = some w → decodeRow w = .error e →
    ((∃ x : Source, r0.kinds = [x.char]) ∧ q = 0 ∨
      ∃ o : Operate, r0.kinds = [o.char] ∧
        ∀ k, k < q → continuesChain s o (r0.count o.char) (1 + k) = true) →
    step s = .next (faultedAt s 1 (s.pc.toNat + 1 + q) (reasonCode e).toNat)

/-! ## Reverse-linked sinks -/

/-- 44_reverse_linked.md R240, 20_memory.md R54: with capacity for every allocation, sink position j
takes the memory length before allocation j as its base, and the memory grows by the sizes, in words
of value 0 (the spec's decision, log entry 13). -/
def Obligations.AllocateResult : Prop :=
  ∀ (x : Source) (src : Marked) (q : PosMask) (s : State), s.mem.wf = true →
    src.count = popcount q → readable x src s = true → allocFit s.mem.len (inputsOf x src s) = true →
    ∃ t, exec (.allocate x src q) s = .next t ∧
      elements t ⟨.multi, q⟩ = (List.range (popcount q)).map
        (fun j => s.mem.len + ((inputsOf x src s).take j).sum) ∧
      t.mem.words = s.mem.words ++ List.replicate (inputsOf x src s).sum 0#16 ∧
      (∀ m ∈ cutRows x src, ZeroedBut t m ⟨.multi, q⟩) ∧
      RegFrame s t 2 (cutRows x src ++ [⟨.multi, q⟩]) ∧
      t = { s with x := t.x, mem := t.mem }

/-- 44_reverse_linked.md R240: an allocation that would pass MEM_CAP, or meets a full memory, is
MemoryFault(h+1, AllocCapacity), and commits nothing. -/
def Obligations.AllocateBeyondCapacityFaults : Prop :=
  ∀ (x : Source) (src : Marked) (q : PosMask) (s : State), readable x src s = true →
    allocFit s.mem.len (inputsOf x src s) = false →
    exec (.allocate x src q) s = .next (faultedAt s 3 (s.pc.toNat + 1) 16)

/-- 44_reverse_linked.md R241, 20_memory.md R53: with every address below MemLen, the inputs are stored
in ascending position order at the addresses the sink registers held before the run; every other
word keeps its value and no register is written but a Cut source's and `pc`. -/
def Obligations.PointerWriteResult : Prop :=
  ∀ (x : Source) (src : Marked) (q : PosMask) (s : State), s.mem.wf = true →
    src.count = popcount q → readable x src s = true →
    (∀ a ∈ elements s ⟨.multi, q⟩, a < s.mem.len) →
    ∃ t, exec (.pointerWrite x src q) s = .next t ∧
      t.mem.words = ((elements s ⟨.multi, q⟩).zip (inputsOf x src s)).foldl
        (fun ws av => ws.set av.1 (BitVec.ofNat 16 av.2)) s.mem.words ∧
      (∀ a, a ∉ elements s ⟨.multi, q⟩ → t.mem.read a = s.mem.read a) ∧
      (∀ m ∈ cutRows x src, ZeroedBut t m ⟨.multi, 0⟩) ∧
      RegFrame s t 2 (cutRows x src) ∧
      t = { s with x := t.x, mem := t.mem }

/-- 44_reverse_linked.md R241: an address not below MemLen is MemoryFault(h+1, WriteOutOfBounds), and
commits nothing. -/
def Obligations.PointerWriteOutOfBoundsFaults : Prop :=
  ∀ (x : Source) (src : Marked) (q : PosMask) (s : State) (a : Nat), src.count = popcount q →
    readable x src s = true → a ∈ elements s ⟨.multi, q⟩ → s.mem.len ≤ a →
    exec (.pointerWrite x src q) s = .next (faultedAt s 3 (s.pc.toNat + 1) 15)

/-- 44_reverse_linked.md R242: a head row whose kinds are exactly Allocate or exactly PointerWrite is
LinkageFault(h, HeadSink); one that holds either of them and another kind is
LinkageFault(h, HeadMixed). -/
def Obligations.HeadSinkFaults : Prop :=
  (∀ (s : State) (r0 : Row), s.runstate = .running → rowAt s 0 = some (.row r0) →
    (r0.kinds = [.allocate] ∨ r0.kinds = [.pointerWrite]) →
    step s = .next (faultedAt s 2 s.pc.toNat 7)) ∧
  (∀ (s : State) (r0 : Row), s.runstate = .running → rowAt s 0 = some (.row r0) →
    (Character.allocate ∈ r0.kinds ∨ Character.pointerWrite ∈ r0.kinds) → 2 ≤ r0.kinds.length →
    step s = .next (faultedAt s 2 s.pc.toNat 6))

/-- 40_run_resolver.md R118: a head row of two or more kinds that are not all local is
LinkageFault(h, HeadMixed). -/
def Obligations.HeadMixedFaults : Prop :=
  ∀ (s : State) (r0 : Row), s.runstate = .running → rowAt s 0 = some (.row r0) →
    2 ≤ r0.kinds.length → r0.kinds.all Character.isLocal = false →
    step s = .next (faultedAt s 2 s.pc.toNat 6)

/-- LEB's round trip (95_test_vectors.md E6): the word stored through register `a` by a PointerWrite is
what a PointerRead through `a` gives in the next run. -/
def Obligations.StoreThenLoadReturnsValue : Prop :=
  ∀ (s t u : State) (v a d : Pos), s.mem.wf = true → a ≠ 14 →
    (s.reg a).toNat < s.mem.len →
    exec (.pointerWrite .copy ⟨.multi, 1#16 <<< v.val⟩ (1#16 <<< a.val)) s = .next t →
    exec (.pointerRead (1#16 <<< a.val) (1#16 <<< d.val)) t = .next u →
    u.reg d = s.reg v ∧ u.runstate = s.runstate

/-! ## The whole machine -/

/-- Every step from a state that meets the invariant gives a state that meets it (10_state.md R30, R31,
R42). The canonical form of the memory is the model's choice, log entry 6. -/
def Obligations.StepKeepsInvariant : Prop :=
  ∀ s t : State, s.inv = true → step s = .next t → t.inv = true

/-- The reset state meets the invariant, and so does every launch state (70_reset_and_hazards.md R290,
R294). -/
def Obligations.LaunchMeetsInvariant : Prop :=
  State.reset.inv = true ∧ ∀ s : State, Launched s → s.inv = true

/-- 10_state.md R46, 70_reset_and_hazards.md R290: the reset values, from any state. The 0 of the registers
other than `pc` is the spec's decision D26, log entry 12. -/
def Obligations.ResetValues : Prop :=
  (∀ r : Reg, State.reset.reg r = 0#16) ∧
  (∀ s : State, (∀ r : Reg, s.doReset.reg r = 0#16) ∧ s.doReset.runstate = .running ∧
    s.doReset.mem.len = 0 ∧ s.doReset.mem.words = [] ∧ s.doReset.fault = ⟨0, 0, 0⟩ ∧
    s.doReset.stdinPos = 0 ∧ s.doReset.stdout = [])

/-- No step writes the image or the host's stream, shrinks the memory, takes back a stdout byte or
unreads a stdin byte (20_memory.md R55, R61, R67). That the image, the stream and the draw counter are
fields of the state is the model's choice, log entries 1, 3 and 5. -/
def Obligations.StepOnlyExtends : Prop :=
  ∀ s t : State, step s = .next t →
    t.image = s.image ∧ t.stdin = s.stdin ∧ t.stdinClosed = s.stdinClosed ∧
    s.mem.len ≤ t.mem.len ∧ s.stdout <+: t.stdout ∧ s.stdinPos ≤ t.stdinPos ∧
    s.drawPos ≤ t.drawPos

/-- 60_exceptions.md R265: a step that faults leaves exactly the pre-run state but for RUNSTATE and the
fault record. -/
def Obligations.FaultsArePrecise : Prop :=
  ∀ s t : State, s.runstate = .running → step s = .next t → t.runstate = .faulted →
    t = { s with runstate := .faulted, fault := t.fault }

/-- Every step answers a next state: no step of the engine stops otherwise (40_run_resolver.md R129,
60_exceptions.md R268). -/
def Obligations.StepAnswersNext : Prop :=
  ∀ s : State, ∃ t, step s = .next t

/-- 70_reset_and_hazards.md R298: a run of the engine ends only at an end marker at `pc`, and that step
changes nothing but RUNSTATE, so what is observed of the ended run stood before it. -/
def Obligations.RunEndsOnlyAtEndMarker : Prop :=
  ∀ s t : State, Ends s t →
    s.image[s.pc.toNat]? = some endWord ∧ t = { s with runstate := .halted } ∧
    observe t = observe s

/-- 10_state.md R25: in a valid image no run consumes the last row, so sequential advance never passes
the end of the image or wraps. -/
def Obligations.SequentialAdvanceStaysInImage : Prop :=
  ∀ (s : State) (i : Instr), validImage s.image = true →
    decodeRun (s.image.drop s.pc.toNat) = .ok i → i ≠ .endMark →
    s.pc.toNat + i.rows < s.image.length ∧ s.image.length ≤ 65536

/-! ## Operations -/

/-- 20_memory.md R52, R53, R54: on canonical memories, the cells are the spec's sequence of words: a
read gives the word at an index, a write replaces one word, an allocation appends words of value 0. -/
def Obligations.MemoryIsTheWordSequence : Prop :=
  ∀ m : Memory, m.wf = true →
    m.words.length = m.len ∧
    (∀ a, m.read a = m.words[a]?) ∧
    (∀ a v, a < m.len → (m.write a v).words = m.words.set a v) ∧
    (∀ z, m.len + z ≤ 65536 → (m.alloc z).words = m.words ++ List.replicate z 0#16)

/-- 40_run_resolver.md R112, R114: in a single-register row the value is `PEXT` of the register, and the
net effect of a write-back is `x[r] <- (x[r] AND NOT m) OR PDEP(V, m)`. -/
def Obligations.SingleRowExtractsAndDeposits : Prop :=
  ∀ (s : State) (r : Reg) (m : PosMask) (v : Nat),
    value s ⟨.single r, m⟩ = pext (s.reg r) m ∧
    applyWrites s.x (writeBack ⟨.single r, m⟩ v) =
      s.x.set r ((s.reg r &&& ~~~m) ||| pdep v m)

/-- 70_reset_and_hazards.md R292, 30_encoding.md R81: bytes are an image exactly when their number is a
multiple of 17, row q then being bytes 17q to 17q+16; and a launch takes exactly the valid images. -/
def Obligations.LoaderTakesValidImages : Prop :=
  (∀ ws : List RowWord, imageOfBytes (ws.flatMap RowWord.bytes) = some ws) ∧
  (∀ bs : List Byte, bs.length % 17 ≠ 0 → imageOfBytes bs = none) ∧
  (∀ (img : List RowWord) (inp : List Byte) (c : Bool), (launch img inp c).isSome = true ↔
    1 ≤ img.length ∧ img.length ≤ 65536 ∧ img.getLast? = some endWord)

end
end

