-- ==== Sys2Proof/Laws/Notation.lean ====
section
/-! SUPPORT. The small lemmas of the notation helpers of Decode.lean: position lists, masks,
concatenation and its inverse, truncation. -/

namespace Sys2Proof

@[simp] theorem tabulate_getElem {α : Type} (f : Pos → α) (i : Pos) : (tabulate f)[i] = f i := by
  fin_cases i <;> rfl

theorem vector16_ext {α : Type} {v w : Vector α 16} (h : ∀ i : Pos, v[i] = w[i]) : v = w :=
  Vector.ext fun i hi => h ⟨i, hi⟩

@[simp] theorem tabulate_self {α : Type} (v : Vector α 16) : tabulate (fun i => v[i]) = v :=
  vector16_ext fun i => tabulate_getElem _ i

@[simp] theorem mem_allPos (p : Pos) : p ∈ allPos := by fin_cases p <;> decide

theorem allPos_sorted : allPos.Pairwise (· < ·) := by decide

@[simp] theorem mem_positions {m : PosMask} {p : Pos} :
    p ∈ positions m ↔ m.getLsbD p.val = true := by
  simp [positions]

theorem positions_sorted (m : PosMask) : (positions m).Pairwise (· < ·) :=
  allPos_sorted.sublist List.filter_sublist

theorem positions_nodup (m : PosMask) : (positions m).Nodup :=
  (positions_sorted m).imp fun h => ne_of_lt h

@[simp] theorem length_positions (m : PosMask) : (positions m).length = popcount m := rfl

@[simp] theorem positions_zero : positions 0#16 = [] := by decide

theorem positions_eq_nil {m : PosMask} : positions m = [] ↔ m = 0#16 := by
  constructor
  · intro h
    apply BitVec.eq_of_getLsbD_eq
    intro i hi
    have : (⟨i, hi⟩ : Pos) ∉ positions m := by simp [h]
    simpa using this
  · rintro rfl; exact positions_zero

theorem popcount_pos {m : PosMask} (h : m ≠ 0#16) : 0 < popcount m :=
  List.length_pos_iff.mpr fun he => h (positions_eq_nil.mp he)

/-- The bits of a mask given by a predicate. -/
theorem getLsbD_maskWhere (f : Pos → Bool) (p : Pos) : (maskWhere f).getLsbD p.val = f p := by
  have key : ∀ (l : List Pos), (l.foldr (fun q m => if f q then m ||| (1#16 <<< q.val) else m)
      0#16).getLsbD p.val = (decide (p ∈ l) && f p) := by
    intro l
    induction l with
    | nil => simp
    | cons q l ih =>
      rw [List.foldr_cons]
      split
      · next hq =>
        rw [BitVec.getLsbD_or, ih]
        by_cases hpq : p = q
        · subst hpq; simp [hq]
        · have hv : p.val ≠ q.val := fun h => hpq (Fin.ext h)
          simp [hpq]
          intro h1 h2; omega
      · next hq =>
        rw [ih]
        by_cases hpq : p = q
        · subst hpq; simp [hq]
        · simp [hpq]
  simpa [maskWhere] using key allPos

@[simp] theorem getElem_maskWhere (f : Pos → Bool) (p : Pos) : (maskWhere f)[p.val] = f p := by
  rw [← getLsbD_maskWhere f p, BitVec.getLsbD_eq_getElem]

theorem positions_maskWhere (f : Pos → Bool) : positions (maskWhere f) = allPos.filter f := by
  unfold positions
  congr 1
  funext p
  exact getLsbD_maskWhere f p

theorem maskWhere_getLsbD (m : PosMask) : maskWhere (fun p => m.getLsbD p.val) = m := by
  apply BitVec.eq_of_getLsbD_eq
  intro i hi
  exact getLsbD_maskWhere (fun p => m.getLsbD p.val) ⟨i, hi⟩

/-! ## Concatenation and split -/

theorem cat_lt {w : Nat} : ∀ {es : List Nat}, (∀ e ∈ es, e < 2 ^ w) →
    cat w es < 2 ^ (es.length * w)
  | [], _ => by simp [cat]
  | e :: es, h => by
    have he : e < 2 ^ w := h e (by simp)
    have ih := cat_lt (w := w) (es := es) fun x hx => h x (by simp [hx])
    have hpow : 2 ^ ((es.length + 1) * w) = 2 ^ w * 2 ^ (es.length * w) := by
      rw [← pow_add]; ring_nf
    simp only [cat, List.length_cons, hpow]
    have : 2 ^ w * (cat w es + 1) ≤ 2 ^ w * 2 ^ (es.length * w) := Nat.mul_le_mul_left _ ih
    rw [Nat.mul_add, Nat.mul_one] at this
    omega

@[simp] theorem length_split (w : Nat) : ∀ (v k : Nat), (split w v k).length = k
  | _, 0 => rfl
  | v, k + 1 => by simp [split, length_split w (v / 2 ^ w) k]

theorem split_lt (w : Nat) : ∀ (v k : Nat), ∀ e ∈ split w v k, e < 2 ^ w
  | _, 0 => by simp [split]
  | v, k + 1 => by
    intro e he
    simp only [split, List.mem_cons] at he
    rcases he with rfl | he
    · exact Nat.mod_lt _ (by positivity)
    · exact split_lt w _ k e he

/-- Concatenating the split of a value gives its low bits back (R8). -/
theorem cat_split (w : Nat) : ∀ (k v : Nat), cat w (split w v k) = v % 2 ^ (k * w)
  | 0, v => by simp [split, cat, Nat.mod_one]
  | k + 1, v => by
    have hpow : 2 ^ ((k + 1) * w) = 2 ^ w * 2 ^ (k * w) := by rw [← pow_add]; ring_nf
    simp only [split, cat, cat_split w k, hpow]
    rw [Nat.mod_mul]

/-- Splitting a concatenation gives its elements back (R8). -/
theorem split_cat (w : Nat) : ∀ (es : List Nat), (∀ e ∈ es, e < 2 ^ w) →
    split w (cat w es) es.length = es
  | [], _ => rfl
  | e :: es, h => by
    have he : e < 2 ^ w := h e (by simp)
    have hp : 0 < 2 ^ w := by positivity
    simp only [cat, List.length_cons, split, List.cons.injEq]
    refine ⟨by rw [Nat.add_mul_mod_self_left]; exact Nat.mod_eq_of_lt he, ?_⟩
    rw [Nat.add_mul_div_left _ _ hp, Nat.div_eq_of_lt he, Nat.zero_add]
    exact split_cat w es fun x hx => h x (by simp [hx])

theorem trunc_natCast (n v : Nat) : trunc n (v : Int) = v % 2 ^ n := by
  simp only [trunc]
  exact_mod_cast congrArg Int.toNat (Int.natCast_mod v (2 ^ n)).symm

theorem trunc_lt (n : Nat) (v : Int) : trunc n v < 2 ^ n := by
  have hp : (0 : Int) < 2 ^ n := by positivity
  have h1 := Int.emod_nonneg v hp.ne'
  have h2 := Int.emod_lt_of_pos v hp
  have : ((v % 2 ^ n).toNat : Int) < ((2 ^ n : Nat) : Int) := by
    rw [Int.toNat_of_nonneg h1]; exact_mod_cast h2
  exact_mod_cast this

theorem bitOf_le_one (v i : Nat) : bitOf v i ≤ 1 := by unfold bitOf; omega

theorem bitOf_eq_testBit (v i : Nat) : bitOf v i = (v.testBit i).toNat := by
  rw [bitOf, Nat.testBit_eq_decide_div_mod_eq]
  have : v / 2 ^ i % 2 < 2 := Nat.mod_lt _ (by omega)
  by_cases h : v / 2 ^ i % 2 = 1
  · simp [h]
  · have : v / 2 ^ i % 2 = 0 := by omega
    simp [this]

end Sys2Proof
end

