-- ==== Sys2Proof/Laws/Decoder.lean ====
section
/-! SUPPORT. The decoder and the resolver: codes, rows and their words, the signals of a row that holds
one character, and what one look-ahead row does. -/

namespace Sys2Proof

/-! ## Codes (30_encoding.md R83, R85) -/

@[simp] theorem characterOfCode_code (k : Character) : characterOfCode k.code = some k := by
  cases k <;> decide

theorem characterOfCode_isNone : ∀ b : Byte, (characterOfCode b).isNone = decide (0x12 ≤ b.toNat) := by
  decide

/-- A byte with a character is that character's code. -/
theorem code_of_characterOfCode : ∀ (b : Byte) (k : Character), characterOfCode b = some k → k.code = b := by
  decide

theorem code_eq_zero_iff (k : Character) : k.code = 0x00 ↔ k = .noop := by cases k <;> decide

/-! ## Selectors (30_encoding.md R82, R86) -/

@[simp] theorem modeOfSel_sel (m : Mode) : modeOfSel m.sel = m := by
  cases m with
  | multi => rfl
  | single r => fin_cases r <;> rfl

theorem sel_ne_end (m : Mode) : m.sel ≠ 0xFF := by
  cases m with
  | multi => decide
  | single r => fin_cases r <;> decide

@[simp] theorem reservedSel_sel (m : Mode) : reservedSel m.sel = false := by
  cases m with
  | multi => decide
  | single r => fin_cases r <;> decide

/-! ## Row words -/

theorem slotsOf_word (r : Row) : slotsOf r.word = r.ch := by
  apply vector16_ext
  intro p
  simp only [slotsOf, Row.word, tabulate_getElem, characterOfCode_code, Option.getD_some]

theorem firstReserved_word (r : Row) : firstReserved r.word = none := by
  simp [firstReserved, Row.word, -Fin.getElem_fin, List.find?_eq_none]

/-- The row decoder on a row's word (30_encoding.md R88). -/
theorem decodeRow_word (r : Row) (h : r.mode = .multi ∨ noMultiOnly r.ch = true) :
    decodeRow r.word = .ok (.row r) := by
  have hsel : r.word.sel = r.mode.sel := rfl
  have hmulti : (r.mode != .multi && allPos.any (fun p => r.ch[p].multiOnly)) = false := by
    rcases h with h | h
    · simp [h]
    · rw [Bool.and_eq_false_iff]
      refine .inr (List.any_eq_false.mpr fun p hp => ?_)
      simpa using List.all_eq_true.mp h p hp
  unfold decodeRow
  rw [hsel, if_neg (sel_ne_end r.mode), reservedSel_sel, firstReserved_word, slotsOf_word,
    modeOfSel_sel, hmulti]
  rfl

@[simp] theorem decodeRow_endWord : decodeRow endWord = .ok .endMarker := by decide

/-- What a successful row decoding says of the word (30_encoding.md R88). -/
theorem decodeRow_row {w : RowWord} {r : Row} (h : decodeRow w = .ok (.row r)) :
    w.sel ≠ 0xFF ∧ reservedSel w.sel = false ∧ firstReserved w = none ∧
      r = ⟨modeOfSel w.sel, slotsOf w⟩ ∧ (r.mode = .multi ∨ noMultiOnly r.ch = true) := by
  unfold decodeRow at h
  split at h
  · split at h <;> simp at h
  · next h1 =>
    split at h
    · simp at h
    · next h2 =>
      split at h
      · simp at h
      · next h3 =>
        split at h
        · simp at h
        · next h4 =>
          simp only [Except.ok.injEq, Decoded.row.injEq] at h
          subst h
          refine ⟨h1, by simpa using h2, by simpa using h3, rfl, ?_⟩
          by_cases hm : modeOfSel w.sel = .multi
          · exact .inl hm
          · refine .inr ?_
            simp only [bne_iff_ne, Bool.and_eq_true, List.any_eq_true, not_and, not_exists] at h4
            simp only [noMultiOnly, List.all_eq_true, Bool.not_eq_true']
            intro p hp
            simpa using h4 hm p hp

/-- The instruction of a row word that decodes to a row. -/
theorem decode_of_row {w : RowWord} {r : Row} (h : decodeRow w = .ok (.row r)) :
    decode w = .ok r.instr := by
  simp [decode, h]

theorem decode_of_endMarker {w : RowWord} (h : decodeRow w = .ok .endMarker) :
    decode w = .ok .endMark := by
  simp [decode, h]

/-! ## Signals (30_encoding.md R91) -/

theorem mem_kinds {r : Row} {k : Character} :
    k ∈ r.kinds ↔ k ≠ .noop ∧ ∃ p : Pos, r.ch[p] = k := by
  have hall : k ∈ allCharacters := by cases k <;> decide
  simp [Row.kinds, hall, -Fin.getElem_fin]

theorem mem_maskOf {r : Row} {k : Character} {p : Pos} :
    p ∈ positions (r.maskOf k) ↔ r.ch[p] = k := by
  rw [mem_positions, Row.maskOf, getLsbD_maskWhere]
  simp

theorem count_eq_zero_iff {r : Row} {k : Character} :
    r.count k = 0 ↔ ∀ p : Pos, r.ch[p] ≠ k := by
  rw [Row.count, ← length_positions, List.length_eq_zero_iff, List.eq_nil_iff_forall_not_mem]
  exact forall_congr' fun p => not_congr mem_maskOf

@[simp] theorem uniformRow_getElem (k : Character) (m : Marked) (p : Pos) :
    (uniformRow k m).ch[p] = if m.mask.getLsbD p.val then k else .noop := by
  simp [uniformRow, -Fin.getElem_fin]

@[simp] theorem uniformRow_mode (k : Character) (m : Marked) : (uniformRow k m).mode = m.mode := rfl

/-- The mask of a character in the row that holds it at the marked positions. -/
theorem maskOf_uniformRow {k : Character} (hk : k ≠ .noop) (m : Marked) :
    (uniformRow k m).maskOf k = m.mask := by
  rw [Row.maskOf, ← maskWhere_getLsbD m.mask]
  congr 1
  funext p
  rw [uniformRow_getElem]
  by_cases h : m.mask.getLsbD p.val
  · simp only [h, if_true, beq_self_eq_true]
  · simp only [h, Bool.false_eq_true, if_false, beq_eq_false_iff_ne]
    exact hk.symm

/-- A character that the row does not hold has the empty mask. -/
theorem maskOf_uniformRow_ne {k j : Character} (hj : j ≠ .noop) (hkj : k ≠ j) (m : Marked) :
    (uniformRow k m).maskOf j = 0#16 := by
  apply positions_eq_nil.mp
  rw [List.eq_nil_iff_forall_not_mem]
  intro p hp
  rw [mem_maskOf, uniformRow_getElem] at hp
  split at hp
  · exact hkj hp
  · exact hj hp.symm

theorem marked_uniformRow {k : Character} (hk : k ≠ .noop) (m : Marked) :
    (uniformRow k m).marked k = m := by
  simp only [Row.marked, maskOf_uniformRow hk, uniformRow_mode]

/-- The kinds of the row that holds `k` at the marked positions. -/
theorem kinds_uniformRow {k : Character} (hk : k ≠ .noop) {m : Marked} (hm : m.mask ≠ 0#16) :
    (uniformRow k m).kinds = [k] := by
  obtain ⟨p, hp⟩ := List.exists_mem_of_ne_nil _ (fun he => hm (positions_eq_nil.mp he))
  have hiff : ∀ j : Character, (j != .noop && allPos.any fun q => (uniformRow k m).ch[q] == j) =
      (j == k) := by
    intro j
    rw [Bool.eq_iff_iff]
    simp only [bne_iff_ne, Bool.and_eq_true, List.any_eq_true, beq_iff_eq, mem_allPos, true_and,
      uniformRow_getElem]
    constructor
    · rintro ⟨hj, q, hq⟩
      split at hq
      · exact hq.symm
      · exact absurd hq.symm hj
    · rintro rfl
      exact ⟨hk, p, by simp [mem_positions.mp hp, -BitVec.getLsbD_eq_getElem]⟩
  simp only [Row.kinds, hiff]
  cases k <;> decide

theorem kinds_uniformRow_zero (k : Character) (m : Mode) : (uniformRow k ⟨m, 0#16⟩).kinds = [] := by
  rw [List.eq_nil_iff_forall_not_mem]
  intro j hj
  obtain ⟨hj, p, hp⟩ := mem_kinds.mp hj
  rw [uniformRow_getElem] at hp
  simp only [BitVec.getLsbD_zero, Bool.false_eq_true, if_false] at hp
  exact hj hp.symm

/-- A row whose only kind is `k` is the row that holds `k` at its marked positions. -/
theorem uniformRow_of_kinds {r : Row} {k : Character} (h : r.kinds = [k]) :
    uniformRow k (r.marked k) = r := by
  have hch : (uniformRow k (r.marked k)).ch = r.ch := by
    apply vector16_ext
    intro p
    rw [uniformRow_getElem]
    simp only [Row.marked, Row.maskOf, getLsbD_maskWhere, beq_iff_eq]
    split
    · next hp => exact hp.symm
    · next hp =>
      by_contra hne
      have : r.ch[p] ∈ r.kinds := mem_kinds.mpr ⟨fun he => hne he.symm, p, rfl⟩
      rw [h, List.mem_singleton] at this
      exact hp this
  cases r
  simp only [Row.marked] at hch ⊢
  simp [uniformRow] at hch ⊢
  exact hch

/-! ## Look-ahead rows -/

/-- A row that holds `o` at the marked positions and Noop elsewhere continues a chain of as many
occurrences (40_run_resolver.md R122). -/
theorem chainRow_uniformRow (o : Operate) {m : Marked} (hm : m.mask ≠ 0#16) {c : Nat}
    (hc : m.count = c) : chainRow o c (uniformRow o.char m) = .ok (some m) := by
  have ho : o.char ≠ .noop := by cases o <;> decide
  have hcount : (uniformRow o.char m).count o.char = c := by
    rw [Row.count, maskOf_uniformRow ho]; exact hc
  have hpos : 0 < c := hc ▸ popcount_pos hm
  have hne : c ≠ 0 := by omega
  simp [chainRow, hcount, hne, kinds_uniformRow ho hm, marked_uniformRow ho]

theorem noMultiOnly_uniformRow {k : Character} (hk : k.multiOnly = false) (m : Marked) :
    noMultiOnly (uniformRow k m).ch = true := by
  simp only [noMultiOnly, List.all_eq_true, Bool.not_eq_true']
  intro p _
  rw [uniformRow_getElem]
  split
  · exact hk
  · rfl

/-- The row decoder on the word of a row that holds one character. -/
theorem decodeRow_markedWord {k : Character} {m : Marked} (h : k.multiOnly = false ∨ m.mode = .multi) :
    decodeRow (markedWord k m) = .ok (.row (uniformRow k m)) := by
  apply decodeRow_word
  rcases h with h | h
  · exact .inr (noMultiOnly_uniformRow h m)
  · exact .inl h

end Sys2Proof
end

