-- ==== Sys2Proof/Laws/Registers.lean ====
section
/-! SUPPORT. Register write requests (40_run_resolver.md R113, R124): what one does to a bit, what a
list of them leaves, and what the marked positions of a row hold after elements were written to
them. -/

namespace Sys2Proof.Machine

/-- The element at position `p` of a register file (40_run_resolver.md R110). -/
def elemOf (x : Vector Word 16) (m : Mode) (p : Pos) : Nat :=
  match m with
  | .multi => x[p].toNat
  | .single r => bitOf x[r].toNat p.val

theorem elem_eq_elemOf (s : State) (m : Mode) (p : Pos) : elem s m p = elemOf s.x m p := by
  cases m <;> rfl

theorem elemOf_lt (x : Vector Word 16) (m : Mode) (p : Pos) : elemOf x m p < 2 ^ m.width := by
  cases m with
  | multi => exact x[p].isLt
  | single r => exact Nat.lt_succ_of_le (bitOf_le_one _ _)

theorem elem_lt (s : State) (m : Mode) (p : Pos) : elem s m p < 2 ^ m.width :=
  elem_eq_elemOf s m p ▸ elemOf_lt _ _ _

@[simp] theorem length_elements (s : State) (m : Marked) : (elements s m).length = m.count := by
  simp [elements, Marked.count]

theorem elements_lt {s : State} {m : Marked} : ∀ e ∈ elements s m, e < 2 ^ m.mode.width := by
  intro e he
  simp only [elements, List.mem_map] at he
  obtain ⟨p, _, rfl⟩ := he
  exact elem_lt s m.mode p

/-- A run value fits its width (40_run_resolver.md R112). -/
theorem value_lt (s : State) (m : Marked) : value s m < 2 ^ markedBits m := by
  have h := cat_lt (elements_lt (s := s) (m := m))
  simpa [value, markedBits] using h

/-- One request, bit by bit. -/
theorem getLsbD_applyWrite (x : Vector Word 16) (w : RegWrite) (r : Reg) (b : Nat) :
    ((applyWrite x w)[r]).getLsbD b =
      if w.reg = r ∧ w.mask.getLsbD b = true then w.value.getLsbD b else (x[r]).getLsbD b := by
  unfold applyWrite
  by_cases hr : w.reg = r
  · subst hr
    simp only [Fin.getElem_fin, Vector.getElem_set_self, true_and]
    by_cases hb : b < 16
    · rw [BitVec.getLsbD_or, BitVec.getLsbD_and, BitVec.getLsbD_and, BitVec.getLsbD_not]
      cases w.mask.getLsbD b <;> simp [hb]
    · have hm : w.mask.getLsbD b = false := BitVec.getLsbD_of_ge _ _ (by omega)
      rw [BitVec.getLsbD_of_ge _ _ (by omega)]
      simp only [hm, Bool.false_eq_true, if_false]
      rw [BitVec.getLsbD_of_ge _ _ (by omega)]
  · have hv : w.reg.val ≠ r.val := fun h => hr (Fin.ext h)
    simp only [Fin.getElem_fin, Vector.getElem_set_ne _ _ hv, hr, false_and, if_false]

/-- Requests that do not reach a bit leave it. -/
theorem getLsbD_applyWrites_of_miss : ∀ (ws : List RegWrite) (x : Vector Word 16) (r : Reg) (b : Nat),
    (∀ w ∈ ws, w.reg = r → w.mask.getLsbD b = false) →
    ((applyWrites x ws)[r]).getLsbD b = (x[r]).getLsbD b
  | [], _, _, _, _ => rfl
  | w :: ws, x, r, b, h => by
    rw [applyWrites, getLsbD_applyWrites_of_miss ws _ r b fun w' hw' => h w' (by simp [hw']),
      getLsbD_applyWrite, if_neg]
    rintro ⟨h1, h2⟩
    rw [h w (by simp) h1] at h2
    exact absurd h2 (by simp)

/-- Of the requests that reach a bit, the last one gives it (40_run_resolver.md R124). -/
theorem getLsbD_applyWrites_of_last (pre : List RegWrite) (w : RegWrite) (post : List RegWrite)
    (x : Vector Word 16) (b : Nat) (hb : w.mask.getLsbD b = true)
    (h : ∀ w' ∈ post, w'.reg = w.reg → w'.mask.getLsbD b = false) :
    ((applyWrites x (pre ++ w :: post))[w.reg]).getLsbD b = w.value.getLsbD b := by
  induction pre generalizing x with
  | nil =>
    rw [List.nil_append, applyWrites, getLsbD_applyWrites_of_miss post _ _ b h, getLsbD_applyWrite]
    simp [hb]
  | cons u pre ih => rw [List.cons_append, applyWrites]; exact ih _

theorem applyWrites_append (ws vs : List RegWrite) (x : Vector Word 16) :
    applyWrites x (ws ++ vs) = applyWrites (applyWrites x ws) vs := by
  induction ws generalizing x with
  | nil => rfl
  | cons w ws ih => exact ih _

@[simp] theorem elemWrite_multi (p : Pos) (e : Nat) :
    elemWrite .multi p e = ⟨p, 0xFFFF#16, BitVec.ofNat 16 e⟩ := rfl

@[simp] theorem elemWrite_single (r : Reg) (p : Pos) (e : Nat) :
    elemWrite (.single r) p e = ⟨r, 1#16 <<< p.val, BitVec.ofNat 16 (e % 2) <<< p.val⟩ := rfl

theorem getLsbD_allOnes16 (b : Nat) : (0xFFFF#16).getLsbD b = decide (b < 16) := by
  have h : (0xFFFF#16) = BitVec.allOnes 16 := by decide
  rw [h, BitVec.getLsbD_allOnes]

theorem getLsbD_one_shiftLeft (p : Pos) (b : Nat) :
    (1#16 <<< p.val).getLsbD b = decide (b = p.val) := by
  rw [BitVec.getLsbD_shiftLeft, BitVec.getLsbD_one]
  have := p.isLt
  by_cases h : b = p.val
  · subst h; simp
  · simp only [h, decide_false]
    by_cases h1 : b < p.val
    · simp [h1]
    · have : b - p.val ≠ 0 := by omega
      simp [this]

/-- The element just written. -/
theorem elemOf_applyWrite_self (x : Vector Word 16) (m : Mode) (p : Pos) (e : Nat) :
    elemOf (applyWrite x (elemWrite m p e)) m p = e % 2 ^ m.width := by
  cases m with
  | multi =>
    have h : (applyWrite x (elemWrite .multi p e))[p] = BitVec.ofNat 16 e := by
      apply BitVec.eq_of_getLsbD_eq
      intro b hb
      rw [getLsbD_applyWrite, if_pos]
      · rfl
      · exact ⟨rfl, by simp [getLsbD_allOnes16, hb]⟩
    simp only [elemOf, h, Mode.width, BitVec.toNat_ofNat]
  | single r =>
    have hb : ((applyWrite x (elemWrite (.single r) p e))[r]).getLsbD p.val = (e % 2 == 1) := by
      rw [getLsbD_applyWrite, if_pos]
      · simp only [elemWrite_single, BitVec.getLsbD_shiftLeft, p.isLt, lt_self_iff_false,
          decide_true, decide_false, Bool.not_false, Bool.true_and, Nat.sub_self, BitVec.getLsbD_ofNat]
        simp only [Nat.testBit_zero, Nat.mod_mod]
        rcases Nat.mod_two_eq_zero_or_one e with h | h <;> simp [h]
      · refine ⟨rfl, ?_⟩
        simp only [elemWrite_single]
        rw [getLsbD_one_shiftLeft]; simp
    simp only [elemOf, bitOf_eq_testBit, Mode.width, pow_one]
    rw [BitVec.testBit_toNat, hb]
    rcases Nat.mod_two_eq_zero_or_one e with h | h <;> simp [h]

/-- Bits a write to one position does not reach. -/
theorem elemOf_applyWrite_ne (x : Vector Word 16) (m : Mode) {p q : Pos} (h : p ≠ q) (e : Nat) :
    elemOf (applyWrite x (elemWrite m q e)) m p = elemOf x m p := by
  cases m with
  | multi =>
    have : (applyWrite x (elemWrite .multi q e))[p] = x[p] := by
      apply BitVec.eq_of_getLsbD_eq
      intro b _
      rw [getLsbD_applyWrite, if_neg]
      rintro ⟨h1, _⟩
      exact h h1.symm
    simp only [elemOf, this]
  | single r =>
    have hb : ((applyWrite x (elemWrite (.single r) q e))[r]).getLsbD p.val =
        (x[r]).getLsbD p.val := by
      rw [getLsbD_applyWrite, if_neg]
      rintro ⟨_, h2⟩
      simp only [elemWrite_single] at h2
      rw [getLsbD_one_shiftLeft] at h2
      exact h (Fin.ext (of_decide_eq_true h2))
    simp only [elemOf, bitOf_eq_testBit]
    rw [BitVec.testBit_toNat, BitVec.testBit_toNat, hb]

theorem elemOf_applyWrites_of_not_mem (m : Mode) (p : Pos) : ∀ (ps : List Pos) (es : List Nat)
    (x : Vector Word 16), p ∉ ps →
    elemOf (applyWrites x (List.zipWith (elemWrite m) ps es)) m p = elemOf x m p
  | [], _, _, _ => by simp [applyWrites]
  | _ :: _, [], _, _ => by simp [applyWrites]
  | q :: ps, e :: es, x, h => by
    rw [List.zipWith_cons_cons, applyWrites, elemOf_applyWrites_of_not_mem m p ps es _
      fun hp => h (by simp [hp])]
    exact elemOf_applyWrite_ne x m (fun hq => h (by simp [hq])) e

theorem map_elemOf_applyWrites (m : Mode) : ∀ (ps : List Pos) (es : List Nat) (x : Vector Word 16),
    ps.Nodup → ps.length = es.length →
    ps.map (elemOf (applyWrites x (List.zipWith (elemWrite m) ps es)) m) =
      es.map (fun e => e % 2 ^ m.width)
  | [], [], _, _, _ => rfl
  | [], _ :: _, _, _, h => by simp at h
  | _ :: _, [], _, _, h => by simp at h
  | p :: ps, e :: es, x, hn, hl => by
    obtain ⟨hp, hn'⟩ := List.nodup_cons.mp hn
    simp only [List.zipWith_cons_cons, applyWrites, List.map_cons, List.cons.injEq]
    refine ⟨?_, map_elemOf_applyWrites m ps es _ hn' (by simpa using hl)⟩
    rw [elemOf_applyWrites_of_not_mem m p ps es _ hp, elemOf_applyWrite_self]

/-- Writing one element to each marked position makes the marked positions hold them, cut to their
width (40_run_resolver.md R113, R114). -/
theorem elements_after_writesTo {t : State} {m : Marked} {es : List Nat} {x : Vector Word 16}
    (ht : t.x = applyWrites x (writesTo m es)) (hl : es.length = m.count) :
    elements t m = es.map (fun e => e % 2 ^ m.mode.width) := by
  have hfun : elem t m.mode = elemOf t.x m.mode := funext fun p => elem_eq_elemOf t m.mode p
  rw [elements, hfun, ht]
  exact map_elemOf_applyWrites m.mode _ _ _ (positions_nodup m.mask) (by simp [hl, Marked.count])

/-- Writing a value back and extracting it gives its low bits (40_run_resolver.md R112, R114). -/
theorem value_after_writeBack {t : State} {m : Marked} {v : Nat} {x : Vector Word 16}
    (ht : t.x = applyWrites x (writeBack m v)) : value t m = v % 2 ^ markedBits m := by
  have h := elements_after_writesTo ht (by simp)
  rw [value, h]
  have hid : (split m.mode.width (v % 2 ^ markedBits m) m.count).map (fun e => e % 2 ^ m.mode.width) =
      split m.mode.width (v % 2 ^ markedBits m) m.count := by
    conv_rhs => rw [← List.map_id (split m.mode.width (v % 2 ^ markedBits m) m.count)]
    exact List.map_congr_left fun e he => Nat.mod_eq_of_lt (split_lt _ _ _ e he)
  rw [hid, cat_split, ← markedBits, Nat.mod_mod]

/-- A request of `writesTo` is an element write to a marked position. -/
theorem mem_writesTo {m : Marked} {es : List Nat} {w : RegWrite} (h : w ∈ writesTo m es) :
    ∃ p e, p ∈ positions m.mask ∧ w = elemWrite m.mode p e := by
  unfold writesTo at h
  generalize positions m.mask = ps at h ⊢
  induction ps generalizing es with
  | nil => simp at h
  | cons p ps ih =>
    cases es with
    | nil => simp at h
    | cons e es =>
      simp only [List.zipWith_cons_cons, List.mem_cons] at h
      rcases h with rfl | h
      · exact ⟨p, e, by simp, rfl⟩
      · obtain ⟨p', e', hp, rfl⟩ := ih h
        exact ⟨p', e', by simp [hp], rfl⟩

/-- Every marked position gets a request when there are enough elements. -/
theorem exists_mem_writesTo {m : Marked} {es : List Nat} (hl : m.count ≤ es.length) {p : Pos}
    (hp : p ∈ positions m.mask) : ∃ e, elemWrite m.mode p e ∈ writesTo m es := by
  have key : ∀ (ps : List Pos) (es : List Nat), ps.length ≤ es.length → p ∈ ps →
      ∃ e, elemWrite m.mode p e ∈ List.zipWith (elemWrite m.mode) ps es := by
    intro ps
    induction ps with
    | nil => simp
    | cons q ps ih =>
      intro es hl hp
      cases es with
      | nil => simp at hl
      | cons e es =>
        rcases List.mem_cons.mp hp with rfl | hp
        · exact ⟨e, by simp⟩
        · obtain ⟨e', he'⟩ := ih es (by simpa using hl) hp
          exact ⟨e', by simp [he']⟩
  exact key _ _ hl hp

end Sys2Proof.Machine
end

