-- ==== Sys2Proof/Laws/State.lean ====
section
/-! SUPPORT. One lemma per field of State per update, so that no proof unfolds a record update. -/

namespace Sys2Proof.Machine

/-! ## Taking a fault (60_exceptions.md R265, R266) -/

@[simp] theorem takeFault_x (s : State) (r : Raise) : (s.takeFault r).x = s.x := rfl
@[simp] theorem takeFault_mem (s : State) (r : Raise) : (s.takeFault r).mem = s.mem := rfl
@[simp] theorem takeFault_runstate (s : State) (r : Raise) : (s.takeFault r).runstate = .faulted := rfl
@[simp] theorem takeFault_fault (s : State) (r : Raise) : (s.takeFault r).fault = faultRecord s.pc r := rfl
@[simp] theorem takeFault_stdinPos (s : State) (r : Raise) : (s.takeFault r).stdinPos = s.stdinPos := rfl
@[simp] theorem takeFault_stdout (s : State) (r : Raise) : (s.takeFault r).stdout = s.stdout := rfl
@[simp] theorem takeFault_image (s : State) (r : Raise) : (s.takeFault r).image = s.image := rfl
@[simp] theorem takeFault_stdin (s : State) (r : Raise) : (s.takeFault r).stdin = s.stdin := rfl
@[simp] theorem takeFault_stdinClosed (s : State) (r : Raise) : (s.takeFault r).stdinClosed = s.stdinClosed := rfl
@[simp] theorem takeFault_drawPos (s : State) (r : Raise) : (s.takeFault r).drawPos = s.drawPos := rfl

/-! ## Commit (40_run_resolver.md R124) -/

@[simp] theorem commit_x (s : State) (e : Effects) : (commit s e).x = commitRegs s e := rfl
@[simp] theorem commit_mem (s : State) (e : Effects) : (commit s e).mem = writeAll (allocAll s.mem e.alloc) e.memw := rfl
@[simp] theorem commit_runstate (s : State) (e : Effects) : (commit s e).runstate = s.runstate := rfl
@[simp] theorem commit_fault (s : State) (e : Effects) : (commit s e).fault = s.fault := rfl
@[simp] theorem commit_stdinPos (s : State) (e : Effects) : (commit s e).stdinPos = s.stdinPos + e.nin := rfl
@[simp] theorem commit_stdout (s : State) (e : Effects) : (commit s e).stdout = s.stdout ++ e.out := rfl
@[simp] theorem commit_image (s : State) (e : Effects) : (commit s e).image = s.image := rfl
@[simp] theorem commit_stdin (s : State) (e : Effects) : (commit s e).stdin = s.stdin := rfl
@[simp] theorem commit_stdinClosed (s : State) (e : Effects) : (commit s e).stdinClosed = s.stdinClosed := rfl
@[simp] theorem commit_drawPos (s : State) (e : Effects) : (commit s e).drawPos = s.drawPos + e.ndraw := rfl

/-! ## Reset from any state (70_reset_and_hazards.md R290) -/

@[simp] theorem doReset_x (s : State) : (s.doReset).x = State.reset.x := rfl
@[simp] theorem doReset_mem (s : State) : (s.doReset).mem = State.reset.mem := rfl
@[simp] theorem doReset_runstate (s : State) : (s.doReset).runstate = .running := rfl
@[simp] theorem doReset_fault (s : State) : (s.doReset).fault = ⟨0, 0, 0⟩ := rfl
@[simp] theorem doReset_stdinPos (s : State) : (s.doReset).stdinPos = 0 := rfl
@[simp] theorem doReset_stdout (s : State) : (s.doReset).stdout = [] := rfl
@[simp] theorem doReset_image (s : State) : (s.doReset).image = s.image := rfl
@[simp] theorem doReset_stdin (s : State) : (s.doReset).stdin = s.stdin := rfl
@[simp] theorem doReset_stdinClosed (s : State) : (s.doReset).stdinClosed = s.stdinClosed := rfl
@[simp] theorem doReset_drawPos (s : State) : (s.doReset).drawPos = s.drawPos := rfl

/-! ## The host closes stdin (70_reset_and_hazards.md R299) -/

@[simp] theorem closeStdin_x (s : State) : (s.closeStdin).x = s.x := rfl
@[simp] theorem closeStdin_mem (s : State) : (s.closeStdin).mem = s.mem := rfl
@[simp] theorem closeStdin_runstate (s : State) : (s.closeStdin).runstate = s.runstate := rfl
@[simp] theorem closeStdin_fault (s : State) : (s.closeStdin).fault = s.fault := rfl
@[simp] theorem closeStdin_stdinPos (s : State) : (s.closeStdin).stdinPos = s.stdinPos := rfl
@[simp] theorem closeStdin_stdout (s : State) : (s.closeStdin).stdout = s.stdout := rfl
@[simp] theorem closeStdin_image (s : State) : (s.closeStdin).image = s.image := rfl
@[simp] theorem closeStdin_stdin (s : State) : (s.closeStdin).stdin = s.stdin := rfl
@[simp] theorem closeStdin_stdinClosed (s : State) : (s.closeStdin).stdinClosed = true := rfl
@[simp] theorem closeStdin_drawPos (s : State) : (s.closeStdin).drawPos = s.drawPos := rfl

/-! ## Placing a table word -/

@[simp] theorem withFetchWord_x (s : State) (nbits w : Nat) : (s.withFetchWord nbits w).x = s.x := rfl
@[simp] theorem withFetchWord_mem (s : State) (nbits w : Nat) : (s.withFetchWord nbits w).mem = s.mem := rfl
@[simp] theorem withFetchWord_runstate (s : State) (nbits w : Nat) : (s.withFetchWord nbits w).runstate = s.runstate := rfl
@[simp] theorem withFetchWord_fault (s : State) (nbits w : Nat) : (s.withFetchWord nbits w).fault = s.fault := rfl
@[simp] theorem withFetchWord_stdinPos (s : State) (nbits w : Nat) : (s.withFetchWord nbits w).stdinPos = s.stdinPos := rfl
@[simp] theorem withFetchWord_stdout (s : State) (nbits w : Nat) : (s.withFetchWord nbits w).stdout = s.stdout := rfl
@[simp] theorem withFetchWord_image (s : State) (nbits w : Nat) : (s.withFetchWord nbits w).image = placeRows s.image (tableRows nbits w ++ [endWord]) s.pc.toNat := rfl
@[simp] theorem withFetchWord_stdin (s : State) (nbits w : Nat) : (s.withFetchWord nbits w).stdin = s.stdin := rfl
@[simp] theorem withFetchWord_stdinClosed (s : State) (nbits w : Nat) : (s.withFetchWord nbits w).stdinClosed = s.stdinClosed := rfl
@[simp] theorem withFetchWord_drawPos (s : State) (nbits w : Nat) : (s.withFetchWord nbits w).drawPos = s.drawPos := rfl

/-! ## Supplying stdin bytes (70_reset_and_hazards.md R299) -/

theorem supplyStdin_open {s : State} (h : s.stdinClosed = false) (bs : List Byte) :
    s.supplyStdin bs = { s with stdin := s.stdin ++ bs } := by simp [State.supplyStdin, h]

theorem supplyStdin_closed {s : State} (h : s.stdinClosed = true) (bs : List Byte) :
    s.supplyStdin bs = s := by simp [State.supplyStdin, h]

/-! ## Settling a run (40_run_resolver.md R123) -/

@[simp] theorem settle_ok (s : State) (e : Effects) : settle s (.ok e) = commit s e := rfl
@[simp] theorem settle_error (s : State) (r : Raise) : settle s (.error r) = s.takeFault r := rfl

@[simp] theorem toHost_next (s t : State) : toHost s (.next t) = .next t := rfl
@[simp] theorem toHost_wait (s : State) : toHost s .wait = .next s := rfl
@[simp] theorem toHost_stuck (s : State) : toHost s .stuck = .next s := rfl

/-! ## The status output (10_state.md R29, R45) -/

/-- The three run states have three values (10_state.md R29). -/
theorem runStateCode_inj {a b : RunState} : runStateCode a = runStateCode b ↔ a = b := by
  cases a <;> cases b <;> decide

@[simp] theorem State.status_takeFault (s : State) (r : Raise) :
    (s.takeFault r).status = (2, faultRecord s.pc r) := rfl

@[simp] theorem State.status_halted (s : State) :
    ({ s with runstate := .halted } : State).status = (1, s.fault) := rfl

@[simp] theorem State.status_doReset (s : State) : s.doReset.status = (0, ⟨0, 0, 0⟩) := rfl

end Sys2Proof.Machine
end

