-- ==== Sys2Proof/Laws/Frames.lean ====
section
/-! SUPPORT. The register frame of a committed run (40_run_resolver.md R124, R125): what a run leaves of
the registers, given the marked positions its requests go to. -/

namespace Sys2Proof.Machine

/-- The bit mask of an element write reaches only what its marked positions reach. -/
theorem reaches_of_elemWrite {m : Marked} {p : Pos} (hp : p ∈ positions m.mask) (e : Nat) {b : Nat}
    (hb : (elemWrite m.mode p e).mask.getLsbD b = true) :
    reaches m (elemWrite m.mode p e).reg b = true := by
  obtain ⟨mode, mask⟩ := m
  rw [mem_positions] at hp
  cases mode with
  | multi => exact hp
  | single n =>
    simp only [elemWrite_single] at hb ⊢
    rw [getLsbD_one_shiftLeft, decide_eq_true_eq] at hb
    subst hb
    simp only [reaches, beq_self_eq_true, Bool.true_and]
    exact hp

/-- An element write names a register its marked positions touch. -/
theorem touches_of_elemWrite {m : Marked} {p : Pos} (hp : p ∈ positions m.mask) (e : Nat) :
    touches m (elemWrite m.mode p e).reg = true := by
  obtain ⟨mode, mask⟩ := m
  cases mode with
  | multi => exact mem_positions.mp hp
  | single n =>
    have hne : mask ≠ 0#16 := by
      rintro rfl
      simp at hp
    simp [touches, hne]

/-- A touched register is named by the element write to some marked position. -/
theorem exists_position_of_touches {m : Marked} {r : Reg} (h : touches m r = true) :
    ∃ p ∈ positions m.mask, ∀ e, (elemWrite m.mode p e).reg = r := by
  obtain ⟨mode, mask⟩ := m
  cases mode with
  | multi => exact ⟨r, mem_positions.mpr h, fun _ => rfl⟩
  | single n =>
    simp only [touches, Bool.and_eq_true, beq_iff_eq, bne_iff_ne] at h
    obtain ⟨rfl, hm⟩ := h
    obtain ⟨p, hp⟩ := List.exists_mem_of_ne_nil _ (fun he => hm (positions_eq_nil.mp he))
    exact ⟨p, hp, fun _ => rfl⟩

/-- All requests are element writes to marked positions of the rows `ms`. -/
def WritesWithin (ms : List Marked) (ws : List RegWrite) : Prop :=
  ∀ w ∈ ws, ∃ m ∈ ms, ∃ p e, p ∈ positions m.mask ∧ w = elemWrite m.mode p e

theorem writesWithin_nil (ms : List Marked) : WritesWithin ms [] := fun _ h => by simp at h

theorem writesWithin_append {ms ns : List Marked} {ws vs : List RegWrite}
    (h1 : WritesWithin ms ws) (h2 : WritesWithin ns vs) : WritesWithin (ms ++ ns) (ws ++ vs) := by
  intro w hw
  rcases List.mem_append.mp hw with h | h
  · obtain ⟨m, hm, rest⟩ := h1 w h
    exact ⟨m, List.mem_append_left _ hm, rest⟩
  · obtain ⟨m, hm, rest⟩ := h2 w h
    exact ⟨m, List.mem_append_right _ hm, rest⟩

theorem writesWithin_writesTo (m : Marked) (es : List Nat) : WritesWithin [m] (writesTo m es) := by
  intro w hw
  obtain ⟨p, e, hp, rfl⟩ := mem_writesTo hw
  exact ⟨m, by simp, p, e, hp, rfl⟩

theorem writesPc_iff (e : Effects) :
    e.writesPc = true ↔ ∃ w ∈ e.regw, w.reg = Config.pcIndex := by
  simp [Effects.writesPc]

/-- The frame of a committed run: its requests go to the marked positions of `ms`, and every row of `ms`
that touches `pc` has a request that names it. -/
theorem regFrame_commit {s : State} {e : Effects} {ms : List Marked}
    (hw : WritesWithin ms e.regw)
    (hpc : ∀ m ∈ ms, touches m Config.pcIndex = true → e.writesPc = true) :
    RegFrame s (commit s e) e.n ms := by
  have htouch : e.writesPc = true → ∃ m ∈ ms, touches m Config.pcIndex = true := by
    intro h
    obtain ⟨w, hwm, hreg⟩ := (writesPc_iff e).mp h
    obtain ⟨m, hm, p, v, hp, rfl⟩ := hw w hwm
    exact ⟨m, hm, hreg ▸ touches_of_elemWrite hp v⟩
  have hmiss : ∀ (r : Reg) (b : Nat), (∀ m ∈ ms, reaches m r b = false) →
      ((applyWrites s.x e.regw)[r]).getLsbD b = (s.x[r]).getLsbD b := by
    intro r b hr
    apply getLsbD_applyWrites_of_miss
    intro w hwm hreg
    obtain ⟨m, hm, p, v, hp, rfl⟩ := hw w hwm
    by_contra hb
    have := reaches_of_elemWrite hp v (b := b) (by simpa using hb)
    rw [hreg, hr m hm] at this
    exact absurd this (by simp)
  constructor
  · intro r b hr hpcr
    simp only [State.reg, commit_x, commitRegs]
    split
    · exact hmiss r b hr
    · next hnp =>
      have hne : r ≠ Config.pcIndex := by
        intro h
        obtain ⟨m, hm, ht⟩ := hpcr h
        exact hnp (hpc m hm ht)
      have hv : Config.pcIndex.val ≠ r.val := fun h => hne (Fin.ext h.symm)
      simp only [Fin.getElem_fin, Vector.getElem_set_ne _ _ hv]
      exact hmiss r b hr
  · intro hno
    have hnp : ¬ e.writesPc = true := by
      intro h
      obtain ⟨m, hm, ht⟩ := htouch h
      rw [hno m hm] at ht
      exact absurd ht (by simp)
    simp [State.pc, State.reg, commitRegs, hnp]

/-- The registers a run's requests leave, where the pc update does not stand in the way: a register file
read through marked positions that do not touch `pc` unless a request does. -/
theorem commitRegs_of_writesPc {s : State} {e : Effects} (h : e.writesPc = true) :
    commitRegs s e = applyWrites s.x e.regw := by
  simp [commitRegs, h]

/-- The elements of marked positions after a commit are those the requests leave, when the positions
touch `pc` only if a request names it. -/
theorem elements_commit {s : State} {e : Effects} {m : Marked}
    (hpc : touches m Config.pcIndex = true → e.writesPc = true) :
    elements (commit s e) m = (positions m.mask).map (elemOf (applyWrites s.x e.regw) m.mode) := by
  unfold elements
  apply List.map_congr_left
  intro p hp
  rw [elem_eq_elemOf, commit_x]
  unfold commitRegs
  split
  · rfl
  · next hnp =>
    have hne : ∀ v, (elemWrite m.mode p v).reg ≠ Config.pcIndex := by
      intro v h
      exact hnp (hpc (h ▸ touches_of_elemWrite hp v))
    obtain ⟨mode, mask⟩ := m
    cases mode with
    | multi =>
      have hv : Config.pcIndex.val ≠ p.val := fun h => hne 0 (Fin.ext h.symm)
      simp only [elemOf, Fin.getElem_fin, Vector.getElem_set_ne _ _ hv]
    | single n =>
      have hv : Config.pcIndex.val ≠ n.val := fun h => hne 0 (Fin.ext h.symm)
      simp only [elemOf, Fin.getElem_fin, Vector.getElem_set_ne _ _ hv]

/-- A list of requests that writes every marked position of `m` last leaves the elements it wrote. -/
theorem elements_commit_writesTo {s : State} {e : Effects} {m : Marked} {pre : List RegWrite}
    {es : List Nat} (he : e.regw = pre ++ writesTo m es) (hl : es.length = m.count) :
    elements (commit s e) m = es.map (fun v => v % 2 ^ m.mode.width) := by
  rw [elements_commit]
  · rw [he, applyWrites_append]
    exact map_elemOf_applyWrites m.mode _ _ _ (positions_nodup m.mask) (by simp [hl, Marked.count])
  · intro ht
    obtain ⟨p, hp, hreg⟩ := exists_position_of_touches ht
    obtain ⟨v, hv⟩ := exists_mem_writesTo (es := es) (by omega) hp
    exact (writesPc_iff e).mpr ⟨_, by rw [he]; exact List.mem_append_right _ hv, hreg v⟩

end Sys2Proof.Machine
end

