-- ==== Sys2Proof/Laws/Meanings.lean ====
section
/-! SUPPORT. One lemma per shared operation of the meanings, which says what it answers: the inputs of a
source, the allocations and stores of a sink, the combination of a chain, the effects of a local
row. -/

namespace Sys2Proof.Machine

/-! ## Local rows (41_write_class.md R156) -/

/-- The number of positions of a list that hold `k`. -/
def holding (r : Row) (k : Character) (ps : List Pos) : Nat := (ps.filter (fun p => r.ch[p] == k)).length

theorem holding_cons (r : Row) (k : Character) (p : Pos) (ps : List Pos) :
    holding r k (p :: ps) = (if r.ch[p] = k then 1 else 0) + holding r k ps := by
  unfold holding
  rw [List.filter_cons]
  by_cases h : r.ch[p] = k
  · rw [if_pos (by simpa using h), if_pos h, List.length_cons, Nat.add_comm]
  · rw [if_neg (by simpa using h), if_neg h, Nat.zero_add]

theorem holding_allPos (r : Row) (k : Character) : holding r k allPos = r.count k := by
  unfold holding Row.count
  rw [← length_positions, Row.maskOf, positions_maskWhere]

theorem localEffects_cons (s : State) (r : Row) (nin nd : Nat) (p : Pos) (ps : List Pos) :
    localEffects s r nin nd (p :: ps) =
      match r.ch[p] with
      | .zero => (localEffects s r nin nd ps).withWrite (zeroWrite r.mode p)
      | .one => (localEffects s r nin nd ps).withWrite (oneWrite r.mode p)
      | .random =>
        (localEffects s r nin (nd + 1) ps).withWrite (randomWrite r.mode p (s.drawPos + nd))
      | .readStdin =>
        (localEffects s r (nin + 1) nd ps).withWrite (stdinWrite r.mode p (s.stdinLeft.getD nin 0))
      | .writeStdout => (localEffects s r nin nd ps).withOut (stdoutByte s p)
      | _ => localEffects s r nin nd ps := by
  rw [localEffects]
  cases r.ch[p] <;> rfl

/-- What a local row's effects hold besides register writes and stdout bytes. -/
theorem localEffects_counts (s : State) (r : Row) : ∀ (ps : List Pos) (nin nd : Nat),
    (localEffects s r nin nd ps).nin = nin + holding r .readStdin ps ∧
    (localEffects s r nin nd ps).ndraw = nd + holding r .random ps ∧
    (localEffects s r nin nd ps).n = 1 ∧
    (localEffects s r nin nd ps).alloc = [] ∧ (localEffects s r nin nd ps).memw = []
  | [], nin, nd => by simp [localEffects, holding]
  | p :: ps, nin, nd => by
    have h1 := localEffects_counts s r ps nin nd
    have h2 := localEffects_counts s r ps (nin + 1) nd
    have h3 := localEffects_counts s r ps nin (nd + 1)
    rw [localEffects_cons, holding_cons, holding_cons]
    cases hk : r.ch[p] <;>
      simp only [Effects.withWrite, Effects.withOut, reduceCtorEq, if_true, if_false, h1, h2, h3,
        and_self, and_true] <;> omega

/-- The stdout bytes of a local row (R155): one per WriteStdout position, in order. -/
theorem localEffects_out (s : State) (r : Row) : ∀ (ps : List Pos) (nin nd : Nat),
    (localEffects s r nin nd ps).out =
      (ps.filter (fun p => r.ch[p] == .writeStdout)).map (stdoutByte s)
  | [], _, _ => rfl
  | p :: ps, nin, nd => by
    rw [localEffects_cons, List.filter_cons]
    cases hk : r.ch[p] <;>
      simp [Effects.withWrite, Effects.withOut, localEffects_out s r ps]

/-- The requests of a local row go to the positions of the four characters that write. -/
theorem localEffects_within (s : State) (r : Row) : ∀ (ps : List Pos) (nin nd : Nat),
    WritesWithin [r.marked .zero, r.marked .one, r.marked .random, r.marked .readStdin]
      (localEffects s r nin nd ps).regw
  | [], _, _ => writesWithin_nil _
  | p :: ps, nin, nd => by
    have ih := localEffects_within s r ps
    have key : ∀ (k : Character) (v : Nat) (e : Effects), r.ch[p] = k →
        r.marked k ∈ [r.marked .zero, r.marked .one, r.marked .random, r.marked .readStdin] →
        WritesWithin [r.marked .zero, r.marked .one, r.marked .random, r.marked .readStdin] e.regw →
        WritesWithin [r.marked .zero, r.marked .one, r.marked .random, r.marked .readStdin]
          (e.withWrite (elemWrite r.mode p v)).regw := by
      intro k v e hk hm he w hw
      rcases List.mem_cons.mp hw with rfl | hw
      · refine ⟨r.marked k, hm, p, v, ?_, rfl⟩
        rw [mem_positions]
        simp [Row.marked, Row.maskOf, hk, -Fin.getElem_fin]
      · exact he w hw
    rw [localEffects_cons]
    cases hk : r.ch[p] with
    | zero => exact key .zero _ _ hk (by simp) (ih nin nd)
    | one => exact key .one _ _ hk (by simp) (ih nin nd)
    | random => exact key .random _ _ hk (by simp) (ih nin (nd + 1))
    | readStdin => exact key .readStdin _ _ hk (by simp) (ih (nin + 1) nd)
    | _ => exact ih nin nd

/-- What a local run does: with its bytes at hand it commits its effects, else it changes nothing. -/
theorem runLocal_cases (r : Row) (s : State) :
    (r.count .readStdin ≤ s.stdinLeft.length ∧
      runLocal r s = .next (commit s (localEffects s r 0 0 allPos))) ∨
    (s.stdinLeft.length < r.count .readStdin ∧
      runLocal r s = (if s.stdinClosed then .stuck else .wait)) := by
  unfold runLocal State.stdinReply
  by_cases h : r.count .readStdin ≤ s.stdinLeft.length
  · exact .inl ⟨h, by simp [h]⟩
  · refine .inr ⟨by omega, ?_⟩
    cases hc : s.stdinClosed <;> simp [h]

/-! ## Sources (42_read_linked.md R182, R183) -/

/-- Reading the words at valid addresses. -/
theorem readWords_ok {m : Memory} : ∀ {as : List Nat}, (∀ a ∈ as, a < m.len) →
    readWords m as = .ok (as.map (fun a => (getCell a m.cells).toNat))
  | [], _ => rfl
  | a :: as, h => by
    have ha : a < m.len := h a (by simp)
    rw [readWords]
    simp only [Memory.read, ha, if_true]
    rw [readWords_ok fun b hb => h b (by simp [hb])]
    rfl

/-- Reading words faults at the source row as soon as one address is not below `MemLen`. -/
theorem readWords_error {m : Memory} : ∀ {as : List Nat}, (∃ a ∈ as, m.len ≤ a) →
    readWords m as = .error ⟨0, .readOutOfBounds⟩
  | [], h => by simp at h
  | a :: as, h => by
    by_cases ha : a < m.len
    · have h' : ∃ b ∈ as, m.len ≤ b := by
        obtain ⟨b, hb, hle⟩ := h
        rcases List.mem_cons.mp hb with rfl | hb
        · omega
        · exact ⟨b, hb, hle⟩
      rw [readWords]
      simp only [Memory.read, ha, if_true]
      rw [readWords_error h']
    · rw [readWords]
      simp only [Memory.read, ha, if_false]

/-- The inputs of a source: its elements, or the words they address (R183). -/
theorem sourceValues_ok {x : Source} {src : Marked} {s : State} (h : readable x src s = true) :
    sourceValues x src s = .ok (inputsOf x src s) := by
  cases x with
  | copy => rfl
  | cut => rfl
  | pointerRead =>
    simp only [readable, bne_self_eq_false, Bool.false_or, List.all_eq_true, decide_eq_true_eq] at h
    exact readWords_ok h

/-- A source that is not readable faults at its own row (R182). -/
theorem sourceValues_error {x : Source} {src : Marked} {s : State} (h : readable x src s = false) :
    sourceValues x src s = .error ⟨0, .readOutOfBounds⟩ := by
  cases x with
  | copy => simp [readable] at h
  | cut => simp [readable] at h
  | pointerRead =>
    simp only [readable, bne_self_eq_false, Bool.false_or, List.all_eq_false, decide_eq_true_eq] at h
    obtain ⟨a, ha, hlt⟩ := h
    exact readWords_error ⟨a, ha, by omega⟩

theorem length_inputsOf (x : Source) (src : Marked) (s : State) :
    (inputsOf x src s).length = src.count := by
  cases x <;> simp [inputsOf]

/-- Every input fits a word. -/
theorem inputsOf_lt {x : Source} {src : Marked} {s : State} : ∀ e ∈ inputsOf x src s, e < 2 ^ 16 := by
  have hel : ∀ e ∈ elements s src, e < 2 ^ 16 := by
    intro e he
    have := elements_lt e he
    cases hm : src.mode with
    | multi => rw [hm] at this; exact this
    | single r => rw [hm] at this; simp only [Mode.width] at this; omega
  cases x with
  | copy => exact hel
  | cut => exact hel
  | pointerRead =>
    intro e he
    simp only [inputsOf, List.mem_map] at he
    obtain ⟨a, _, rfl⟩ := he
    exact (getCell a s.mem.cells).isLt

/-- The zeroing requests of a Cut go to its source positions (R181). -/
theorem cutWrites_within (x : Source) (src : Marked) : WritesWithin (cutRows x src) (cutWrites x src) := by
  cases x with
  | copy => exact writesWithin_nil _
  | pointerRead => exact writesWithin_nil _
  | cut =>
    intro w hw
    simp only [cutWrites, List.mem_map] at hw
    obtain ⟨p, hp, rfl⟩ := hw
    exact ⟨src, by simp [cutRows], p, 0, hp, rfl⟩

/-- The effects of a pair of the source's own kind (R183). -/
theorem pairEffects_ok {x : Source} {src snk : Marked} {s : State} (h : readable x src s = true) :
    pairEffects x src snk s =
      .ok { regw := cutWrites x src ++ writesTo snk (inputsOf x src s), n := 2 } := by
  simp [pairEffects, sourceValues_ok h]

/-! ## Sinks (44_reverse_linked.md R240, R241) -/

/-- The bases and sizes of allocations that all fit. -/
theorem allocBases_ok : ∀ {es : List Nat} {len : Nat}, (∀ e ∈ es, e < 2 ^ 16) →
    allocFit len es = true →
    allocBases len es = .ok ((List.range es.length).map (fun j => len + (es.take j).sum), es)
  | [], _, _, _ => rfl
  | z :: zs, len, hlt, h => by
    simp only [allocFit, Bool.and_eq_true, decide_eq_true_eq] at h
    obtain ⟨⟨h1, h2⟩, h3⟩ := h
    have hz : z % 2 ^ 16 = z := Nat.mod_eq_of_lt (hlt z (by simp))
    have hf : Memory.allocFails len z = false := by simp [Memory.allocFails]; omega
    rw [allocBases]
    simp only [hz, hf, Bool.false_eq_true, if_false]
    rw [allocBases_ok (fun e he => hlt e (by simp [he])) h3]
    simp only [List.length_cons, List.range_succ_eq_map, List.map_cons, List.take_zero, List.sum_nil,
      Nat.add_zero, List.map_map]
    congr 3
    apply List.map_congr_left
    intro j _
    simp [Nat.add_assoc]

/-- An allocation that does not fit faults at the sink row. -/
theorem allocBases_error : ∀ {es : List Nat} {len : Nat}, (∀ e ∈ es, e < 2 ^ 16) →
    allocFit len es = false → allocBases len es = .error ⟨1, .allocCapacity⟩
  | [], _, _, h => by simp [allocFit] at h
  | z :: zs, len, hlt, h => by
    have hz : z % 2 ^ 16 = z := Nat.mod_eq_of_lt (hlt z (by simp))
    rw [allocBases]
    simp only [hz]
    by_cases hf : Memory.allocFails len z = true
    · simp [hf]
    · simp only [hf, Bool.false_eq_true, if_false]
      have h3 : allocFit (len + z) zs = false := by
        simp only [Memory.allocFails, Bool.or_eq_true, decide_eq_true_eq, not_or, not_le, not_lt] at hf
        simpa [allocFit, hf.1, hf.2] using h
      rw [allocBases_error (fun e he => hlt e (by simp [he])) h3]

/-- The stores of sink positions whose addresses are all valid. -/
theorem storeWrites_ok {s : State} : ∀ {ps : List Pos} {es : List Nat}, ps.length = es.length →
    (∀ p ∈ ps, (s.reg p).toNat < s.mem.len) →
    storeWrites s ps es =
      .ok (List.zipWith (fun p e => ((s.reg p).toNat, BitVec.ofNat 16 e)) ps es)
  | [], [], _, _ => rfl
  | [], _ :: _, h, _ => by simp at h
  | _ :: _, [], h, _ => by simp at h
  | p :: ps, e :: es, hl, h => by
    have hp : ¬ s.mem.len ≤ (s.reg p).toNat := by have := h p (by simp); omega
    rw [storeWrites]
    simp only [hp, if_false]
    rw [storeWrites_ok (by simpa using hl) fun q hq => h q (by simp [hq])]
    rfl

/-- A store at an address that is not valid faults at the sink row. -/
theorem storeWrites_error {s : State} : ∀ {ps : List Pos} {es : List Nat}, ps.length = es.length →
    (∃ p ∈ ps, s.mem.len ≤ (s.reg p).toNat) →
    storeWrites s ps es = .error ⟨1, .writeOutOfBounds⟩
  | [], _, _, h => by simp at h
  | _ :: _, [], hl, _ => by simp at hl
  | p :: ps, e :: es, hl, h => by
    rw [storeWrites]
    by_cases hp : s.mem.len ≤ (s.reg p).toNat
    · simp [hp]
    · have h' : ∃ q ∈ ps, s.mem.len ≤ (s.reg q).toNat := by
        obtain ⟨q, hq, hle⟩ := h
        rcases List.mem_cons.mp hq with rfl | hq
        · exact absurd hle hp
        · exact ⟨q, hq, hle⟩
      simp only [hp, if_false]
      rw [storeWrites_error (by simpa using hl) h']

/-! ## Chains (43_operate.md R210) -/

/-- The combination of a chain whose operation never faults is a fold over the row values. -/
theorem chainFold_ok {op : Int → Nat → Except FaultReason Int} {f : Int → Nat → Int} :
    ∀ {vs : List Nat} {j : Nat} {acc : Int}, (∀ a, ∀ v ∈ vs, op a v = .ok (f a v)) →
      chainFold op j acc vs = .ok (vs.foldl f acc)
  | [], _, _, _ => rfl
  | v :: vs, j, acc, h => by
    rw [chainFold]
    simp only [h acc v (by simp)]
    exact chainFold_ok fun a u hu => h a u (by simp [hu])

/-- The effects of a chain of at least two rows whose combination is `acc`. -/
theorem chainEffects_ok {op : Int → Nat → Except FaultReason Int} {head : Marked}
    {rest : List Marked} {s : State} {acc : Int} (hne : rest ≠ [])
    (h : chainFold op 1 (value s head) (rest.map (value s)) = .ok acc) :
    chainEffects op head rest s =
      .ok { regw := writeBack (lastRow head rest) (chainResult (lastRow head rest) acc)
            n := 1 + rest.length } := by
  cases rest with
  | nil => exact absurd rfl hne
  | cons m ms =>
    simp only [chainEffects, h]

end Sys2Proof.Machine
end

