-- ==== Sys2Proof/Laws/Memory.lean ====
section
/-! SUPPORT. The data memory: every operation keeps the canonical form, reading after writing, and what
a run's allocations and writes do together (20_memory.md R50 to R55). -/

namespace Sys2Proof.Machine

/-! ## Cells -/

theorem cellsOk_mono {len len' : Nat} (hl : len ≤ len') : ∀ {lo lo' : Nat} {cs : List (Nat × Word)},
    lo' ≤ lo → cellsOk len lo cs = true → cellsOk len' lo' cs = true
  | _, _, [], _, _ => rfl
  | lo, lo', (a, v) :: cs, h, hc => by
    simp only [cellsOk, Bool.and_eq_true, decide_eq_true_eq] at hc ⊢
    obtain ⟨⟨⟨h1, h2⟩, h3⟩, h4⟩ := hc
    exact ⟨⟨⟨by omega, by omega⟩, h3⟩, cellsOk_mono hl le_rfl h4⟩

/-- A cell below every listed address reads as zero. -/
theorem getCell_below {len : Nat} : ∀ {lo a : Nat} {cs : List (Nat × Word)},
    cellsOk len lo cs = true → a < lo → getCell a cs = 0#16
  | _, _, [], _, _ => rfl
  | lo, a, (b, u) :: cs, hc, ha => by
    simp only [cellsOk, Bool.and_eq_true, decide_eq_true_eq] at hc
    obtain ⟨⟨⟨h1, _⟩, _⟩, h4⟩ := hc
    have hne : a ≠ b := by omega
    simp only [getCell, hne, if_false]
    exact getCell_below h4 (by omega)

/-- A cell at or beyond the length of a canonical memory reads as zero. -/
theorem getCell_beyond {len : Nat} : ∀ {lo a : Nat} {cs : List (Nat × Word)},
    cellsOk len lo cs = true → len ≤ a → getCell a cs = 0#16
  | _, _, [], _, _ => rfl
  | lo, a, (b, u) :: cs, hc, ha => by
    simp only [cellsOk, Bool.and_eq_true, decide_eq_true_eq] at hc
    obtain ⟨⟨⟨_, h2⟩, _⟩, h4⟩ := hc
    have hne : a ≠ b := by omega
    simp only [getCell, hne, if_false]
    exact getCell_beyond h4 ha

/-- `putCell` keeps the canonical form. -/
theorem cellsOk_putCell {len a : Nat} {v : Word} (ha : a < len) :
    ∀ {lo : Nat} {cs : List (Nat × Word)}, lo ≤ a → cellsOk len lo cs = true →
      cellsOk len lo (putCell a v cs) = true
  | lo, [], hlo, _ => by
    by_cases hv : v = 0#16 <;> simp [putCell, hv, cellsOk, hlo, ha]
  | lo, (b, u) :: cs, hlo, hc => by
    have hc' := hc
    simp only [cellsOk, Bool.and_eq_true, decide_eq_true_eq] at hc'
    obtain ⟨⟨⟨h1, h2⟩, h3⟩, h4⟩ := hc'
    unfold putCell
    split
    · next hab =>
      split
      · exact hc
      · next hv =>
        simp only [cellsOk, Bool.and_eq_true, decide_eq_true_eq]
        exact ⟨⟨⟨hlo, ha⟩, by simpa using hv⟩, ⟨⟨by omega, h2⟩, h3⟩, h4⟩
    · next hab =>
      split
      · next heq =>
        subst heq
        split
        · exact cellsOk_mono le_rfl (by omega) h4
        · next hv =>
          simp only [cellsOk, Bool.and_eq_true, decide_eq_true_eq]
          exact ⟨⟨⟨hlo, ha⟩, by simpa using hv⟩, h4⟩
      · next hne =>
        simp only [cellsOk, Bool.and_eq_true, decide_eq_true_eq]
        exact ⟨⟨⟨h1, h2⟩, h3⟩, cellsOk_putCell ha (by omega) h4⟩

/-- Reading after `putCell`, on canonical cells: the value written at its address, the old value at
every other. -/
theorem getCell_putCell {len a c : Nat} {v : Word} :
    ∀ {lo : Nat} {cs : List (Nat × Word)}, cellsOk len lo cs = true →
      getCell c (putCell a v cs) = if c = a then v else getCell c cs
  | lo, [], _ => by
    by_cases hv : v = 0#16
    · subst hv; simp [putCell, getCell]
    · simp [putCell, hv, getCell]
  | lo, (b, u) :: cs, hc => by
    have hc' := hc
    simp only [cellsOk, Bool.and_eq_true, decide_eq_true_eq] at hc'
    obtain ⟨_, h4⟩ := hc'
    unfold putCell
    split
    · next hab =>
      split
      · next hv =>
        subst hv
        by_cases hca : c = a
        · subst hca
          have hne : c ≠ b := by omega
          simp only [getCell, hne, if_false, if_true]
          exact getCell_below h4 (by omega)
        · simp [hca]
      · simp [getCell]
    · next hab =>
      split
      · next heq =>
        subst heq
        split
        · next hv =>
          subst hv
          by_cases hca : c = a
          · subst hca
            simp only [if_true]
            exact getCell_below h4 (by omega)
          · simp [hca, getCell]
        · by_cases hca : c = a <;> simp [hca, getCell]
      · next hne =>
        by_cases hcb : c = b
        · subst hcb
          have : c ≠ a := fun h => hne h.symm
          simp [getCell, this]
        · simp only [getCell, hcb, if_false]
          exact getCell_putCell h4

/-! ## Memory -/

theorem Memory.wf_iff {m : Memory} :
    m.wf = true ↔ m.len ≤ Config.memCap ∧ cellsOk m.len 0 m.cells = true := by
  simp [Memory.wf]

/-- The reset memory is canonical. -/
theorem reset_memory_wf : State.reset.mem.wf = true := by decide

/-- A write keeps the canonical form (20_memory.md R53). -/
theorem Memory.write_wf {m : Memory} (h : m.wf = true) (a : Nat) (v : Word) :
    (m.write a v).wf = true := by
  rw [Memory.wf_iff] at h
  unfold Memory.write
  split
  · next ha => exact Memory.wf_iff.mpr ⟨h.1, cellsOk_putCell ha (Nat.zero_le _) h.2⟩
  · exact Memory.wf_iff.mpr h

/-- An allocation keeps the canonical form (20_memory.md R54). -/
theorem Memory.alloc_wf {m : Memory} (h : m.wf = true) (z : Nat) : (m.alloc z).wf = true := by
  rw [Memory.wf_iff] at h
  unfold Memory.alloc
  split
  · next hz => exact Memory.wf_iff.mpr ⟨hz, cellsOk_mono (by simp) le_rfl h.2⟩
  · exact Memory.wf_iff.mpr h

theorem allocAll_wf : ∀ {m : Memory} (zs : List Nat), m.wf = true → (allocAll m zs).wf = true
  | _, [], h => h
  | _, z :: zs, h => allocAll_wf zs (Memory.alloc_wf h z)

theorem writeAll_wf : ∀ {m : Memory} (ws : List (Nat × Word)), m.wf = true →
    (writeAll m ws).wf = true
  | _, [], h => h
  | _, (a, v) :: ws, h => writeAll_wf ws (Memory.write_wf h a v)

/-- A write leaves `MemLen` (20_memory.md R53). -/
@[simp] theorem Memory.write_len (m : Memory) (a : Nat) (v : Word) : (m.write a v).len = m.len := by
  unfold Memory.write; split <;> rfl

@[simp] theorem writeAll_len : ∀ (m : Memory) (ws : List (Nat × Word)), (writeAll m ws).len = m.len
  | _, [] => rfl
  | m, (a, v) :: ws => by rw [writeAll, writeAll_len, Memory.write_len]

theorem Memory.len_le_alloc (m : Memory) (z : Nat) : m.len ≤ (m.alloc z).len := by
  unfold Memory.alloc; split <;> simp

theorem len_le_allocAll : ∀ (m : Memory) (zs : List Nat), m.len ≤ (allocAll m zs).len
  | _, [] => le_rfl
  | m, z :: zs => (Memory.len_le_alloc m z).trans (len_le_allocAll _ zs)

/-- Allocations within the capacity lengthen the memory by their sum and list no cell (20_memory.md
R54). -/
theorem allocAll_eq : ∀ (zs : List Nat) (m : Memory), m.len + zs.sum ≤ Config.memCap →
    allocAll m zs = ⟨m.len + zs.sum, m.cells⟩
  | [], _, _ => rfl
  | z :: zs, m, h => by
    simp only [List.sum_cons] at h
    have hz : m.len + z ≤ Config.memCap := by omega
    simp only [allocAll, Memory.alloc, hz, if_true]
    rw [allocAll_eq zs _ (by simp only; omega)]
    simp [Nat.add_assoc]

/-- A read at an address just written gives the word written; at every other address it gives what it
gave before (20_memory.md R52, R53). -/
theorem Memory.read_write {m : Memory} (h : m.wf = true) {a c : Nat} {v : Word} (ha : a < m.len) :
    (m.write a v).read c = if c = a then some v else m.read c := by
  have hc := (Memory.wf_iff.mp h).2
  simp only [Memory.write, ha, if_true, Memory.read, getCell_putCell hc]
  by_cases hca : c = a
  · subst hca; simp [ha]
  · simp [hca]

/-- A run's memory writes change no address they do not name. -/
theorem read_writeAll_of_not_mem : ∀ {m : Memory} (ws : List (Nat × Word)), m.wf = true →
    ∀ {c : Nat}, (∀ w ∈ ws, w.1 ≠ c) → (writeAll m ws).read c = m.read c
  | _, [], _, _, _ => rfl
  | m, (a, v) :: ws, h, c, hc => by
    rw [writeAll, read_writeAll_of_not_mem ws (Memory.write_wf h a v)
      (fun w hw => hc w (by simp [hw]))]
    by_cases ha : a < m.len
    · rw [Memory.read_write h ha, if_neg (fun e => hc (a, v) (by simp) e.symm)]
    · simp [Memory.write, ha]

@[simp] theorem Memory.length_words (m : Memory) : m.words.length = m.len := by
  simp [Memory.words]

theorem Memory.getElem_words {m : Memory} {a : Nat} (h : a < m.words.length) :
    m.words[a] = getCell a m.cells := by
  simp [Memory.words]

end Sys2Proof.Machine
end

