-- ==== Sys2Proof/Laws/PerInstr.lean ====
section
/-! SUPPORT. The statements made per instruction: an instruction's encoding has as many row words as the
instruction consumes rows (40_run_resolver.md R130). -/

namespace Sys2Proof.Laws.RowCount

/-- The encoding of `i` is as many row words as `i` consumes rows. -/
def Statement (i : Instr) : Prop := (encode i).length = i.rows

theorem single (r : Reg) (ch : Slots) : Statement (.single r ch) := rfl

theorem multi (ch : Slots) : Statement (.multi ch) := rfl

theorem endMark : Statement .endMark := rfl

theorem reservedSelector (sel : Byte) : Statement (.reservedSelector sel) := rfl

theorem noop (m : Mode) : Statement (.noop m) := rfl

theorem copy (src snk : Marked) : Statement (.copy src snk) := rfl

theorem cut (src snk : Marked) : Statement (.cut src snk) := rfl

theorem pointerRead (p q : PosMask) : Statement (.pointerRead p q) := rfl

theorem writeStdout (p : PosMask) : Statement (.writeStdout p) := rfl

theorem add (head : Marked) (rest : List Marked) : Statement (.add head rest) := by
  simp [Statement, encode, Instr.rows, Nat.add_comm]

theorem sub (head : Marked) (rest : List Marked) : Statement (.sub head rest) := by
  simp [Statement, encode, Instr.rows, Nat.add_comm]

theorem mul (head : Marked) (rest : List Marked) : Statement (.mul head rest) := by
  simp [Statement, encode, Instr.rows, Nat.add_comm]

theorem div (head : Marked) (rest : List Marked) : Statement (.div head rest) := by
  simp [Statement, encode, Instr.rows, Nat.add_comm]

theorem and (head : Marked) (rest : List Marked) : Statement (.and head rest) := by
  simp [Statement, encode, Instr.rows, Nat.add_comm]

theorem or (head : Marked) (rest : List Marked) : Statement (.or head rest) := by
  simp [Statement, encode, Instr.rows, Nat.add_comm]

theorem xor (head : Marked) (rest : List Marked) : Statement (.xor head rest) := by
  simp [Statement, encode, Instr.rows, Nat.add_comm]

theorem zero (p : Marked) : Statement (.zero p) := rfl

theorem one (p : Marked) : Statement (.one p) := rfl

theorem random (p : Marked) : Statement (.random p) := rfl

theorem readStdin (p : PosMask) : Statement (.readStdin p) := rfl

theorem allocate (x : Source) (src : Marked) (q : PosMask) : Statement (.allocate x src q) := rfl

theorem pointerWrite (x : Source) (src : Marked) (q : PosMask) : Statement (.pointerWrite x src q) := rfl

theorem reservedCharacter (m : Mode) (i : Pos) (code : Byte) : Statement (.reservedCharacter m i code) := rfl

end Sys2Proof.Laws.RowCount
end

