-- ==== Sys2Proof/Laws/Resolver.lean ====
section
/-! SUPPORT. The classification of head rows and the run resolver: what each check answers
(40_run_resolver.md R118, R121, R122). -/

namespace Sys2Proof

/-! ## Classification (R118) -/

theorem classify_of_nil {r : Row} (h : r.kinds = []) : classify r = .ok .nop := by
  simp only [classify, h]

theorem classify_of_singleton {r : Row} {k : Character} (h : r.kinds = [k]) :
    classify r = classOfKind k := by
  simp only [classify, h]

theorem classOfKind_source (x : Source) : classOfKind x.char = .ok (.source x) := by cases x <;> rfl

theorem classOfKind_chain (o : Operate) : classOfKind o.char = .ok (.chain o) := by cases o <;> rfl

theorem classify_of_mixed {r : Row} (h : 2 ≤ r.kinds.length) :
    classify r = if r.kinds.all Character.isLocal then .ok .loc else .error .headMixed := by
  unfold classify
  split <;> simp_all

/-- A row that holds a kind, all of its kinds local, is a Local row. -/
theorem classify_of_local {r : Row} (hne : r.kinds ≠ []) (h : r.kinds.all Character.isLocal = true) :
    classify r = .ok .loc := by
  unfold classify
  split
  · contradiction
  · next k hk =>
    rw [hk] at h
    cases k <;> first | rfl | simp [Character.isLocal] at h
  · simp_all

/-! ## Sink resolution (R121) -/

theorem sinkOf_char (x : Source) (y : Sink) : sinkOf x (y.char x) = some y := by
  cases x <;> cases y <;> rfl

theorem char_of_sinkOf {x : Source} {k : Character} {y : Sink} (h : sinkOf x k = some y) :
    y.char x = k := by
  cases x <;> cases k <;> simp [sinkOf, Source.char] at h <;> subst h <;> rfl

/-- What the check of a sink row answers: a sink of one kind and the source's count, or its fault at
row 1. -/
theorem checkSink_ok {x : Source} {y : Sink} {k : Nat} {r : Row} (hk : r.kinds = [y.char x])
    (hc : r.count (y.char x) = k) : checkSink x k r = .ok (y, r.marked (y.char x)) := by
  simp only [checkSink, hk, sinkOf_char, hc, if_true]

theorem checkSink_inv {x : Source} {y : Sink} {k : Nat} {r : Row} {m : Marked}
    (h : checkSink x k r = .ok (y, m)) :
    r.kinds = [y.char x] ∧ r.count (y.char x) = k ∧ m = r.marked (y.char x) := by
  unfold checkSink at h
  split at h
  · simp at h
  · next c hc =>
    split at h
    · simp at h
    · next z hz =>
      split at h
      · next hcount =>
        simp only [Except.ok.injEq, Prod.mk.injEq] at h
        obtain ⟨rfl, rfl⟩ := h
        obtain rfl := char_of_sinkOf hz
        exact ⟨hc, hcount, rfl⟩
      · simp at h
  · simp at h

/-! ## Chain resolution (R122) -/

/-- The rows that continue a chain: the character as often as the head holds it, and nothing else. -/
theorem chainRow_continues {o : Operate} {c : Nat} {r : Row} {m : Marked} :
    chainRow o c r = .ok (some m) ↔
      c ≠ 0 ∧ r.count o.char = c ∧ r.kinds = [o.char] ∧ m = r.marked o.char := by
  unfold chainRow
  split_ifs with h0 h1 h2
  · simp only [Except.ok.injEq, reduceCtorEq, false_iff]
    omega
  · simp [h1]
  · simp [h2]
  · simp only [ne_eq, not_not] at h1 h2
    simp only [Except.ok.injEq, Option.some.injEq, h1, h2, true_and]
    exact ⟨fun h => ⟨h1 ▸ h0, h.symm⟩, fun h => h.2.symm⟩

theorem chainRows_cons {o : Operate} {c q : Nat} {w : RowWord} {ws : List RowWord} {r : Row}
    {m : Marked} (hd : decodeRow w = .ok (.row r)) (hc : chainRow o c r = .ok (some m)) :
    chainRows o c q (w :: ws) =
      match chainRows o c (q + 1) ws with
      | .error e => .error e
      | .ok ms => .ok (m :: ms) := by
  cases h : chainRows o c (q + 1) ws <;> simp [chainRows, hd, hc, h]

/-- After `n` rows that continue the chain, the resolver goes on with the row after them. -/
theorem chainRows_skip {o : Operate} {c : Nat} : ∀ (n q : Nat) (ws : List RowWord),
    (∀ k, k < n → ∃ w r m, ws[k]? = some w ∧ decodeRow w = .ok (.row r) ∧
      chainRow o c r = .ok (some m)) →
    ∃ ms, ms.length = n ∧
      chainRows o c q ws =
        match chainRows o c (q + n) (ws.drop n) with
        | .error e => .error e
        | .ok ms' => .ok (ms ++ ms')
  | 0, q, ws, _ => ⟨[], rfl, by simp only [Nat.add_zero, List.drop_zero]; split <;> simp_all⟩
  | n + 1, q, ws, h => by
    obtain ⟨w, r, m, hw, hd, hc⟩ := h 0 (Nat.succ_pos n)
    cases ws with
    | nil => simp at hw
    | cons v vs =>
      simp only [List.length_cons, Nat.zero_lt_succ, List.getElem?_eq_getElem, List.getElem_cons_zero,
        Option.some.injEq] at hw
      subst hw
      obtain ⟨ms, hl, he⟩ := chainRows_skip n (q + 1) vs fun k hk => by
        simpa using h (k + 1) (Nat.succ_lt_succ hk)
      refine ⟨m :: ms, by simp [hl], ?_⟩
      rw [chainRows_cons hd hc, he, List.drop_succ_cons, Nat.add_right_comm q 1 n, Nat.add_assoc q n 1]
      cases chainRows o c (q + (n + 1)) (vs.drop n) <;> rfl

end Sys2Proof
end

