-- ==== Sys2Proof/Laws/Step.lean ====
section
/-! SUPPORT. What a meaning and a step can do, said once: a next state is the state unchanged, a fault
taken, the engine halted, or a run's effects committed. -/

namespace Sys2Proof.Machine

/-- The ways a step goes on from `s` (40_run_resolver.md R129): no change (a terminal state, a wait, or
stuck), a fault taken, the end marker, or a committed run that consumes no more stdin bytes than are
there. -/
def GoesTo (s t : State) : Prop :=
  t = s ∨ (∃ r, t = s.takeFault r) ∨ t = { s with runstate := .halted } ∨
    ∃ e, t = commit s e ∧ e.nin ≤ s.stdinLeft.length

theorem goesTo_settle {s : State} {r : Except Raise Effects}
    (h : ∀ e, r = .ok e → e.nin = 0) : GoesTo s (settle s r) := by
  cases r with
  | error r => exact .inr (.inl ⟨r, rfl⟩)
  | ok e => exact .inr (.inr (.inr ⟨e, rfl, by simp [h e rfl]⟩))

theorem pairEffects_nin {x : Source} {src snk : Marked} {s : State} {e : Effects}
    (h : pairEffects x src snk s = .ok e) : e.nin = 0 := by
  unfold pairEffects at h
  split at h <;> simp at h
  subst h; rfl

theorem allocEffects_nin {x : Source} {src : Marked} {q : PosMask} {s : State} {e : Effects}
    (h : allocEffects x src q s = .ok e) : e.nin = 0 := by
  unfold allocEffects at h
  split at h
  · simp at h
  · split at h <;> simp at h
    subst h; rfl

theorem pointerWriteEffects_nin {x : Source} {src : Marked} {q : PosMask} {s : State} {e : Effects}
    (h : pointerWriteEffects x src q s = .ok e) : e.nin = 0 := by
  unfold pointerWriteEffects at h
  split at h
  · simp at h
  · split at h <;> simp at h
    subst h; rfl

theorem chainEffects_nin {op : Int → Nat → Except FaultReason Int} {head : Marked}
    {rest : List Marked} {s : State} {e : Effects} (h : chainEffects op head rest s = .ok e) :
    e.nin = 0 := by
  unfold chainEffects at h
  split at h
  · simp at h
  · split at h <;> simp at h
    subst h; rfl

theorem goesTo_runLocal {r : Row} {s t : State} (h : toHost s (runLocal r s) = .next t) :
    GoesTo s t := by
  rcases runLocal_cases r s with ⟨hle, hr⟩ | ⟨_, hr⟩
  · rw [hr, toHost_next] at h
    injection h with h
    refine .inr (.inr (.inr ⟨_, h.symm, ?_⟩))
    rw [(localEffects_counts s r allPos 0 0).1, holding_allPos, Nat.zero_add]
    exact hle
  · rw [hr] at h
    split at h <;> simp only [toHost_stuck, toHost_wait] at h <;> injection h with h <;>
      exact .inl h.symm

theorem goesTo_runRow {r : Row} {s t : State} (h : runRow r s = .next t) : GoesTo s t := by
  unfold runRow at h
  split at h
  · injection h with h; exact .inr (.inl ⟨_, h.symm⟩)
  · injection h with h; exact .inr (.inr (.inr ⟨_, h.symm, by simp⟩))
  · exact goesTo_runLocal h
  · next x src y snk _ =>
    cases y with
    | allocate => injection h with h; exact h ▸ goesTo_settle fun _ => allocEffects_nin
    | pointerWrite => injection h with h; exact h ▸ goesTo_settle fun _ => pointerWriteEffects_nin
    | same => cases x <;> (injection h with h; exact h ▸ goesTo_settle fun _ => pairEffects_nin)
  · next o head rest _ =>
    cases o <;> (injection h with h; exact h ▸ goesTo_settle fun _ => chainEffects_nin)

/-- What a meaning can do. -/
theorem exec_goesTo {i : Instr} {s t : State} (h : exec i s = .next t) : GoesTo s t := by
  cases i with
  | single n ch =>
    simp only [exec, execSingle] at h
    split at h
    · injection h with h; exact .inr (.inl ⟨_, h.symm⟩)
    · exact goesTo_runRow h
  | multi ch => exact goesTo_runRow h
  | endMark => injection h with h; exact .inr (.inr (.inl h.symm))
  | reservedSelector sel => injection h with h; exact .inr (.inl ⟨_, h.symm⟩)
  | reservedCharacter m p code => injection h with h; exact .inr (.inl ⟨_, h.symm⟩)
  | noop m => injection h with h; exact .inr (.inr (.inr ⟨_, h.symm, by simp⟩))
  | zero p => exact goesTo_runLocal h
  | one p => exact goesTo_runLocal h
  | random p => exact goesTo_runLocal h
  | readStdin p => exact goesTo_runLocal h
  | writeStdout p => exact goesTo_runLocal h
  | copy src snk => injection h with h; exact h ▸ goesTo_settle fun _ => pairEffects_nin
  | cut src snk => injection h with h; exact h ▸ goesTo_settle fun _ => pairEffects_nin
  | pointerRead p q => injection h with h; exact h ▸ goesTo_settle fun _ => pairEffects_nin
  | allocate x src q => injection h with h; exact h ▸ goesTo_settle fun _ => allocEffects_nin
  | pointerWrite x src q =>
    injection h with h; exact h ▸ goesTo_settle fun _ => pointerWriteEffects_nin
  | add head rest => injection h with h; exact h ▸ goesTo_settle fun _ => chainEffects_nin
  | sub head rest => injection h with h; exact h ▸ goesTo_settle fun _ => chainEffects_nin
  | mul head rest => injection h with h; exact h ▸ goesTo_settle fun _ => chainEffects_nin
  | div head rest => injection h with h; exact h ▸ goesTo_settle fun _ => chainEffects_nin
  | and head rest => injection h with h; exact h ▸ goesTo_settle fun _ => chainEffects_nin
  | or head rest => injection h with h; exact h ▸ goesTo_settle fun _ => chainEffects_nin
  | xor head rest => injection h with h; exact h ▸ goesTo_settle fun _ => chainEffects_nin

/-- What a step can do. -/
theorem step_goesTo {s t : State} (h : step s = .next t) : GoesTo s t := by
  unfold step at h
  split at h
  · split at h
    · exact exec_goesTo h
    · injection h with h; exact .inr (.inl ⟨_, h.symm⟩)
  · injection h with h; exact .inl h.symm
  · injection h with h; exact .inl h.symm

end Sys2Proof.Machine
end

