-- ==== Sys2Proof/Tests/Slice0.lean ====
section
/-! SUPPORT. Tests of the model: ill-formed terms the well-formedness checks refuse, words written out
from 30_encoding.md and what they decode to, the spec's vectors (95_test_vectors.md) run for one step
each, and for every obligation with hypotheses a state and operands that meet them. -/

namespace Sys2Proof.Tests

open Machine

/-! ## Helpers -/

/-- The row word of 17 written-out bytes. -/
def word (bs : List Byte) : RowWord := (rowOfBytes bs).getD endWord

/-- The rows of an assembly text, followed by one end marker. -/
def asm (ls : List String) : List RowWord := (assemble (ls.map String.toList)).getD [] ++ [endWord]

/-- The register file that holds the listed values, and 0 elsewhere. -/
def regs (l : List (Reg × Word)) : Vector Word 16 :=
  tabulate (fun i => ((l.find? (fun q => q.1 == i)).map Prod.snd).getD 0)

/-- The memory that holds the words, address 0 first. -/
def ram (ws : List Word) : Memory := writeAll ⟨ws.length, []⟩ ((List.range ws.length).zip ws)

/-- A launch state of the rows, with registers and memory set; stdin is empty and closed. -/
def st (l : List (Reg × Word)) (ls : List String) (mem : List Word := []) : State :=
  { State.reset with x := regs l, image := asm ls, mem := ram mem, stdinClosed := true }

/-- `st` with stdin bytes. -/
def stIn (ls : List String) (inp : List Byte) : State := { st [] ls with stdin := inp }

/-- `st` of row words. -/
def stWords (ws : List RowWord) : State := { st [] [] with image := ws ++ [endWord] }

/-- The next state of an outcome. -/
def nxt : Host.Outcome State Fault Refusal → Option State
  | .next s => some s
  | .fault _ => none
  | .refused _ => none

/-- The registers after one step. -/
def xAfter (s : State) : Option (Vector Word 16) := (nxt (step s)).map State.x

/-- The registers and the memory after one step. -/
def xmAfter (s : State) : Option (Vector Word 16 × Memory) :=
  (nxt (step s)).map (fun t => (t.x, t.mem))

/-- The fault record after one step that leaves all else as it was: kind, row, reason. -/
def faultAfter (s : State) : Option (Nat × Nat × Nat) :=
  match nxt (step s) with
  | some t =>
    if t = { s with runstate := .faulted, fault := t.fault } then
      some (t.fault.kind.toNat, t.fault.row.toNat, t.fault.reason.toNat)
    else none
  | none => none

/-! ## Well-formedness: each check refuses an ill-formed term, and takes a well-formed one -/

theorem test_wf_single_multiOnly :
    Instr.wf (.single 3 #v[.pointerRead, .noop, .noop, .noop, .noop, .noop, .noop, .noop, .noop, .noop, .noop, .noop, .noop, .noop, .noop, .noop]) = false := by decide

theorem test_wf_single :
    Instr.wf (.single 3 #v[.one, .noop, .noop, .noop, .noop, .noop, .noop, .noop, .noop, .noop, .noop, .noop, .noop, .noop, .noop, .noop]) = true := by decide

theorem test_wf_reservedSelector_low : Instr.wf (.reservedSelector 0x10) = false := by
  decide

theorem test_wf_reservedSelector_high : Instr.wf (.reservedSelector 0xFF) = false := by
  decide

theorem test_wf_someMarked : Instr.wf (.zero ⟨.multi, 0⟩) = false := by
  decide

theorem test_wf_copy_empty : Instr.wf (.copy ⟨.multi, 0⟩ ⟨.multi, 0⟩) = false := by
  decide

/-- 95_test_vectors.md E7: 3 Copy marks against 2. -/
theorem test_wf_copy_sameCount : Instr.wf (.copy ⟨.multi, 0x7⟩ ⟨.multi, 0x18⟩) = false := by
  decide

theorem test_wf_copy : Instr.wf (.copy ⟨.multi, 0x6⟩ ⟨.single 2, 0x60⟩) = true := by
  decide

theorem test_wf_chain_empty : Instr.wf (.add ⟨.multi, 1⟩ []) = false := by
  decide

theorem test_wf_chain_unmarked : Instr.wf (.add ⟨.multi, 0⟩ [⟨.multi, 0⟩]) = false := by
  decide

theorem test_wf_chain_count :
    Instr.wf (.div ⟨.multi, 1⟩ [⟨.multi, 2⟩, ⟨.multi, 0xC⟩]) = false := by decide

theorem test_wf_chain :
    Instr.wf (.div ⟨.multi, 1⟩ [⟨.multi, 2⟩, ⟨.single 4, 4⟩]) = true := by decide

theorem test_wf_pointerRead : Instr.wf (.pointerRead 1 3) = false := by
  decide

theorem test_wf_sourceMode : Instr.wf (.allocate .pointerRead ⟨.single 3, 1⟩ 1) = false := by
  decide

theorem test_wf_pointerWrite_count : Instr.wf (.pointerWrite .copy ⟨.multi, 3⟩ 1) = false := by
  decide

theorem test_wf_reservedCharacter : Instr.wf (.reservedCharacter .multi 0 0x11) = false := by
  decide

/-! ## Decoding: words written out from 30_encoding.md R80 to R87 -/

theorem test_decode_noop :
    decodeRun [word [0x04, 0x00, 0x00, 0x00, 0x00, 0x00, 0x00, 0x00, 0x00, 0x00, 0x00, 0x00, 0x00, 0x00, 0x00, 0x00, 0x00],
      endWord] = .ok (.noop (.single 4)) ∧
    encode (.noop (.single 4)) = [word [0x04, 0x00, 0x00, 0x00, 0x00, 0x00, 0x00, 0x00, 0x00, 0x00, 0x00, 0x00, 0x00, 0x00, 0x00, 0x00, 0x00]] := by decide

theorem test_decode_copy :
    decodeRun [word [0x10, 0x00, 0x01, 0x01, 0x00, 0x00, 0x00, 0x00, 0x00, 0x00, 0x00, 0x00, 0x00, 0x00, 0x00, 0x00, 0x00],
      word [0x10, 0x00, 0x00, 0x00, 0x00, 0x00, 0x01, 0x01, 0x00, 0x00, 0x00, 0x00, 0x00, 0x00, 0x00, 0x00, 0x00],
      endWord] = .ok (.copy ⟨.multi, 0x0006⟩ ⟨.multi, 0x0060⟩) ∧
    encode (.copy ⟨.multi, 0x0006⟩ ⟨.multi, 0x0060⟩) = [word [0x10, 0x00, 0x01, 0x01, 0x00, 0x00, 0x00, 0x00, 0x00, 0x00, 0x00, 0x00, 0x00, 0x00, 0x00, 0x00, 0x00],
      word [0x10, 0x00, 0x00, 0x00, 0x00, 0x00, 0x01, 0x01, 0x00, 0x00, 0x00, 0x00, 0x00, 0x00, 0x00, 0x00, 0x00]] := by decide

theorem test_decode_cut :
    decodeRun [word [0x04, 0x02, 0x02, 0x00, 0x00, 0x00, 0x00, 0x00, 0x00, 0x00, 0x00, 0x00, 0x00, 0x00, 0x00, 0x00, 0x00],
      word [0x04, 0x00, 0x02, 0x02, 0x00, 0x00, 0x00, 0x00, 0x00, 0x00, 0x00, 0x00, 0x00, 0x00, 0x00, 0x00, 0x00],
      endWord] = .ok (.cut ⟨.single 4, 0x0003⟩ ⟨.single 4, 0x0006⟩) ∧
    encode (.cut ⟨.single 4, 0x0003⟩ ⟨.single 4, 0x0006⟩) = [word [0x04, 0x02, 0x02, 0x00, 0x00, 0x00, 0x00, 0x00, 0x00, 0x00, 0x00, 0x00, 0x00, 0x00, 0x00, 0x00, 0x00],
      word [0x04, 0x00, 0x02, 0x02, 0x00, 0x00, 0x00, 0x00, 0x00, 0x00, 0x00, 0x00, 0x00, 0x00, 0x00, 0x00, 0x00]] := by decide

theorem test_decode_pointerRead :
    decodeRun [word [0x10, 0x00, 0x03, 0x00, 0x00, 0x00, 0x00, 0x00, 0x00, 0x00, 0x00, 0x00, 0x00, 0x00, 0x00, 0x00, 0x00],
      word [0x10, 0x00, 0x00, 0x00, 0x00, 0x00, 0x00, 0x00, 0x00, 0x00, 0x00, 0x00, 0x00, 0x00, 0x00, 0x00, 0x03],
      endWord] = .ok (.pointerRead 0x0002 0x8000) ∧
    encode (.pointerRead 0x0002 0x8000) = [word [0x10, 0x00, 0x03, 0x00, 0x00, 0x00, 0x00, 0x00, 0x00, 0x00, 0x00, 0x00, 0x00, 0x00, 0x00, 0x00, 0x00],
      word [0x10, 0x00, 0x00, 0x00, 0x00, 0x00, 0x00, 0x00, 0x00, 0x00, 0x00, 0x00, 0x00, 0x00, 0x00, 0x00, 0x03]] := by decide

theorem test_decode_writeStdout :
    decodeRun [word [0x10, 0x00, 0x00, 0x04, 0x00, 0x00, 0x00, 0x00, 0x04, 0x00, 0x00, 0x00, 0x00, 0x00, 0x00, 0x00, 0x00],
      endWord] = .ok (.writeStdout 0x0084) ∧
    encode (.writeStdout 0x0084) = [word [0x10, 0x00, 0x00, 0x04, 0x00, 0x00, 0x00, 0x00, 0x04, 0x00, 0x00, 0x00, 0x00, 0x00, 0x00, 0x00, 0x00]] := by decide

theorem test_decode_add :
    decodeRun [word [0x10, 0x05, 0x00, 0x00, 0x00, 0x00, 0x00, 0x00, 0x00, 0x00, 0x00, 0x00, 0x00, 0x00, 0x00, 0x00, 0x00],
      word [0x10, 0x00, 0x05, 0x00, 0x00, 0x00, 0x00, 0x00, 0x00, 0x00, 0x00, 0x00, 0x00, 0x00, 0x00, 0x00, 0x00],
      word [0x05, 0x00, 0x00, 0x00, 0x00, 0x00, 0x00, 0x00, 0x00, 0x00, 0x00, 0x05, 0x00, 0x00, 0x00, 0x00, 0x00],
      endWord] = .ok (.add ⟨.multi, 0x0001⟩ [⟨.multi, 0x0002⟩, ⟨.single 5, 0x0400⟩]) ∧
    encode (.add ⟨.multi, 0x0001⟩ [⟨.multi, 0x0002⟩, ⟨.single 5, 0x0400⟩]) = [word [0x10, 0x05, 0x00, 0x00, 0x00, 0x00, 0x00, 0x00, 0x00, 0x00, 0x00, 0x00, 0x00, 0x00, 0x00, 0x00, 0x00],
      word [0x10, 0x00, 0x05, 0x00, 0x00, 0x00, 0x00, 0x00, 0x00, 0x00, 0x00, 0x00, 0x00, 0x00, 0x00, 0x00, 0x00],
      word [0x05, 0x00, 0x00, 0x00, 0x00, 0x00, 0x00, 0x00, 0x00, 0x00, 0x00, 0x05, 0x00, 0x00, 0x00, 0x00, 0x00]] := by decide

theorem test_decode_sub :
    decodeRun [word [0x10, 0x06, 0x06, 0x00, 0x00, 0x00, 0x00, 0x00, 0x00, 0x00, 0x00, 0x00, 0x00, 0x00, 0x00, 0x00, 0x00],
      word [0x06, 0x00, 0x00, 0x00, 0x00, 0x00, 0x00, 0x00, 0x00, 0x06, 0x00, 0x00, 0x06, 0x00, 0x00, 0x00, 0x00],
      endWord] = .ok (.sub ⟨.multi, 0x0003⟩ [⟨.single 6, 0x0900⟩]) ∧
    encode (.sub ⟨.multi, 0x0003⟩ [⟨.single 6, 0x0900⟩]) = [word [0x10, 0x06, 0x06, 0x00, 0x00, 0x00, 0x00, 0x00, 0x00, 0x00, 0x00, 0x00, 0x00, 0x00, 0x00, 0x00, 0x00],
      word [0x06, 0x00, 0x00, 0x00, 0x00, 0x00, 0x00, 0x00, 0x00, 0x06, 0x00, 0x00, 0x06, 0x00, 0x00, 0x00, 0x00]] := by decide

theorem test_decode_mul :
    decodeRun [word [0x10, 0x07, 0x07, 0x00, 0x00, 0x00, 0x00, 0x00, 0x00, 0x00, 0x00, 0x00, 0x00, 0x00, 0x00, 0x00, 0x00],
      word [0x06, 0x00, 0x00, 0x00, 0x00, 0x00, 0x00, 0x00, 0x00, 0x07, 0x00, 0x00, 0x07, 0x00, 0x00, 0x00, 0x00],
      endWord] = .ok (.mul ⟨.multi, 0x0003⟩ [⟨.single 6, 0x0900⟩]) ∧
    encode (.mul ⟨.multi, 0x0003⟩ [⟨.single 6, 0x0900⟩]) = [word [0x10, 0x07, 0x07, 0x00, 0x00, 0x00, 0x00, 0x00, 0x00, 0x00, 0x00, 0x00, 0x00, 0x00, 0x00, 0x00, 0x00],
      word [0x06, 0x00, 0x00, 0x00, 0x00, 0x00, 0x00, 0x00, 0x00, 0x07, 0x00, 0x00, 0x07, 0x00, 0x00, 0x00, 0x00]] := by decide

theorem test_decode_div :
    decodeRun [word [0x10, 0x08, 0x08, 0x00, 0x00, 0x00, 0x00, 0x00, 0x00, 0x00, 0x00, 0x00, 0x00, 0x00, 0x00, 0x00, 0x00],
      word [0x06, 0x00, 0x00, 0x00, 0x00, 0x00, 0x00, 0x00, 0x00, 0x08, 0x00, 0x00, 0x08, 0x00, 0x00, 0x00, 0x00],
      endWord] = .ok (.div ⟨.multi, 0x0003⟩ [⟨.single 6, 0x0900⟩]) ∧
    encode (.div ⟨.multi, 0x0003⟩ [⟨.single 6, 0x0900⟩]) = [word [0x10, 0x08, 0x08, 0x00, 0x00, 0x00, 0x00, 0x00, 0x00, 0x00, 0x00, 0x00, 0x00, 0x00, 0x00, 0x00, 0x00],
      word [0x06, 0x00, 0x00, 0x00, 0x00, 0x00, 0x00, 0x00, 0x00, 0x08, 0x00, 0x00, 0x08, 0x00, 0x00, 0x00, 0x00]] := by decide

theorem test_decode_and :
    decodeRun [word [0x10, 0x09, 0x09, 0x00, 0x00, 0x00, 0x00, 0x00, 0x00, 0x00, 0x00, 0x00, 0x00, 0x00, 0x00, 0x00, 0x00],
      word [0x06, 0x00, 0x00, 0x00, 0x00, 0x00, 0x00, 0x00, 0x00, 0x09, 0x00, 0x00, 0x09, 0x00, 0x00, 0x00, 0x00],
      endWord] = .ok (.and ⟨.multi, 0x0003⟩ [⟨.single 6, 0x0900⟩]) ∧
    encode (.and ⟨.multi, 0x0003⟩ [⟨.single 6, 0x0900⟩]) = [word [0x10, 0x09, 0x09, 0x00, 0x00, 0x00, 0x00, 0x00, 0x00, 0x00, 0x00, 0x00, 0x00, 0x00, 0x00, 0x00, 0x00],
      word [0x06, 0x00, 0x00, 0x00, 0x00, 0x00, 0x00, 0x00, 0x00, 0x09, 0x00, 0x00, 0x09, 0x00, 0x00, 0x00, 0x00]] := by decide

theorem test_decode_or :
    decodeRun [word [0x10, 0x0A, 0x0A, 0x00, 0x00, 0x00, 0x00, 0x00, 0x00, 0x00, 0x00, 0x00, 0x00, 0x00, 0x00, 0x00, 0x00],
      word [0x06, 0x00, 0x00, 0x00, 0x00, 0x00, 0x00, 0x00, 0x00, 0x0A, 0x00, 0x00, 0x0A, 0x00, 0x00, 0x00, 0x00],
      endWord] = .ok (.or ⟨.multi, 0x0003⟩ [⟨.single 6, 0x0900⟩]) ∧
    encode (.or ⟨.multi, 0x0003⟩ [⟨.single 6, 0x0900⟩]) = [word [0x10, 0x0A, 0x0A, 0x00, 0x00, 0x00, 0x00, 0x00, 0x00, 0x00, 0x00, 0x00, 0x00, 0x00, 0x00, 0x00, 0x00],
      word [0x06, 0x00, 0x00, 0x00, 0x00, 0x00, 0x00, 0x00, 0x00, 0x0A, 0x00, 0x00, 0x0A, 0x00, 0x00, 0x00, 0x00]] := by decide

theorem test_decode_xor :
    decodeRun [word [0x10, 0x0B, 0x0B, 0x00, 0x00, 0x00, 0x00, 0x00, 0x00, 0x00, 0x00, 0x00, 0x00, 0x00, 0x00, 0x00, 0x00],
      word [0x06, 0x00, 0x00, 0x00, 0x00, 0x00, 0x00, 0x00, 0x00, 0x0B, 0x00, 0x00, 0x0B, 0x00, 0x00, 0x00, 0x00],
      endWord] = .ok (.xor ⟨.multi, 0x0003⟩ [⟨.single 6, 0x0900⟩]) ∧
    encode (.xor ⟨.multi, 0x0003⟩ [⟨.single 6, 0x0900⟩]) = [word [0x10, 0x0B, 0x0B, 0x00, 0x00, 0x00, 0x00, 0x00, 0x00, 0x00, 0x00, 0x00, 0x00, 0x00, 0x00, 0x00, 0x00],
      word [0x06, 0x00, 0x00, 0x00, 0x00, 0x00, 0x00, 0x00, 0x00, 0x0B, 0x00, 0x00, 0x0B, 0x00, 0x00, 0x00, 0x00]] := by decide

theorem test_decode_zero :
    decodeRun [word [0x10, 0x0C, 0x00, 0x00, 0x00, 0x00, 0x0C, 0x00, 0x00, 0x00, 0x00, 0x00, 0x00, 0x00, 0x00, 0x00, 0x00],
      endWord] = .ok (.zero ⟨.multi, 0x0021⟩) ∧
    encode (.zero ⟨.multi, 0x0021⟩) = [word [0x10, 0x0C, 0x00, 0x00, 0x00, 0x00, 0x0C, 0x00, 0x00, 0x00, 0x00, 0x00, 0x00, 0x00, 0x00, 0x00, 0x00]] := by decide

theorem test_decode_one :
    decodeRun [word [0x02, 0x0D, 0x00, 0x00, 0x00, 0x00, 0x00, 0x00, 0x00, 0x00, 0x00, 0x00, 0x00, 0x00, 0x00, 0x00, 0x0D],
      endWord] = .ok (.one ⟨.single 2, 0x8001⟩) ∧
    encode (.one ⟨.single 2, 0x8001⟩) = [word [0x02, 0x0D, 0x00, 0x00, 0x00, 0x00, 0x00, 0x00, 0x00, 0x00, 0x00, 0x00, 0x00, 0x00, 0x00, 0x00, 0x0D]] := by decide

theorem test_decode_random :
    decodeRun [word [0x00, 0x00, 0x00, 0x00, 0x0E, 0x00, 0x00, 0x00, 0x00, 0x00, 0x00, 0x00, 0x00, 0x00, 0x00, 0x00, 0x00],
      endWord] = .ok (.random ⟨.single 0, 0x0008⟩) ∧
    encode (.random ⟨.single 0, 0x0008⟩) = [word [0x00, 0x00, 0x00, 0x00, 0x0E, 0x00, 0x00, 0x00, 0x00, 0x00, 0x00, 0x00, 0x00, 0x00, 0x00, 0x00, 0x00]] := by decide

theorem test_decode_readStdin :
    decodeRun [word [0x10, 0x00, 0x0F, 0x00, 0x0F, 0x00, 0x00, 0x00, 0x00, 0x00, 0x00, 0x00, 0x00, 0x00, 0x00, 0x00, 0x00],
      endWord] = .ok (.readStdin 0x000A) ∧
    encode (.readStdin 0x000A) = [word [0x10, 0x00, 0x0F, 0x00, 0x0F, 0x00, 0x00, 0x00, 0x00, 0x00, 0x00, 0x00, 0x00, 0x00, 0x00, 0x00, 0x00]] := by decide

theorem test_decode_allocate :
    decodeRun [word [0x00, 0x01, 0x01, 0x00, 0x00, 0x00, 0x00, 0x00, 0x00, 0x00, 0x00, 0x00, 0x00, 0x00, 0x00, 0x00, 0x00],
      word [0x10, 0x00, 0x00, 0x10, 0x10, 0x00, 0x00, 0x00, 0x00, 0x00, 0x00, 0x00, 0x00, 0x00, 0x00, 0x00, 0x00],
      endWord] = .ok (.allocate .copy ⟨.single 0, 0x0003⟩ 0x000C) ∧
    encode (.allocate .copy ⟨.single 0, 0x0003⟩ 0x000C) = [word [0x00, 0x01, 0x01, 0x00, 0x00, 0x00, 0x00, 0x00, 0x00, 0x00, 0x00, 0x00, 0x00, 0x00, 0x00, 0x00, 0x00],
      word [0x10, 0x00, 0x00, 0x10, 0x10, 0x00, 0x00, 0x00, 0x00, 0x00, 0x00, 0x00, 0x00, 0x00, 0x00, 0x00, 0x00]] := by decide

theorem test_decode_pointerWrite :
    decodeRun [word [0x10, 0x03, 0x00, 0x00, 0x00, 0x00, 0x00, 0x00, 0x00, 0x00, 0x00, 0x00, 0x00, 0x00, 0x00, 0x00, 0x00],
      word [0x10, 0x00, 0x11, 0x00, 0x00, 0x00, 0x00, 0x00, 0x00, 0x00, 0x00, 0x00, 0x00, 0x00, 0x00, 0x00, 0x00],
      endWord] = .ok (.pointerWrite .pointerRead ⟨.multi, 0x0001⟩ 0x0002) ∧
    encode (.pointerWrite .pointerRead ⟨.multi, 0x0001⟩ 0x0002) = [word [0x10, 0x03, 0x00, 0x00, 0x00, 0x00, 0x00, 0x00, 0x00, 0x00, 0x00, 0x00, 0x00, 0x00, 0x00, 0x00, 0x00],
      word [0x10, 0x00, 0x11, 0x00, 0x00, 0x00, 0x00, 0x00, 0x00, 0x00, 0x00, 0x00, 0x00, 0x00, 0x00, 0x00, 0x00]] := by decide

theorem test_decode_single :
    decode (word [0x03, 0x00, 0x00, 0x0D, 0x00, 0x0C, 0x00, 0x00, 0x00, 0x00, 0x00, 0x00, 0x00, 0x00, 0x00, 0x00, 0x00]) = .ok (.single 3 #v[.noop, .noop, .one, .noop, .zero, .noop, .noop, .noop, .noop, .noop, .noop, .noop, .noop, .noop, .noop, .noop]) ∧
    encode (.single 3 #v[.noop, .noop, .one, .noop, .zero, .noop, .noop, .noop, .noop, .noop, .noop, .noop, .noop, .noop, .noop, .noop]) = [word [0x03, 0x00, 0x00, 0x0D, 0x00, 0x0C, 0x00, 0x00, 0x00, 0x00, 0x00, 0x00, 0x00, 0x00, 0x00, 0x00, 0x00]] := by decide

theorem test_decode_multi :
    decode (word [0x10, 0x0C, 0x01, 0x00, 0x03, 0x05, 0x00, 0x00, 0x00, 0x00, 0x00, 0x00, 0x00, 0x00, 0x00, 0x10, 0x11]) = .ok (.multi #v[.zero, .copy, .noop, .pointerRead, .add, .noop, .noop, .noop, .noop, .noop, .noop, .noop, .noop, .noop, .allocate, .pointerWrite]) ∧
    encode (.multi #v[.zero, .copy, .noop, .pointerRead, .add, .noop, .noop, .noop, .noop, .noop, .noop, .noop, .noop, .noop, .allocate, .pointerWrite]) = [word [0x10, 0x0C, 0x01, 0x00, 0x03, 0x05, 0x00, 0x00, 0x00, 0x00, 0x00, 0x00, 0x00, 0x00, 0x00, 0x10, 0x11]] := by decide

theorem test_decode_end :
    decode (word [0xFF, 0x00, 0x00, 0x00, 0x00, 0x00, 0x00, 0x00, 0x00, 0x00, 0x00, 0x00, 0x00, 0x00, 0x00, 0x00, 0x00]) = .ok (.endMark) ∧
    encode (.endMark) = [word [0xFF, 0x00, 0x00, 0x00, 0x00, 0x00, 0x00, 0x00, 0x00, 0x00, 0x00, 0x00, 0x00, 0x00, 0x00, 0x00, 0x00]] := by decide

theorem test_decode_reservedSelector :
    decode (word [0x11, 0x00, 0x00, 0x00, 0x00, 0x00, 0x00, 0x00, 0x00, 0x00, 0x00, 0x00, 0x00, 0x00, 0x00, 0x00, 0x00]) = .ok (.reservedSelector 0x11) ∧
    encode (.reservedSelector 0x11) = [word [0x11, 0x00, 0x00, 0x00, 0x00, 0x00, 0x00, 0x00, 0x00, 0x00, 0x00, 0x00, 0x00, 0x00, 0x00, 0x00, 0x00]] := by decide

theorem test_decode_reservedCharacter :
    decode (word [0x05, 0x00, 0x00, 0x00, 0x00, 0x00, 0x00, 0x00, 0x00, 0x00, 0x12, 0x00, 0x00, 0x00, 0x00, 0x00, 0x00]) = .ok (.reservedCharacter (.single 5) 9 0x12) ∧
    encode (.reservedCharacter (.single 5) 9 0x12) = [word [0x05, 0x00, 0x00, 0x00, 0x00, 0x00, 0x00, 0x00, 0x00, 0x00, 0x12, 0x00, 0x00, 0x00, 0x00, 0x00, 0x00]] := by decide

/-- 95_test_vectors.md DEC3 (R84): a multi-only character in a single-register row. -/
theorem test_decode_multiOnlyInSingle :
    decode (word [0x03, 0x03, 0x00, 0x00, 0x00, 0x00, 0x00, 0x00, 0x00, 0x00, 0x00, 0x00, 0x00, 0x00, 0x00, 0x00, 0x00]) = .error .multiOnlyInSingle := by decide

/-- 95_test_vectors.md DEC4 (R87). -/
theorem test_decode_endNonZero :
    decode (word [0xFF, 0x01, 0x00, 0x00, 0x00, 0x00, 0x00, 0x00, 0x00, 0x00, 0x00, 0x00, 0x00, 0x00, 0x00, 0x00, 0x00]) = .error .endNonZero := by decide

/-- 95_test_vectors.md DEC5, DEC6, DEC7: the order of the checks (R88). -/
theorem test_decode_order :
    decodeRow (word [0x12, 0x13, 0x00, 0x00, 0x00, 0x00, 0x00, 0x00, 0x00, 0x00, 0x00, 0x00, 0x00, 0x00, 0x00, 0x00, 0x00]) = .error .unknownSelector ∧
    decodeRow (word [0x05, 0x03, 0x12, 0x00, 0x00, 0x00, 0x00, 0x00, 0x00, 0x00, 0x00, 0x00, 0x00, 0x00, 0x00, 0x00, 0x00]) = .error .reservedCharacter ∧
    decodeRow (word [0xFF, 0x12, 0x00, 0x00, 0x00, 0x00, 0x00, 0x00, 0x00, 0x00, 0x00, 0x00, 0x00, 0x00, 0x00, 0x00, 0x00]) = .error .endNonZero := by decide

/-- R80: a row word is 17 bytes. -/
theorem test_decodeBytes_length : decodeBytes [0x10, 0x00] = none := by
  decide

/-- 95_test_vectors.md DEC9 (R95): the assembly text of a row. -/
theorem test_assemble :
    asm ["R3 ..1.0... ........  ; a comment"] = [word [0x03, 0x00, 0x00, 0x0D, 0x00, 0x0C, 0x00, 0x00, 0x00, 0x00, 0x00, 0x00, 0x00, 0x00, 0x00, 0x00, 0x00], endWord] := by decide

/-- R95 refuses a register number above 15. -/
theorem test_assemble_refuses :
    assemble (["R16 ........ ........"].map String.toList) = none := by decide

/-- Every slot code of the table is read as its instruction, and runs as the first instruction after
reset. -/
theorem test_table_slots :
    ∀ k : Fin 18, (decodeTableWord 8 k.val).isSome = true ∧
    (nxt (step (State.reset.withFetchWord 8 k.val))).isSome = true := by decide

theorem test_table_add :
    decodeTableWord 8 0x05 = some (.add ⟨.multi, 1⟩ [⟨.multi, 1⟩]) := by decide

theorem test_table_end :
    decodeTableWord 136 0xFF = some .endMark ∧
    (nxt (step (State.reset.withFetchWord 136 0xFF))).map State.runstate = some .halted := by decide

/-- R91: signals of a decoded row. -/
theorem test_signals :
    (Row.mk .multi #v[.zero, .noop, .copy, .noop, .noop, .copy, .noop, .noop, .noop, .noop, .noop, .noop, .noop, .noop, .noop, .noop]).kinds = [.copy, .zero] ∧
    (Row.mk .multi #v[.zero, .noop, .copy, .noop, .noop, .copy, .noop, .noop, .noop, .noop, .noop, .noop, .noop, .noop, .noop, .noop]).maskOf .copy = 0x24 := by decide

/-! ## Notation and operations -/

/-- 95_test_vectors.md X1, X2. -/
theorem test_extract_single :
    elements (st [(3, 0x00B4)] []) ⟨.single 3, 0xB4⟩ = [1, 1, 1, 1] ∧
    value (st [(3, 0x00B4)] []) ⟨.single 3, 0x0D⟩ = 2 := by decide

/-- 95_test_vectors.md X3. -/
theorem test_extract_multi :
    value (st [(0, 0xFFFF), (1, 0x0001)] []) ⟨.multi, 3⟩ = 0x0001FFFF := by decide

/-- 95_test_vectors.md X4. -/
theorem test_writeBack :
    applyWrites (regs [(1, 0x0035)]) (writeBack ⟨.single 1, 0xF0⟩ 8) = regs [(1, 0x0085)] := by decide

/-- 00_scope.md R7: truncation of a negative integer. -/
theorem test_trunc : trunc 16 (-2) = 0xFFFE := by
  decide

/-- 20_memory.md R53: writing the value an unlisted word reads as removes the cell. -/
theorem test_memory_canonical :
    (ram [5, 0, 7]).cells = [(0, 5), (2, 7)] ∧
    ((ram [5, 0, 7]).write 2 0).cells = [(0, 5)] ∧ (ram [5, 0, 7]).read 3 = none := by decide

/-! ## One step of each instruction (95_test_vectors.md) -/

/-- 95_test_vectors.md W12, at row 0. -/
theorem test_noop :
    xAfter (st [(3, 7)] ["M ........ ........"]) =
      some (regs [(3, 7), (14, 1)]) := by decide

/-- 95_test_vectors.md W1. -/
theorem test_zero :
    xAfter (st [(0, 0x1234), (5, 0xFFFF)] ["M 0....0.. ........"]) =
      some (regs [(14, 1)]) := by decide

/-- 95_test_vectors.md W4: Zero at 14 is a jump to row 0. -/
theorem test_zero_pc :
    xAfter (st [] ["M ........ ......0."]) =
      some (regs []) := by decide

/-- 95_test_vectors.md W2. -/
theorem test_one :
    xAfter (st [] ["R2 1....... .......1"]) =
      some (regs [(2, 0x8001), (14, 1)]) := by decide

/-- 95_test_vectors.md S2. -/
theorem test_one_pc :
    xAfter (st [] ["M ........ ......1."]) =
      some (regs [(14, 0xFFFF)]) := by decide

/-- 95_test_vectors.md W3. -/
theorem test_single_mixed :
    xAfter (st [(7, 0xFFFF)] ["R7 10101010 01010101"]) =
      some (regs [(7, 0xAA55), (14, 1)]) := by decide

/-- 95_test_vectors.md W7. -/
theorem test_multi_mixed :
    (nxt (step { stIn ["M 1.0.I.O. ........"] [0x7F] with x := regs [(2, 5), (6, 0x0041)] })).map
      (fun t => (t.x, t.stdout, t.stdinPos)) =
      some (regs [(0, 0xFFFF), (4, 0x7F), (6, 0x41), (14, 1)], [0x41], 1) := by decide

/-- 95_test_vectors.md W11, for any draw: one draw is taken, and `pc` advances. -/
theorem test_random :
    (nxt (step (st [] ["R0 ...?.... ........"]))).map (fun t => (t.drawPos, t.pc)) = some (1, 1) := by decide

/-- 95_test_vectors.md W5. -/
theorem test_readStdin :
    (nxt (step (stIn ["M .I.I.... ........"] [0x41, 0x42]))).map (fun t => (t.x, t.stdinPos)) =
      some (regs [(1, 0x41), (3, 0x42), (14, 1)], 2) := by decide

/-- 95_test_vectors.md W10: stuck, and the one byte is not consumed. -/
theorem test_readStdin_stuck :
    nxt (step (stIn ["M II...... ........"] [0x30])) = some (stIn ["M II...... ........"] [0x30]) ∧
    stepReply (stIn ["M II...... ........"] [0x30]) = .stuck := by decide

/-- 95_test_vectors.md W9. -/
theorem test_readStdin_wait :
    stepReply { st [] ["M .I...... ........"] with stdinClosed := false } = .wait := by decide

/-- 95_test_vectors.md W6. -/
theorem test_writeStdout :
    (nxt (step (st [(2, 0x1248), (7, 0x0A0A)] ["M ..O....O ........"]))).map
      (fun t => (t.x, t.stdout)) = some (regs [(2, 0x1248), (7, 0x0A0A), (14, 1)], [0x48, 0x0A]) := by decide

/-- 95_test_vectors.md S4: `pc` reads as the head index. -/
theorem test_writeStdout_pc :
    (nxt (step (st [] ["M ........ ......O."]))).map State.stdout = some [0x00] := by decide

/-- 95_test_vectors.md RL1. -/
theorem test_copy :
    xAfter (st [(1, 0x11), (2, 0x22)] ["M .CC..... ........", "M .....CC. ........"]) =
      some (regs [(1, 0x11), (2, 0x22), (5, 0x11), (6, 0x22), (14, 2)]) := by decide

/-- 95_test_vectors.md RL7: a register into one bit. -/
theorem test_copy_width :
    xAfter (st [(1, 6), (2, 0xFFFF)] ["M .C...... ........", "R2 C....... ........"]) =
      some (regs [(1, 6), (2, 0xFFFE), (14, 2)]) := by decide

/-- 95_test_vectors.md RL3: overlapping bits of one register. -/
theorem test_cut :
    xAfter (st [(4, 3)] ["R4 XX...... ........", "R4 .XX..... ........"]) =
      some (regs [(4, 6), (14, 2)]) := by decide

/-- 95_test_vectors.md RL4: the sink's write wins over the cut. -/
theorem test_cut_same :
    xAfter (st [(1, 0x55)] ["M .X...... ........", "M .X...... ........"]) =
      some (regs [(1, 0x55), (14, 2)]) := by decide

/-- 95_test_vectors.md RL8. -/
theorem test_pointerRead :
    xAfter (st [(1, 2)] ["M .P...... ........", "M ...P.... ........"] [0x11, 0x22, 0x33]) =
      some (regs [(1, 2), (3, 0x33), (14, 2)]) := by decide

/-- 95_test_vectors.md RL9. -/
theorem test_pointerRead_fault :
    faultAfter (st [(1, 3)] ["M .P...... ........", "M ...P.... ........"] [0x11, 0x22, 0x33]) = some (3, 0, 14) := by decide

/-- 95_test_vectors.md E2: wraps at 16 bits. -/
theorem test_add :
    xAfter (st [(0, 0x1234), (1, 0xF00F)] ["M +....... ........", "M .+...... ........"]) =
      some (regs [(0, 0x1234), (1, 0x243), (14, 2)]) := by decide

/-- 95_test_vectors.md O17: the carry crosses registers. -/
theorem test_add_carry :
    xAfter (st [(0, 0xFFFF), (2, 1)] ["M ++...... ........", "M ..++.... ........"]) =
      some (regs [(0, 0xFFFF), (3, 1), (14, 2)]) := by decide

/-- 95_test_vectors.md O4. -/
theorem test_sub :
    xAfter (st [(0, 0xA), (1, 3), (2, 4)] ["M -....... ........", "M .-...... ........", "M ..-..... ........"]) =
      some (regs [(0, 0xA), (1, 3), (2, 3), (14, 3)]) := by decide

/-- 95_test_vectors.md O3. -/
theorem test_sub_wraps :
    xAfter (st [(0, 5), (1, 7)] ["M -....... ........", "M .-...... ........"]) =
      some (regs [(0, 5), (1, 0xFFFE), (14, 2)]) := by decide

/-- 95_test_vectors.md O7. -/
theorem test_mul :
    xAfter (st [(0, 0x123), (1, 0x10)] ["M *....... ........", "M .*...... ........"]) =
      some (regs [(0, 0x123), (1, 0x1230), (14, 2)]) := by decide

/-- 95_test_vectors.md O6. -/
theorem test_mul_wraps :
    xAfter (st [(0, 0x100), (1, 0x100)] ["M *....... ........", "M .*...... ........"]) =
      some (regs [(0, 0x100), (14, 2)]) := by decide

/-- 95_test_vectors.md O9. -/
theorem test_div :
    xAfter (st [(0, 0x64), (1, 5), (2, 3)] ["M /....... ........", "M ./...... ........", "M ../..... ........"]) =
      some (regs [(0, 0x64), (1, 5), (2, 6), (14, 3)]) := by decide

/-- 95_test_vectors.md O12: the row of the divisor. -/
theorem test_div_zero :
    faultAfter (st [(0, 0x64), (1, 5)] ["M /....... ........", "M ./...... ........", "M ../..... ........"]) = some (3, 2, 17) := by decide

/-- 95_test_vectors.md O13. -/
theorem test_and :
    xAfter (st [(0, 0xF0F0), (1, 0xFF00)] ["M &....... ........", "M .&...... ........"]) =
      some (regs [(0, 0xF0F0), (1, 0xF000), (14, 2)]) := by decide

/-- 95_test_vectors.md O14. -/
theorem test_or :
    xAfter (st [(0, 0xF0F0), (1, 0xF00)] ["M |....... ........", "M .|...... ........"]) =
      some (regs [(0, 0xF0F0), (1, 0xFFF0), (14, 2)]) := by decide

/-- 95_test_vectors.md O16: 32 bits. -/
theorem test_xor :
    xAfter (st [(0, 0x1234), (1, 0xABCD), (2, 0xFFFF), (3, 1)] ["M ^^...... ........", "M ..^^.... ........"]) =
      some (regs [(0, 0x1234), (1, 0xABCD), (2, 0xEDCB), (3, 0xABCC), (14, 2)]) := by decide

/-- 95_test_vectors.md E2, swapped. -/
theorem test_xor_narrow :
    xAfter (st [(0, 0x1234), (1, 0xF00F)] ["M ^....... ........", "M .^...... ........"]) =
      some (regs [(0, 0x1234), (1, 0xE23B), (14, 2)]) := by decide

/-- 95_test_vectors.md O26: a row of another character ends the chain. -/
theorem test_chain_ends :
    xAfter (st [(0, 1), (1, 2), (2, 3)] ["M +....... ........", "M .+...... ........", "M ..-..... ........"]) =
      some (regs [(0, 1), (1, 3), (2, 3), (14, 2)]) := by decide

/-- 95_test_vectors.md AL2. -/
theorem test_allocate :
    xmAfter (st [(0, 2), (1, 5)] ["M CC...... ........", "M ....AA.. ........"] [7]) =
      some (regs [(0, 2), (1, 5), (4, 1), (5, 3), (14, 2)], ram [7, 0, 0, 0, 0, 0, 0, 0]) := by decide

/-- 95_test_vectors.md AL6. -/
theorem test_allocate_capacity :
    faultAfter { st [(0, 2)] ["M C....... ........", "M .A...... ........"] with mem := ⟨65535, []⟩ } =
      some (3, 1, 16) := by decide

/-- 95_test_vectors.md PW4: the later position wins. -/
theorem test_pointerWrite :
    xmAfter (st [(0, 5), (1, 6), (2, 1), (3, 1)] ["M CC...... ........", "M ..WW.... ........"] [0, 0]) =
      some (regs [(0, 5), (1, 6), (2, 1), (3, 1), (14, 2)], ram [0, 6]) := by decide

/-- 95_test_vectors.md PW6. -/
theorem test_pointerWrite_cut :
    xmAfter (st [(0, 9)] ["M X....... ........", "M ...W.... ........"] [0]) =
      some (regs [(14, 2)], ram [9]) := by decide

/-- 95_test_vectors.md S1. -/
theorem test_end :
    nxt (step (stWords [])) = some { stWords [] with runstate := .halted } := by decide

/-- 95_test_vectors.md DEC1. -/
theorem test_reservedSelector :
    faultAfter (stWords [word [0x11, 0x00, 0x00, 0x00, 0x00, 0x00, 0x00, 0x00, 0x00, 0x00, 0x00, 0x00, 0x00, 0x00, 0x00, 0x00, 0x00]]) = some (1, 0, 1) := by decide

/-- 95_test_vectors.md DEC2. -/
theorem test_reservedCharacter :
    faultAfter (stWords [word [0x10, 0x12, 0x00, 0x00, 0x00, 0x00, 0x00, 0x00, 0x00, 0x00, 0x00, 0x00, 0x00, 0x00, 0x00, 0x00, 0x00]]) = some (1, 0, 2) := by decide

/-- 10_state.md R29: the values of RUNSTATE, after END, after a fault and after reset. -/
theorem test_status :
    (nxt (step (stWords []))).map State.status = some (1, ⟨0, 0, 0⟩) ∧
    (nxt (step State.reset)).map State.status = some (2, ⟨1, 0, 5⟩) ∧ State.reset.status = (0, ⟨0, 0, 0⟩) := by decide

/-- Log entries 20 and 21: leading zeros, blank lines, comments and spaces at the end of a line. -/
theorem test_assemble_choices :
    asm ["R007 ........ ........", "   ", "; a comment", "END  "] =
      asm ["R7 ........ ........", "END"] := by decide

/-- 95_test_vectors.md S2, its second step. -/
theorem test_noRow :
    faultAfter { st [] [] with x := regs [(14, 0xFFFF)] } = some (1, 0xFFFF, 5) := by decide

/-- 95_test_vectors.md S5. -/
theorem test_headMixed : faultAfter (st [] ["M C.+..... ........"]) = some (2, 0, 6) := by
  decide

/-- 95_test_vectors.md AL9. -/
theorem test_headSink : faultAfter (st [] ["M A....... ........"]) = some (2, 0, 7) := by
  decide

/-- 95_test_vectors.md RL12. -/
theorem test_noFollowingRow : faultAfter (st [] ["M C....... ........"]) = some (2, 0, 8) := by
  decide

/-- 95_test_vectors.md RL13. -/
theorem test_sinkKind :
    faultAfter (st [] ["M C....... ........", "M .+...... ........"]) = some (2, 1, 9) := by decide

/-- 95_test_vectors.md PW8. -/
theorem test_sinkMixed :
    faultAfter (st [] ["M C....... ........", "M .AW..... ........"]) = some (2, 1, 10) := by decide

/-- 95_test_vectors.md E7. -/
theorem test_sinkCount :
    faultAfter (st [(0, 1), (1, 2), (2, 3)] ["M CCC..... ........", "M ...CC... ........"]) = some (2, 1, 11) := by decide

/-- 95_test_vectors.md O22. -/
theorem test_emptyChain :
    faultAfter (st [] ["M +....... ........"]) = some (4, 0, 18) := by decide

/-- 95_test_vectors.md O25. -/
theorem test_chainCount :
    faultAfter (st [] ["M +....... ........", "M .+...... ........", "M ..++.... ........"]) = some (2, 2, 12) := by decide

/-- 95_test_vectors.md O24. -/
theorem test_chainMixed :
    faultAfter (st [] ["M +....... ........", "M .+..-... ........"]) = some (2, 1, 13) := by decide

/-- 95_test_vectors.md LA1. -/
theorem test_lookAhead :
    faultAfter { st [] [] with image :=
      [word [0x10, 0x05, 0x00, 0x00, 0x00, 0x00, 0x00, 0x00, 0x00, 0x00, 0x00, 0x00, 0x00, 0x00, 0x00, 0x00, 0x00],
       word [0x10, 0x00, 0x05, 0x00, 0x00, 0x00, 0x00, 0x00, 0x00, 0x00, 0x00, 0x00, 0x00, 0x00, 0x00, 0x00, 0x00],
       word [0x10, 0xFF, 0x00, 0x00, 0x00, 0x00, 0x00, 0x00, 0x00, 0x00, 0x00, 0x00, 0x00, 0x00, 0x00, 0x00, 0x00], endWord] } = some (1, 2, 2) := by decide

/-- 70_reset_and_hazards.md R292, R294. -/
theorem test_launch :
    launch (asm []) [0x41] false = some { State.reset with image := asm [], stdin := [0x41] } ∧
    launch [] [] false = none := by decide

/-- 70_reset_and_hazards.md R290. -/
theorem test_doReset :
    (st [(3, 7)] ["M ........ ........"] [1, 2]).doReset = st [] ["M ........ ........"] := by decide

/-! ## Witnesses: what meets the hypotheses of each obligation, clause by clause -/

theorem witness_RowDecodeEncode :
    (∀ i ∈ [Instr.single 15 #v[.one, .noop, .noop, .noop, .noop, .noop, .noop, .noop, .noop, .noop, .noop, .noop, .noop, .noop, .noop, .noop], .multi #v[.pointerRead, .noop, .noop, .noop, .noop, .noop, .noop, .noop, .noop, .noop, .noop, .noop, .noop, .noop, .noop, .xor], .endMark,
      .reservedSelector 0x11, .reservedSelector 0xFE, .reservedCharacter (.single 0) 15 0x12,
      .reservedCharacter .multi 0 0xFF], i.isRowFormat = true ∧ i.wf = true) := by decide

theorem witness_RunDecodeEncode :
    ∀ i ∈ [Instr.noop .multi, .copy ⟨.multi, 1⟩ ⟨.single 15, 0x8000⟩, .cut ⟨.multi, 0xFFFF⟩ ⟨.multi, 0xFFFF⟩,
      .pointerRead 1 2, .writeStdout 1, .add ⟨.multi, 1⟩ [⟨.multi, 2⟩], .zero ⟨.single 0, 1⟩,
      .readStdin 0x8000, .allocate .pointerRead ⟨.multi, 1⟩ 1, .pointerWrite .cut ⟨.single 1, 1⟩ 2],
      i.isRowFormat = false ∧ i.wf = true ∧ decodeRun (encode i ++ endWord :: [endWord]) = .ok i := by decide

theorem witness_DecodedRowIsItsWord :
    decodeRow (word [0x03, 0x00, 0x00, 0x0D, 0x00, 0x0C, 0x00, 0x00, 0x00, 0x00, 0x00, 0x00, 0x00, 0x00, 0x00, 0x00, 0x00]) = .ok (.row ⟨.single 3, #v[.noop, .noop, .one, .noop, .zero, .noop, .noop, .noop, .noop, .noop, .noop, .noop, .noop, .noop, .noop, .noop]⟩) ∧
    decodeRow (word [0xFF, 0x00, 0x00, 0x00, 0x00, 0x00, 0x00, 0x00, 0x00, 0x00, 0x00, 0x00, 0x00, 0x00, 0x00, 0x00, 0x00]) = .ok .endMarker := by decide

theorem witness_ReservedSelectorFaults_low :
    (stWords [word [0x11, 0x00, 0x00, 0x00, 0x00, 0x00, 0x00, 0x00, 0x00, 0x00, 0x00, 0x00, 0x00, 0x00, 0x00, 0x00, 0x00]]).runstate = .running ∧
    (stWords [word [0x11, 0x00, 0x00, 0x00, 0x00, 0x00, 0x00, 0x00, 0x00, 0x00, 0x00, 0x00, 0x00, 0x00, 0x00, 0x00, 0x00]]).image[(stWords [word [0x11, 0x00, 0x00, 0x00, 0x00, 0x00, 0x00, 0x00, 0x00, 0x00, 0x00, 0x00, 0x00, 0x00, 0x00, 0x00, 0x00]]).pc.toNat]? = some (word [0x11, 0x00, 0x00, 0x00, 0x00, 0x00, 0x00, 0x00, 0x00, 0x00, 0x00, 0x00, 0x00, 0x00, 0x00, 0x00, 0x00]) ∧
    0x11 ≤ (word [0x11, 0x00, 0x00, 0x00, 0x00, 0x00, 0x00, 0x00, 0x00, 0x00, 0x00, 0x00, 0x00, 0x00, 0x00, 0x00, 0x00]).sel.toNat ∧ (word [0x11, 0x00, 0x00, 0x00, 0x00, 0x00, 0x00, 0x00, 0x00, 0x00, 0x00, 0x00, 0x00, 0x00, 0x00, 0x00, 0x00]).sel.toNat ≤ 0xFE := by decide

theorem witness_ReservedSelectorFaults_high :
    (stWords [word [0xFE, 0x00, 0x00, 0x00, 0x00, 0x00, 0x00, 0x00, 0x00, 0x00, 0x00, 0x00, 0x00, 0x00, 0x00, 0x00, 0x00]]).runstate = .running ∧
    (stWords [word [0xFE, 0x00, 0x00, 0x00, 0x00, 0x00, 0x00, 0x00, 0x00, 0x00, 0x00, 0x00, 0x00, 0x00, 0x00, 0x00, 0x00]]).image[(stWords [word [0xFE, 0x00, 0x00, 0x00, 0x00, 0x00, 0x00, 0x00, 0x00, 0x00, 0x00, 0x00, 0x00, 0x00, 0x00, 0x00, 0x00]]).pc.toNat]? = some (word [0xFE, 0x00, 0x00, 0x00, 0x00, 0x00, 0x00, 0x00, 0x00, 0x00, 0x00, 0x00, 0x00, 0x00, 0x00, 0x00, 0x00]) ∧
    0x11 ≤ (word [0xFE, 0x00, 0x00, 0x00, 0x00, 0x00, 0x00, 0x00, 0x00, 0x00, 0x00, 0x00, 0x00, 0x00, 0x00, 0x00, 0x00]).sel.toNat ∧ (word [0xFE, 0x00, 0x00, 0x00, 0x00, 0x00, 0x00, 0x00, 0x00, 0x00, 0x00, 0x00, 0x00, 0x00, 0x00, 0x00, 0x00]).sel.toNat ≤ 0xFE := by decide

theorem witness_ReservedCharacterFaults_low :
    (stWords [word [0x00, 0x00, 0x00, 0x00, 0x00, 0x00, 0x00, 0x00, 0x00, 0x00, 0x00, 0x00, 0x00, 0x00, 0x00, 0x00, 0x12]]).runstate = .running ∧
    (stWords [word [0x00, 0x00, 0x00, 0x00, 0x00, 0x00, 0x00, 0x00, 0x00, 0x00, 0x00, 0x00, 0x00, 0x00, 0x00, 0x00, 0x12]]).image[(stWords [word [0x00, 0x00, 0x00, 0x00, 0x00, 0x00, 0x00, 0x00, 0x00, 0x00, 0x00, 0x00, 0x00, 0x00, 0x00, 0x00, 0x12]]).pc.toNat]? = some (word [0x00, 0x00, 0x00, 0x00, 0x00, 0x00, 0x00, 0x00, 0x00, 0x00, 0x00, 0x00, 0x00, 0x00, 0x00, 0x00, 0x12]) ∧
    (word [0x00, 0x00, 0x00, 0x00, 0x00, 0x00, 0x00, 0x00, 0x00, 0x00, 0x00, 0x00, 0x00, 0x00, 0x00, 0x00, 0x12]).sel.toNat ≤ 0x10 ∧ 0x12 ≤ ((word [0x00, 0x00, 0x00, 0x00, 0x00, 0x00, 0x00, 0x00, 0x00, 0x00, 0x00, 0x00, 0x00, 0x00, 0x00, 0x00, 0x12]).ch[(15 : Pos)]).toNat := by decide

theorem witness_ReservedCharacterFaults_high :
    (stWords [word [0x10, 0xFF, 0x00, 0x00, 0x00, 0x00, 0x00, 0x00, 0x00, 0x00, 0x00, 0x00, 0x00, 0x00, 0x00, 0x00, 0x00]]).runstate = .running ∧
    (stWords [word [0x10, 0xFF, 0x00, 0x00, 0x00, 0x00, 0x00, 0x00, 0x00, 0x00, 0x00, 0x00, 0x00, 0x00, 0x00, 0x00, 0x00]]).image[(stWords [word [0x10, 0xFF, 0x00, 0x00, 0x00, 0x00, 0x00, 0x00, 0x00, 0x00, 0x00, 0x00, 0x00, 0x00, 0x00, 0x00, 0x00]]).pc.toNat]? = some (word [0x10, 0xFF, 0x00, 0x00, 0x00, 0x00, 0x00, 0x00, 0x00, 0x00, 0x00, 0x00, 0x00, 0x00, 0x00, 0x00, 0x00]) ∧
    (word [0x10, 0xFF, 0x00, 0x00, 0x00, 0x00, 0x00, 0x00, 0x00, 0x00, 0x00, 0x00, 0x00, 0x00, 0x00, 0x00, 0x00]).sel.toNat ≤ 0x10 ∧ 0x12 ≤ ((word [0x10, 0xFF, 0x00, 0x00, 0x00, 0x00, 0x00, 0x00, 0x00, 0x00, 0x00, 0x00, 0x00, 0x00, 0x00, 0x00, 0x00]).ch[(0 : Pos)]).toNat := by decide

theorem witness_MultiOnlyInSingleFaults_low :
    (stWords [word [0x00, 0x03, 0x00, 0x00, 0x00, 0x00, 0x00, 0x00, 0x00, 0x00, 0x00, 0x00, 0x00, 0x00, 0x00, 0x00, 0x00]]).runstate = .running ∧
    (stWords [word [0x00, 0x03, 0x00, 0x00, 0x00, 0x00, 0x00, 0x00, 0x00, 0x00, 0x00, 0x00, 0x00, 0x00, 0x00, 0x00, 0x00]]).image[(stWords [word [0x00, 0x03, 0x00, 0x00, 0x00, 0x00, 0x00, 0x00, 0x00, 0x00, 0x00, 0x00, 0x00, 0x00, 0x00, 0x00, 0x00]]).pc.toNat]? = some (word [0x00, 0x03, 0x00, 0x00, 0x00, 0x00, 0x00, 0x00, 0x00, 0x00, 0x00, 0x00, 0x00, 0x00, 0x00, 0x00, 0x00]) ∧
    (word [0x00, 0x03, 0x00, 0x00, 0x00, 0x00, 0x00, 0x00, 0x00, 0x00, 0x00, 0x00, 0x00, 0x00, 0x00, 0x00, 0x00]).sel.toNat < 0x10 ∧ (∀ q : Pos, ((word [0x00, 0x03, 0x00, 0x00, 0x00, 0x00, 0x00, 0x00, 0x00, 0x00, 0x00, 0x00, 0x00, 0x00, 0x00, 0x00, 0x00]).ch[q]).toNat < 0x12) ∧
    ((word [0x00, 0x03, 0x00, 0x00, 0x00, 0x00, 0x00, 0x00, 0x00, 0x00, 0x00, 0x00, 0x00, 0x00, 0x00, 0x00, 0x00]).ch[(0 : Pos)]).toNat ∈ [0x03, 0x04, 0x0F, 0x10, 0x11] := by decide

theorem witness_MultiOnlyInSingleFaults_high :
    (stWords [word [0x0F, 0x00, 0x00, 0x00, 0x01, 0x00, 0x00, 0x00, 0x00, 0x00, 0x00, 0x00, 0x00, 0x00, 0x00, 0x00, 0x11]]).runstate = .running ∧
    (stWords [word [0x0F, 0x00, 0x00, 0x00, 0x01, 0x00, 0x00, 0x00, 0x00, 0x00, 0x00, 0x00, 0x00, 0x00, 0x00, 0x00, 0x11]]).image[(stWords [word [0x0F, 0x00, 0x00, 0x00, 0x01, 0x00, 0x00, 0x00, 0x00, 0x00, 0x00, 0x00, 0x00, 0x00, 0x00, 0x00, 0x11]]).pc.toNat]? = some (word [0x0F, 0x00, 0x00, 0x00, 0x01, 0x00, 0x00, 0x00, 0x00, 0x00, 0x00, 0x00, 0x00, 0x00, 0x00, 0x00, 0x11]) ∧
    (word [0x0F, 0x00, 0x00, 0x00, 0x01, 0x00, 0x00, 0x00, 0x00, 0x00, 0x00, 0x00, 0x00, 0x00, 0x00, 0x00, 0x11]).sel.toNat < 0x10 ∧ (∀ q : Pos, ((word [0x0F, 0x00, 0x00, 0x00, 0x01, 0x00, 0x00, 0x00, 0x00, 0x00, 0x00, 0x00, 0x00, 0x00, 0x00, 0x00, 0x11]).ch[q]).toNat < 0x12) ∧
    ((word [0x0F, 0x00, 0x00, 0x00, 0x01, 0x00, 0x00, 0x00, 0x00, 0x00, 0x00, 0x00, 0x00, 0x00, 0x00, 0x00, 0x11]).ch[(15 : Pos)]).toNat ∈ [0x03, 0x04, 0x0F, 0x10, 0x11] := by decide

theorem witness_EndMarkerWithNonZeroSlotFaults :
    (stWords [word [0xFF, 0x00, 0x00, 0x00, 0x00, 0x00, 0x00, 0x00, 0x00, 0x00, 0x00, 0x00, 0x00, 0x00, 0x00, 0x00, 0x01]]).runstate = .running ∧
    (stWords [word [0xFF, 0x00, 0x00, 0x00, 0x00, 0x00, 0x00, 0x00, 0x00, 0x00, 0x00, 0x00, 0x00, 0x00, 0x00, 0x00, 0x01]]).image[(stWords [word [0xFF, 0x00, 0x00, 0x00, 0x00, 0x00, 0x00, 0x00, 0x00, 0x00, 0x00, 0x00, 0x00, 0x00, 0x00, 0x00, 0x01]]).pc.toNat]? = some (word [0xFF, 0x00, 0x00, 0x00, 0x00, 0x00, 0x00, 0x00, 0x00, 0x00, 0x00, 0x00, 0x00, 0x00, 0x00, 0x00, 0x01]) ∧
    (word [0xFF, 0x00, 0x00, 0x00, 0x00, 0x00, 0x00, 0x00, 0x00, 0x00, 0x00, 0x00, 0x00, 0x00, 0x00, 0x00, 0x01]).sel = 0xFF ∧ (word [0xFF, 0x00, 0x00, 0x00, 0x00, 0x00, 0x00, 0x00, 0x00, 0x00, 0x00, 0x00, 0x00, 0x00, 0x00, 0x00, 0x01]).ch[(15 : Pos)] ≠ 0x00 := by decide

theorem witness_StepRunsDecodedInstruction :
    (stWords [word [0x03, 0x0D, 0x00, 0x00, 0x00, 0x00, 0x00, 0x00, 0x00, 0x00, 0x00, 0x00, 0x00, 0x00, 0x00, 0x00, 0x00]]).runstate = .running ∧
    (stWords [word [0x03, 0x0D, 0x00, 0x00, 0x00, 0x00, 0x00, 0x00, 0x00, 0x00, 0x00, 0x00, 0x00, 0x00, 0x00, 0x00, 0x00]]).image[(stWords [word [0x03, 0x0D, 0x00, 0x00, 0x00, 0x00, 0x00, 0x00, 0x00, 0x00, 0x00, 0x00, 0x00, 0x00, 0x00, 0x00, 0x00]]).pc.toNat]? = some (word [0x03, 0x0D, 0x00, 0x00, 0x00, 0x00, 0x00, 0x00, 0x00, 0x00, 0x00, 0x00, 0x00, 0x00, 0x00, 0x00, 0x00]) ∧
    decode (word [0x03, 0x0D, 0x00, 0x00, 0x00, 0x00, 0x00, 0x00, 0x00, 0x00, 0x00, 0x00, 0x00, 0x00, 0x00, 0x00, 0x00]) = .ok (.single 3 #v[.one, .noop, .noop, .noop, .noop, .noop, .noop, .noop, .noop, .noop, .noop, .noop, .noop, .noop, .noop, .noop]) := by decide

theorem witness_StepRunsResolvedRun :
    (st [] ["M C....... ........", "M ...C.... ........"]).runstate = .running ∧
    decodeRun ((st [] ["M C....... ........", "M ...C.... ........"]).image.drop 0) = .ok (.copy ⟨.multi, 1⟩ ⟨.multi, 8⟩) ∧ (st [] ["M C....... ........", "M ...C.... ........"]).pc.toNat = 0 := by decide

/-- A fault of the resolver at the head row, at a later row, and of the fetch. -/
theorem witness_ResolverFaultIsTaken :
    (st [] ["M A....... ........"]).runstate = .running ∧
    decodeRun (st [] ["M A....... ........"]).image = .error ⟨0, .headSink⟩ ∧
    decodeRun (st [] ["M C....... ........", "M ........ ........"]).image = .error ⟨1, .sinkKind⟩ ∧
    decodeRun [] = .error ⟨0, .noRow⟩ := by decide

theorem witness_FetchBeyondImageFaults :
    State.reset.runstate = .running ∧ State.reset.image.length ≤ State.reset.pc.toNat ∧
    ({ st [] [] with x := regs [(14, 1)] }).runstate = .running ∧
    ({ st [] [] with x := regs [(14, 1)] }).image.length = ({ st [] [] with x := regs [(14, 1)] }).pc.toNat := by decide

theorem witness_TerminalStatesKeepEverything :
    ({ State.reset with runstate := .halted }).runstate = .halted ∧
    (faultedAt State.reset 1 0 5).runstate = .faulted := by decide

theorem witness_EndMarkerHalts :
    (stWords []).runstate = .running ∧
    (stWords []).image[(stWords []).pc.toNat]? = some endWord := by decide

/-- As many bytes as positions exactly, and none of either. -/
theorem witness_ReadStdinResult :
    (stIn [] [1, 2]).stdinPos + popcount 0x8001 = (stIn [] [1, 2]).stdin.length ∧
    (stIn [] []).stdinPos + popcount 0 ≤ (stIn [] []).stdin.length := by decide

theorem witness_ReadStdinWaitsOrIsStuck_closed :
    (stIn ["M II...... ........"] [0x30]).runstate = .running ∧
    rowAt (stIn ["M II...... ........"] [0x30]) 0 = some (.row ⟨.multi, #v[.readStdin, .readStdin, .noop, .noop, .noop, .noop, .noop, .noop, .noop, .noop, .noop, .noop, .noop, .noop, .noop, .noop]⟩) ∧
    (Row.kinds ⟨.multi, #v[.readStdin, .readStdin, .noop, .noop, .noop, .noop, .noop, .noop, .noop, .noop, .noop, .noop, .noop, .noop, .noop, .noop]⟩).all Character.isLocal = true ∧
    (stIn ["M II...... ........"] [0x30]).stdinPos ≤ (stIn ["M II...... ........"] [0x30]).stdin.length ∧
    (stIn ["M II...... ........"] [0x30]).stdin.length < (stIn ["M II...... ........"] [0x30]).stdinPos + Row.count ⟨.multi, #v[.readStdin, .readStdin, .noop, .noop, .noop, .noop, .noop, .noop, .noop, .noop, .noop, .noop, .noop, .noop, .noop, .noop]⟩ .readStdin := by decide

theorem witness_ReadStdinWaitsOrIsStuck_open :
    ({ stIn ["M II...... ........"] [0x30] with stdinClosed := false }).runstate = .running ∧
    rowAt ({ stIn ["M II...... ........"] [0x30] with stdinClosed := false }) 0 = some (.row ⟨.multi, #v[.readStdin, .readStdin, .noop, .noop, .noop, .noop, .noop, .noop, .noop, .noop, .noop, .noop, .noop, .noop, .noop, .noop]⟩) ∧
    (Row.kinds ⟨.multi, #v[.readStdin, .readStdin, .noop, .noop, .noop, .noop, .noop, .noop, .noop, .noop, .noop, .noop, .noop, .noop, .noop, .noop]⟩).all Character.isLocal = true ∧
    ({ stIn ["M II...... ........"] [0x30] with stdinClosed := false }).stdinPos ≤ ({ stIn ["M II...... ........"] [0x30] with stdinClosed := false }).stdin.length ∧
    ({ stIn ["M II...... ........"] [0x30] with stdinClosed := false }).stdin.length < ({ stIn ["M II...... ........"] [0x30] with stdinClosed := false }).stdinPos + Row.count ⟨.multi, #v[.readStdin, .readStdin, .noop, .noop, .noop, .noop, .noop, .noop, .noop, .noop, .noop, .noop, .noop, .noop, .noop, .noop]⟩ .readStdin := by decide

theorem witness_LocalRowResult_multi :
    (Row.mk .multi #v[.one, .noop, .zero, .noop, .readStdin, .noop, .writeStdout, .noop, .noop, .random, .noop, .noop, .noop, .noop, .noop, .noop]).kinds.all Character.isLocal = true ∧
    (stIn [] [0x7F]).stdinPos + (Row.mk .multi #v[.one, .noop, .zero, .noop, .readStdin, .noop, .writeStdout, .noop, .noop, .random, .noop, .noop, .noop, .noop, .noop, .noop]).count .readStdin ≤ (stIn [] [0x7F]).stdin.length := by decide

theorem witness_LocalRowResult_single :
    noMultiOnly #v[.one, .noop, .zero, .noop, .noop, .noop, .noop, .noop, .noop, .random, .noop, .noop, .noop, .noop, .noop, .noop] = true ∧
    (Row.mk (.single 7) #v[.one, .noop, .zero, .noop, .noop, .noop, .noop, .noop, .noop, .random, .noop, .noop, .noop, .noop, .noop, .noop]).kinds.all Character.isLocal = true := by decide

theorem witness_CopyResult :
    (Marked.mk .multi 0x8001).count = (Marked.mk (.single 14) 0x4004).count ∧
    (Marked.mk .multi 0).count = (Marked.mk .multi 0).count ∧
    (Marked.mk .multi 0xFFFF).count = (Marked.mk (.single 3) 0xFFFF).count := by decide

theorem witness_CutResult :
    (Marked.mk (.single 4) 3).count = (Marked.mk (.single 4) 6).count ∧
    (Marked.mk .multi 0xFFFF).count = (Marked.mk .multi 0xFFFF).count := by decide

/-- The highest readable address. -/
theorem witness_PointerReadResult :
    popcount 0x0002 = popcount 0x4000 ∧
    ∀ a ∈ elements (st [(1, 2)] [] [0x11, 0x22, 0x33]) ⟨.multi, 0x0002⟩,
      a < (st [(1, 2)] [] [0x11, 0x22, 0x33]).mem.len := by decide

/-- The lowest address that is not readable. -/
theorem witness_PointerReadOutOfBoundsFaults :
    3 ∈ elements (st [(1, 3)] [] [0x11, 0x22, 0x33]) ⟨.multi, 0x0002⟩ ∧
    (st [(1, 3)] [] [0x11, 0x22, 0x33]).mem.len ≤ 3 := by decide

theorem witness_NoFollowingRowFaults_end :
    (st [] ["M C....... ........"]).runstate = .running ∧
    rowAt (st [] ["M C....... ........"]) 0 = some (.row ⟨.multi, #v[.copy, .noop, .noop, .noop, .noop, .noop, .noop, .noop, .noop, .noop, .noop, .noop, .noop, .noop, .noop, .noop]⟩) ∧
    Row.kinds ⟨.multi, #v[.copy, .noop, .noop, .noop, .noop, .noop, .noop, .noop, .noop, .noop, .noop, .noop, .noop, .noop, .noop, .noop]⟩ = [Source.copy.char] ∧ rowAt (st [] ["M C....... ........"]) 1 = some .endMarker := by decide

theorem witness_NoFollowingRowFaults_last :
    ({ st [] [] with image := [word [0x10, 0x03, 0x00, 0x00, 0x00, 0x00, 0x00, 0x00, 0x00, 0x00, 0x00, 0x00, 0x00, 0x00, 0x00, 0x00, 0x00]] }).runstate = .running ∧
    rowAt ({ st [] [] with image := [word [0x10, 0x03, 0x00, 0x00, 0x00, 0x00, 0x00, 0x00, 0x00, 0x00, 0x00, 0x00, 0x00, 0x00, 0x00, 0x00, 0x00]] }) 0 = some (.row ⟨.multi, #v[.pointerRead, .noop, .noop, .noop, .noop, .noop, .noop, .noop, .noop, .noop, .noop, .noop, .noop, .noop, .noop, .noop]⟩) ∧
    Row.kinds ⟨.multi, #v[.pointerRead, .noop, .noop, .noop, .noop, .noop, .noop, .noop, .noop, .noop, .noop, .noop, .noop, .noop, .noop, .noop]⟩ = [Source.pointerRead.char] ∧
    ({ st [] [] with image := [word [0x10, 0x03, 0x00, 0x00, 0x00, 0x00, 0x00, 0x00, 0x00, 0x00, 0x00, 0x00, 0x00, 0x00, 0x00, 0x00, 0x00]] }).image.length ≤ ({ st [] [] with image := [word [0x10, 0x03, 0x00, 0x00, 0x00, 0x00, 0x00, 0x00, 0x00, 0x00, 0x00, 0x00, 0x00, 0x00, 0x00, 0x00, 0x00]] }).pc.toNat + 1 := by decide

theorem witness_SinkMixedFaults :
    (st [] ["M X....... ........", "M .AW..... ........"]).runstate = .running ∧
    rowAt (st [] ["M X....... ........", "M .AW..... ........"]) 0 = some (.row ⟨.multi, #v[.cut, .noop, .noop, .noop, .noop, .noop, .noop, .noop, .noop, .noop, .noop, .noop, .noop, .noop, .noop, .noop]⟩) ∧
    Row.kinds ⟨.multi, #v[.cut, .noop, .noop, .noop, .noop, .noop, .noop, .noop, .noop, .noop, .noop, .noop, .noop, .noop, .noop, .noop]⟩ = [Source.cut.char] ∧ rowAt (st [] ["M X....... ........", "M .AW..... ........"]) 1 = some (.row ⟨.multi, #v[.noop, .allocate, .pointerWrite, .noop, .noop, .noop, .noop, .noop, .noop, .noop, .noop, .noop, .noop, .noop, .noop, .noop]⟩) ∧
    2 ≤ (Row.kinds ⟨.multi, #v[.noop, .allocate, .pointerWrite, .noop, .noop, .noop, .noop, .noop, .noop, .noop, .noop, .noop, .noop, .noop, .noop, .noop]⟩).length := by decide

theorem witness_SinkKindFaults_other :
    (st [] ["M C....... ........", "M .+...... ........"]).runstate = .running ∧
    rowAt (st [] ["M C....... ........", "M .+...... ........"]) 0 = some (.row ⟨.multi, #v[.copy, .noop, .noop, .noop, .noop, .noop, .noop, .noop, .noop, .noop, .noop, .noop, .noop, .noop, .noop, .noop]⟩) ∧
    Row.kinds ⟨.multi, #v[.copy, .noop, .noop, .noop, .noop, .noop, .noop, .noop, .noop, .noop, .noop, .noop, .noop, .noop, .noop, .noop]⟩ = [Source.copy.char] ∧ rowAt (st [] ["M C....... ........", "M .+...... ........"]) 1 = some (.row ⟨.multi, #v[.noop, .add, .noop, .noop, .noop, .noop, .noop, .noop, .noop, .noop, .noop, .noop, .noop, .noop, .noop, .noop]⟩) ∧
    (Row.kinds ⟨.multi, #v[.noop, .add, .noop, .noop, .noop, .noop, .noop, .noop, .noop, .noop, .noop, .noop, .noop, .noop, .noop, .noop]⟩).length ≤ 1 ∧
    Source.copy.char ∉ Row.kinds ⟨.multi, #v[.noop, .add, .noop, .noop, .noop, .noop, .noop, .noop, .noop, .noop, .noop, .noop, .noop, .noop, .noop, .noop]⟩ ∧ Character.allocate ∉ Row.kinds ⟨.multi, #v[.noop, .add, .noop, .noop, .noop, .noop, .noop, .noop, .noop, .noop, .noop, .noop, .noop, .noop, .noop, .noop]⟩ ∧
    Character.pointerWrite ∉ Row.kinds ⟨.multi, #v[.noop, .add, .noop, .noop, .noop, .noop, .noop, .noop, .noop, .noop, .noop, .noop, .noop, .noop, .noop, .noop]⟩ := by decide

theorem witness_SinkKindFaults_noop :
    (st [] ["M C....... ........", "M ........ ........"]).runstate = .running ∧
    rowAt (st [] ["M C....... ........", "M ........ ........"]) 0 = some (.row ⟨.multi, #v[.copy, .noop, .noop, .noop, .noop, .noop, .noop, .noop, .noop, .noop, .noop, .noop, .noop, .noop, .noop, .noop]⟩) ∧
    Row.kinds ⟨.multi, #v[.copy, .noop, .noop, .noop, .noop, .noop, .noop, .noop, .noop, .noop, .noop, .noop, .noop, .noop, .noop, .noop]⟩ = [Source.copy.char] ∧ rowAt (st [] ["M C....... ........", "M ........ ........"]) 1 = some (.row ⟨.multi, #v[.noop, .noop, .noop, .noop, .noop, .noop, .noop, .noop, .noop, .noop, .noop, .noop, .noop, .noop, .noop, .noop]⟩) ∧
    (Row.kinds ⟨.multi, #v[.noop, .noop, .noop, .noop, .noop, .noop, .noop, .noop, .noop, .noop, .noop, .noop, .noop, .noop, .noop, .noop]⟩).length ≤ 1 ∧
    Source.copy.char ∉ Row.kinds ⟨.multi, #v[.noop, .noop, .noop, .noop, .noop, .noop, .noop, .noop, .noop, .noop, .noop, .noop, .noop, .noop, .noop, .noop]⟩ ∧ Character.allocate ∉ Row.kinds ⟨.multi, #v[.noop, .noop, .noop, .noop, .noop, .noop, .noop, .noop, .noop, .noop, .noop, .noop, .noop, .noop, .noop, .noop]⟩ ∧
    Character.pointerWrite ∉ Row.kinds ⟨.multi, #v[.noop, .noop, .noop, .noop, .noop, .noop, .noop, .noop, .noop, .noop, .noop, .noop, .noop, .noop, .noop, .noop]⟩ := by decide

theorem witness_SinkCountFaults_copy :
    (st [] ["M C....... ........", "M .CC..... ........"]).runstate = .running ∧
    rowAt (st [] ["M C....... ........", "M .CC..... ........"]) 0 = some (.row ⟨.multi, #v[.copy, .noop, .noop, .noop, .noop, .noop, .noop, .noop, .noop, .noop, .noop, .noop, .noop, .noop, .noop, .noop]⟩) ∧
    Row.kinds ⟨.multi, #v[.copy, .noop, .noop, .noop, .noop, .noop, .noop, .noop, .noop, .noop, .noop, .noop, .noop, .noop, .noop, .noop]⟩ = [Source.copy.char] ∧ rowAt (st [] ["M C....... ........", "M .CC..... ........"]) 1 = some (.row ⟨.multi, #v[.noop, .copy, .copy, .noop, .noop, .noop, .noop, .noop, .noop, .noop, .noop, .noop, .noop, .noop, .noop, .noop]⟩) ∧
    Character.copy ∈ [Source.copy.char, .allocate, .pointerWrite] ∧ Row.kinds ⟨.multi, #v[.noop, .copy, .copy, .noop, .noop, .noop, .noop, .noop, .noop, .noop, .noop, .noop, .noop, .noop, .noop, .noop]⟩ = [.copy] ∧
    Row.count ⟨.multi, #v[.noop, .copy, .copy, .noop, .noop, .noop, .noop, .noop, .noop, .noop, .noop, .noop, .noop, .noop, .noop, .noop]⟩ .copy ≠ Row.count ⟨.multi, #v[.copy, .noop, .noop, .noop, .noop, .noop, .noop, .noop, .noop, .noop, .noop, .noop, .noop, .noop, .noop, .noop]⟩ Source.copy.char := by decide

theorem witness_SinkCountFaults_allocate :
    (st [] ["M C....... ........", "M .AA..... ........"]).runstate = .running ∧
    rowAt (st [] ["M C....... ........", "M .AA..... ........"]) 0 = some (.row ⟨.multi, #v[.copy, .noop, .noop, .noop, .noop, .noop, .noop, .noop, .noop, .noop, .noop, .noop, .noop, .noop, .noop, .noop]⟩) ∧
    Row.kinds ⟨.multi, #v[.copy, .noop, .noop, .noop, .noop, .noop, .noop, .noop, .noop, .noop, .noop, .noop, .noop, .noop, .noop, .noop]⟩ = [Source.copy.char] ∧ rowAt (st [] ["M C....... ........", "M .AA..... ........"]) 1 = some (.row ⟨.multi, #v[.noop, .allocate, .allocate, .noop, .noop, .noop, .noop, .noop, .noop, .noop, .noop, .noop, .noop, .noop, .noop, .noop]⟩) ∧
    Character.allocate ∈ [Source.copy.char, .allocate, .pointerWrite] ∧ Row.kinds ⟨.multi, #v[.noop, .allocate, .allocate, .noop, .noop, .noop, .noop, .noop, .noop, .noop, .noop, .noop, .noop, .noop, .noop, .noop]⟩ = [.allocate] ∧
    Row.count ⟨.multi, #v[.noop, .allocate, .allocate, .noop, .noop, .noop, .noop, .noop, .noop, .noop, .noop, .noop, .noop, .noop, .noop, .noop]⟩ .allocate ≠ Row.count ⟨.multi, #v[.copy, .noop, .noop, .noop, .noop, .noop, .noop, .noop, .noop, .noop, .noop, .noop, .noop, .noop, .noop, .noop]⟩ Source.copy.char := by decide

theorem witness_SinkCountFaults_pointerWrite :
    (st [] ["M C....... ........", "M .WW..... ........"]).runstate = .running ∧
    rowAt (st [] ["M C....... ........", "M .WW..... ........"]) 0 = some (.row ⟨.multi, #v[.copy, .noop, .noop, .noop, .noop, .noop, .noop, .noop, .noop, .noop, .noop, .noop, .noop, .noop, .noop, .noop]⟩) ∧
    Row.kinds ⟨.multi, #v[.copy, .noop, .noop, .noop, .noop, .noop, .noop, .noop, .noop, .noop, .noop, .noop, .noop, .noop, .noop, .noop]⟩ = [Source.copy.char] ∧ rowAt (st [] ["M C....... ........", "M .WW..... ........"]) 1 = some (.row ⟨.multi, #v[.noop, .pointerWrite, .pointerWrite, .noop, .noop, .noop, .noop, .noop, .noop, .noop, .noop, .noop, .noop, .noop, .noop, .noop]⟩) ∧
    Character.pointerWrite ∈ [Source.copy.char, .allocate, .pointerWrite] ∧ Row.kinds ⟨.multi, #v[.noop, .pointerWrite, .pointerWrite, .noop, .noop, .noop, .noop, .noop, .noop, .noop, .noop, .noop, .noop, .noop, .noop, .noop]⟩ = [.pointerWrite] ∧
    Row.count ⟨.multi, #v[.noop, .pointerWrite, .pointerWrite, .noop, .noop, .noop, .noop, .noop, .noop, .noop, .noop, .noop, .noop, .noop, .noop, .noop]⟩ .pointerWrite ≠ Row.count ⟨.multi, #v[.copy, .noop, .noop, .noop, .noop, .noop, .noop, .noop, .noop, .noop, .noop, .noop, .noop, .noop, .noop, .noop]⟩ Source.copy.char := by decide

/-- Rows that some chain has: AddResult, SubResult, MulResult, AndResult, OrResult, XorResult. -/
theorem witness_ChainResults : ([⟨.multi, 2⟩] : List Marked) ≠ [] := by
  decide

/-- A dividend of 0, divisors that are not. -/
theorem witness_DivResult :
    ([⟨.multi, 2⟩, ⟨.multi, 4⟩] : List Marked) ≠ [] ∧
    value (st [(1, 1), (2, 9)] []) ⟨.multi, 1⟩ = 0 ∧
    ∀ m ∈ ([⟨.multi, 2⟩, ⟨.multi, 4⟩] : List Marked), value (st [(1, 1), (2, 9)] []) m ≠ 0 := by decide

/-- The first divisor, and a later one. -/
theorem witness_DivByZeroFaults :
    (∀ d ∈ ([] : List Marked), value (st [(1, 1)] []) d ≠ 0) ∧
    (∀ d ∈ ([⟨.multi, 2⟩] : List Marked), value (st [(1, 1)] []) d ≠ 0) ∧
    value (st [(1, 1)] []) ⟨.multi, 4⟩ = 0 := by decide

theorem witness_EmptyChainFaults_end :
    (st [] ["M +....... ........"]).runstate = .running ∧
    rowAt (st [] ["M +....... ........"]) 0 = some (.row ⟨.multi, #v[.add, .noop, .noop, .noop, .noop, .noop, .noop, .noop, .noop, .noop, .noop, .noop, .noop, .noop, .noop, .noop]⟩) ∧
    Row.kinds ⟨.multi, #v[.add, .noop, .noop, .noop, .noop, .noop, .noop, .noop, .noop, .noop, .noop, .noop, .noop, .noop, .noop, .noop]⟩ = [Operate.add.char] ∧ endsChain (st [] ["M +....... ........"]) .add 1 = true := by decide

theorem witness_EmptyChainFaults_other :
    (st [] ["M +....... ........", "M .-...... ........"]).runstate = .running ∧
    rowAt (st [] ["M +....... ........", "M .-...... ........"]) 0 = some (.row ⟨.multi, #v[.add, .noop, .noop, .noop, .noop, .noop, .noop, .noop, .noop, .noop, .noop, .noop, .noop, .noop, .noop, .noop]⟩) ∧
    Row.kinds ⟨.multi, #v[.add, .noop, .noop, .noop, .noop, .noop, .noop, .noop, .noop, .noop, .noop, .noop, .noop, .noop, .noop, .noop]⟩ = [Operate.add.char] ∧ endsChain (st [] ["M +....... ........", "M .-...... ........"]) .add 1 = true := by decide

theorem witness_EmptyChainFaults_last :
    ({ st [] [] with image := [word [0x10, 0x05, 0x00, 0x00, 0x00, 0x00, 0x00, 0x00, 0x00, 0x00, 0x00, 0x00, 0x00, 0x00, 0x00, 0x00, 0x00]] }).runstate = .running ∧
    rowAt ({ st [] [] with image := [word [0x10, 0x05, 0x00, 0x00, 0x00, 0x00, 0x00, 0x00, 0x00, 0x00, 0x00, 0x00, 0x00, 0x00, 0x00, 0x00, 0x00]] }) 0 = some (.row ⟨.multi, #v[.add, .noop, .noop, .noop, .noop, .noop, .noop, .noop, .noop, .noop, .noop, .noop, .noop, .noop, .noop, .noop]⟩) ∧
    Row.kinds ⟨.multi, #v[.add, .noop, .noop, .noop, .noop, .noop, .noop, .noop, .noop, .noop, .noop, .noop, .noop, .noop, .noop, .noop]⟩ = [Operate.add.char] ∧ endsChain ({ st [] [] with image := [word [0x10, 0x05, 0x00, 0x00, 0x00, 0x00, 0x00, 0x00, 0x00, 0x00, 0x00, 0x00, 0x00, 0x00, 0x00, 0x00, 0x00]] }) .add 1 = true := by decide

theorem witness_ChainCountFaults_first :
    (st [] ["M +....... ........", "M .++..... ........"]).runstate = .running ∧
    rowAt (st [] ["M +....... ........", "M .++..... ........"]) 0 = some (.row ⟨.multi, #v[.add, .noop, .noop, .noop, .noop, .noop, .noop, .noop, .noop, .noop, .noop, .noop, .noop, .noop, .noop, .noop]⟩) ∧
    Row.kinds ⟨.multi, #v[.add, .noop, .noop, .noop, .noop, .noop, .noop, .noop, .noop, .noop, .noop, .noop, .noop, .noop, .noop, .noop]⟩ = [Operate.add.char] ∧
    (∀ k, k < 0 → continuesChain (st [] ["M +....... ........", "M .++..... ........"]) .add (Row.count ⟨.multi, #v[.add, .noop, .noop, .noop, .noop, .noop, .noop, .noop, .noop, .noop, .noop, .noop, .noop, .noop, .noop, .noop]⟩ Operate.add.char) (1 + k) = true) ∧
    rowAt (st [] ["M +....... ........", "M .++..... ........"]) (1 + 0) = some (.row ⟨.multi, #v[.noop, .add, .add, .noop, .noop, .noop, .noop, .noop, .noop, .noop, .noop, .noop, .noop, .noop, .noop, .noop]⟩) ∧
    Row.count ⟨.multi, #v[.noop, .add, .add, .noop, .noop, .noop, .noop, .noop, .noop, .noop, .noop, .noop, .noop, .noop, .noop, .noop]⟩ Operate.add.char ≠ 0 ∧
    Row.count ⟨.multi, #v[.noop, .add, .add, .noop, .noop, .noop, .noop, .noop, .noop, .noop, .noop, .noop, .noop, .noop, .noop, .noop]⟩ Operate.add.char ≠ Row.count ⟨.multi, #v[.add, .noop, .noop, .noop, .noop, .noop, .noop, .noop, .noop, .noop, .noop, .noop, .noop, .noop, .noop, .noop]⟩ Operate.add.char := by decide

theorem witness_ChainCountFaults_later :
    (st [] ["M +....... ........", "M .+...... ........", "R3 ++...... ........"]).runstate = .running ∧
    rowAt (st [] ["M +....... ........", "M .+...... ........", "R3 ++...... ........"]) 0 = some (.row ⟨.multi, #v[.add, .noop, .noop, .noop, .noop, .noop, .noop, .noop, .noop, .noop, .noop, .noop, .noop, .noop, .noop, .noop]⟩) ∧
    Row.kinds ⟨.multi, #v[.add, .noop, .noop, .noop, .noop, .noop, .noop, .noop, .noop, .noop, .noop, .noop, .noop, .noop, .noop, .noop]⟩ = [Operate.add.char] ∧
    (∀ k, k < 1 → continuesChain (st [] ["M +....... ........", "M .+...... ........", "R3 ++...... ........"]) .add (Row.count ⟨.multi, #v[.add, .noop, .noop, .noop, .noop, .noop, .noop, .noop, .noop, .noop, .noop, .noop, .noop, .noop, .noop, .noop]⟩ Operate.add.char) (1 + k) = true) ∧
    rowAt (st [] ["M +....... ........", "M .+...... ........", "R3 ++...... ........"]) (1 + 1) = some (.row ⟨.single 3, #v[.add, .add, .noop, .noop, .noop, .noop, .noop, .noop, .noop, .noop, .noop, .noop, .noop, .noop, .noop, .noop]⟩) ∧
    Row.count ⟨.single 3, #v[.add, .add, .noop, .noop, .noop, .noop, .noop, .noop, .noop, .noop, .noop, .noop, .noop, .noop, .noop, .noop]⟩ Operate.add.char ≠ 0 ∧
    Row.count ⟨.single 3, #v[.add, .add, .noop, .noop, .noop, .noop, .noop, .noop, .noop, .noop, .noop, .noop, .noop, .noop, .noop, .noop]⟩ Operate.add.char ≠ Row.count ⟨.multi, #v[.add, .noop, .noop, .noop, .noop, .noop, .noop, .noop, .noop, .noop, .noop, .noop, .noop, .noop, .noop, .noop]⟩ Operate.add.char := by decide

theorem witness_ChainMixedFaults_first :
    (st [] ["M +....... ........", "M .+..-... ........"]).runstate = .running ∧
    rowAt (st [] ["M +....... ........", "M .+..-... ........"]) 0 = some (.row ⟨.multi, #v[.add, .noop, .noop, .noop, .noop, .noop, .noop, .noop, .noop, .noop, .noop, .noop, .noop, .noop, .noop, .noop]⟩) ∧
    Row.kinds ⟨.multi, #v[.add, .noop, .noop, .noop, .noop, .noop, .noop, .noop, .noop, .noop, .noop, .noop, .noop, .noop, .noop, .noop]⟩ = [Operate.add.char] ∧
    (∀ k, k < 0 → continuesChain (st [] ["M +....... ........", "M .+..-... ........"]) .add (Row.count ⟨.multi, #v[.add, .noop, .noop, .noop, .noop, .noop, .noop, .noop, .noop, .noop, .noop, .noop, .noop, .noop, .noop, .noop]⟩ Operate.add.char) (1 + k) = true) ∧
    rowAt (st [] ["M +....... ........", "M .+..-... ........"]) (1 + 0) = some (.row ⟨.multi, #v[.noop, .add, .noop, .noop, .sub, .noop, .noop, .noop, .noop, .noop, .noop, .noop, .noop, .noop, .noop, .noop]⟩) ∧
    Row.count ⟨.multi, #v[.noop, .add, .noop, .noop, .sub, .noop, .noop, .noop, .noop, .noop, .noop, .noop, .noop, .noop, .noop, .noop]⟩ Operate.add.char = Row.count ⟨.multi, #v[.add, .noop, .noop, .noop, .noop, .noop, .noop, .noop, .noop, .noop, .noop, .noop, .noop, .noop, .noop, .noop]⟩ Operate.add.char ∧
    2 ≤ (Row.kinds ⟨.multi, #v[.noop, .add, .noop, .noop, .sub, .noop, .noop, .noop, .noop, .noop, .noop, .noop, .noop, .noop, .noop, .noop]⟩).length := by decide

theorem witness_ChainMixedFaults_later :
    (st [] ["M +....... ........", "M .+...... ........", "M .+..0... ........"]).runstate = .running ∧
    rowAt (st [] ["M +....... ........", "M .+...... ........", "M .+..0... ........"]) 0 = some (.row ⟨.multi, #v[.add, .noop, .noop, .noop, .noop, .noop, .noop, .noop, .noop, .noop, .noop, .noop, .noop, .noop, .noop, .noop]⟩) ∧
    Row.kinds ⟨.multi, #v[.add, .noop, .noop, .noop, .noop, .noop, .noop, .noop, .noop, .noop, .noop, .noop, .noop, .noop, .noop, .noop]⟩ = [Operate.add.char] ∧
    (∀ k, k < 1 → continuesChain (st [] ["M +....... ........", "M .+...... ........", "M .+..0... ........"]) .add (Row.count ⟨.multi, #v[.add, .noop, .noop, .noop, .noop, .noop, .noop, .noop, .noop, .noop, .noop, .noop, .noop, .noop, .noop, .noop]⟩ Operate.add.char) (1 + k) = true) ∧
    rowAt (st [] ["M +....... ........", "M .+...... ........", "M .+..0... ........"]) (1 + 1) = some (.row ⟨.multi, #v[.noop, .add, .noop, .noop, .zero, .noop, .noop, .noop, .noop, .noop, .noop, .noop, .noop, .noop, .noop, .noop]⟩) ∧
    Row.count ⟨.multi, #v[.noop, .add, .noop, .noop, .zero, .noop, .noop, .noop, .noop, .noop, .noop, .noop, .noop, .noop, .noop, .noop]⟩ Operate.add.char = Row.count ⟨.multi, #v[.add, .noop, .noop, .noop, .noop, .noop, .noop, .noop, .noop, .noop, .noop, .noop, .noop, .noop, .noop, .noop]⟩ Operate.add.char ∧
    2 ≤ (Row.kinds ⟨.multi, #v[.noop, .add, .noop, .noop, .zero, .noop, .noop, .noop, .noop, .noop, .noop, .noop, .noop, .noop, .noop, .noop]⟩).length := by decide

theorem witness_LookAheadDecodeFaults_source :
    ({ st [] [] with image := [word [0x10, 0x01, 0x00, 0x00, 0x00, 0x00, 0x00, 0x00, 0x00, 0x00, 0x00, 0x00, 0x00, 0x00, 0x00, 0x00, 0x00],
      word [0x03, 0x03, 0x00, 0x00, 0x00, 0x00, 0x00, 0x00, 0x00, 0x00, 0x00, 0x00, 0x00, 0x00, 0x00, 0x00, 0x00], endWord] }).runstate = .running ∧
    rowAt ({ st [] [] with image := [word [0x10, 0x01, 0x00, 0x00, 0x00, 0x00, 0x00, 0x00, 0x00, 0x00, 0x00, 0x00, 0x00, 0x00, 0x00, 0x00, 0x00],
      word [0x03, 0x03, 0x00, 0x00, 0x00, 0x00, 0x00, 0x00, 0x00, 0x00, 0x00, 0x00, 0x00, 0x00, 0x00, 0x00, 0x00], endWord] }) 0 = some (.row ⟨.multi, #v[.copy, .noop, .noop, .noop, .noop, .noop, .noop, .noop, .noop, .noop, .noop, .noop, .noop, .noop, .noop, .noop]⟩) ∧
    ({ st [] [] with image := [word [0x10, 0x01, 0x00, 0x00, 0x00, 0x00, 0x00, 0x00, 0x00, 0x00, 0x00, 0x00, 0x00, 0x00, 0x00, 0x00, 0x00],
      word [0x03, 0x03, 0x00, 0x00, 0x00, 0x00, 0x00, 0x00, 0x00, 0x00, 0x00, 0x00, 0x00, 0x00, 0x00, 0x00, 0x00], endWord] }).image[({ st [] [] with image := [word [0x10, 0x01, 0x00, 0x00, 0x00, 0x00, 0x00, 0x00, 0x00, 0x00, 0x00, 0x00, 0x00, 0x00, 0x00, 0x00, 0x00],
      word [0x03, 0x03, 0x00, 0x00, 0x00, 0x00, 0x00, 0x00, 0x00, 0x00, 0x00, 0x00, 0x00, 0x00, 0x00, 0x00, 0x00], endWord] }).pc.toNat + 1 + 0]? = some (word [0x03, 0x03, 0x00, 0x00, 0x00, 0x00, 0x00, 0x00, 0x00, 0x00, 0x00, 0x00, 0x00, 0x00, 0x00, 0x00, 0x00]) ∧
    decodeRow (word [0x03, 0x03, 0x00, 0x00, 0x00, 0x00, 0x00, 0x00, 0x00, 0x00, 0x00, 0x00, 0x00, 0x00, 0x00, 0x00, 0x00]) = .error .multiOnlyInSingle ∧
    Row.kinds ⟨.multi, #v[.copy, .noop, .noop, .noop, .noop, .noop, .noop, .noop, .noop, .noop, .noop, .noop, .noop, .noop, .noop, .noop]⟩ = [Source.copy.char] := by decide

theorem witness_LookAheadDecodeFaults_chain :
    ({ st [] [] with image := [word [0x10, 0x05, 0x00, 0x00, 0x00, 0x00, 0x00, 0x00, 0x00, 0x00, 0x00, 0x00, 0x00, 0x00, 0x00, 0x00, 0x00],
      word [0x10, 0x00, 0x05, 0x00, 0x00, 0x00, 0x00, 0x00, 0x00, 0x00, 0x00, 0x00, 0x00, 0x00, 0x00, 0x00, 0x00],
      word [0x03, 0x03, 0x00, 0x00, 0x00, 0x00, 0x00, 0x00, 0x00, 0x00, 0x00, 0x00, 0x00, 0x00, 0x00, 0x00, 0x00], endWord] }).runstate = .running ∧
    rowAt ({ st [] [] with image := [word [0x10, 0x05, 0x00, 0x00, 0x00, 0x00, 0x00, 0x00, 0x00, 0x00, 0x00, 0x00, 0x00, 0x00, 0x00, 0x00, 0x00],
      word [0x10, 0x00, 0x05, 0x00, 0x00, 0x00, 0x00, 0x00, 0x00, 0x00, 0x00, 0x00, 0x00, 0x00, 0x00, 0x00, 0x00],
      word [0x03, 0x03, 0x00, 0x00, 0x00, 0x00, 0x00, 0x00, 0x00, 0x00, 0x00, 0x00, 0x00, 0x00, 0x00, 0x00, 0x00], endWord] }) 0 = some (.row ⟨.multi, #v[.add, .noop, .noop, .noop, .noop, .noop, .noop, .noop, .noop, .noop, .noop, .noop, .noop, .noop, .noop, .noop]⟩) ∧
    ({ st [] [] with image := [word [0x10, 0x05, 0x00, 0x00, 0x00, 0x00, 0x00, 0x00, 0x00, 0x00, 0x00, 0x00, 0x00, 0x00, 0x00, 0x00, 0x00],
      word [0x10, 0x00, 0x05, 0x00, 0x00, 0x00, 0x00, 0x00, 0x00, 0x00, 0x00, 0x00, 0x00, 0x00, 0x00, 0x00, 0x00],
      word [0x03, 0x03, 0x00, 0x00, 0x00, 0x00, 0x00, 0x00, 0x00, 0x00, 0x00, 0x00, 0x00, 0x00, 0x00, 0x00, 0x00], endWord] }).image[({ st [] [] with image := [word [0x10, 0x05, 0x00, 0x00, 0x00, 0x00, 0x00, 0x00, 0x00, 0x00, 0x00, 0x00, 0x00, 0x00, 0x00, 0x00, 0x00],
      word [0x10, 0x00, 0x05, 0x00, 0x00, 0x00, 0x00, 0x00, 0x00, 0x00, 0x00, 0x00, 0x00, 0x00, 0x00, 0x00, 0x00],
      word [0x03, 0x03, 0x00, 0x00, 0x00, 0x00, 0x00, 0x00, 0x00, 0x00, 0x00, 0x00, 0x00, 0x00, 0x00, 0x00, 0x00], endWord] }).pc.toNat + 1 + 1]? = some (word [0x03, 0x03, 0x00, 0x00, 0x00, 0x00, 0x00, 0x00, 0x00, 0x00, 0x00, 0x00, 0x00, 0x00, 0x00, 0x00, 0x00]) ∧
    decodeRow (word [0x03, 0x03, 0x00, 0x00, 0x00, 0x00, 0x00, 0x00, 0x00, 0x00, 0x00, 0x00, 0x00, 0x00, 0x00, 0x00, 0x00]) = .error .multiOnlyInSingle ∧
    Row.kinds ⟨.multi, #v[.add, .noop, .noop, .noop, .noop, .noop, .noop, .noop, .noop, .noop, .noop, .noop, .noop, .noop, .noop, .noop]⟩ = [Operate.add.char] ∧
    ∀ k, k < 1 → continuesChain ({ st [] [] with image := [word [0x10, 0x05, 0x00, 0x00, 0x00, 0x00, 0x00, 0x00, 0x00, 0x00, 0x00, 0x00, 0x00, 0x00, 0x00, 0x00, 0x00],
      word [0x10, 0x00, 0x05, 0x00, 0x00, 0x00, 0x00, 0x00, 0x00, 0x00, 0x00, 0x00, 0x00, 0x00, 0x00, 0x00, 0x00],
      word [0x03, 0x03, 0x00, 0x00, 0x00, 0x00, 0x00, 0x00, 0x00, 0x00, 0x00, 0x00, 0x00, 0x00, 0x00, 0x00, 0x00], endWord] }) .add (Row.count ⟨.multi, #v[.add, .noop, .noop, .noop, .noop, .noop, .noop, .noop, .noop, .noop, .noop, .noop, .noop, .noop, .noop, .noop]⟩ Operate.add.char) (1 + k) = true := by decide

/-- The last word of the memory, and a PointerRead source. -/
theorem witness_AllocateResult :
    ({ st [(0, 1)] [] with mem := ⟨65535, []⟩ }).mem.wf = true ∧ (Marked.mk .multi 1).count = popcount 2 ∧
    readable .copy ⟨.multi, 1⟩ ({ st [(0, 1)] [] with mem := ⟨65535, []⟩ }) = true ∧
    allocFit ({ st [(0, 1)] [] with mem := ⟨65535, []⟩ }).mem.len (inputsOf .copy ⟨.multi, 1⟩ ({ st [(0, 1)] [] with mem := ⟨65535, []⟩ })) = true ∧
    readable .pointerRead ⟨.multi, 1⟩ (st [] [] [3]) = true ∧
    allocFit (st [] [] [3]).mem.len (inputsOf .pointerRead ⟨.multi, 1⟩ (st [] [] [3])) = true := by decide

/-- One word too many, and a size of 0 in a full memory. -/
theorem witness_AllocateBeyondCapacityFaults :
    readable .copy ⟨.multi, 1⟩ ({ st [(0, 2)] [] with mem := ⟨65535, []⟩ }) = true ∧
    allocFit ({ st [(0, 2)] [] with mem := ⟨65535, []⟩ }).mem.len (inputsOf .copy ⟨.multi, 1⟩ ({ st [(0, 2)] [] with mem := ⟨65535, []⟩ })) = false ∧
    readable .copy ⟨.multi, 1⟩ ({ st [] [] with mem := ⟨65536, []⟩ }) = true ∧
    allocFit ({ st [] [] with mem := ⟨65536, []⟩ }).mem.len (inputsOf .copy ⟨.multi, 1⟩ ({ st [] [] with mem := ⟨65536, []⟩ })) = false := by decide

theorem witness_PointerWriteResult :
    (st [(0, 5), (1, 6), (2, 1), (3, 1)] [] [0, 0]).mem.wf = true ∧ (Marked.mk .multi 3).count = popcount 0xC ∧
    readable .copy ⟨.multi, 3⟩ (st [(0, 5), (1, 6), (2, 1), (3, 1)] [] [0, 0]) = true ∧
    (∀ a ∈ elements (st [(0, 5), (1, 6), (2, 1), (3, 1)] [] [0, 0]) ⟨.multi, 0xC⟩, a < (st [(0, 5), (1, 6), (2, 1), (3, 1)] [] [0, 0]).mem.len) ∧
    0 ∉ elements (st [(0, 5), (1, 6), (2, 1), (3, 1)] [] [0, 0]) ⟨.multi, 0xC⟩ := by decide

theorem witness_PointerWriteOutOfBoundsFaults :
    (Marked.mk .multi 1).count = popcount 8 ∧ readable .cut ⟨.multi, 1⟩ (st [(3, 3)] [] [0, 0, 0]) = true ∧
    3 ∈ elements (st [(3, 3)] [] [0, 0, 0]) ⟨.multi, 8⟩ ∧ (st [(3, 3)] [] [0, 0, 0]).mem.len ≤ 3 := by decide

theorem witness_HeadSinkFaults_allocate :
    (st [] ["M A....... ........"]).runstate = .running ∧
    rowAt (st [] ["M A....... ........"]) 0 = some (.row ⟨.multi, #v[.allocate, .noop, .noop, .noop, .noop, .noop, .noop, .noop, .noop, .noop, .noop, .noop, .noop, .noop, .noop, .noop]⟩) ∧
    Row.kinds ⟨.multi, #v[.allocate, .noop, .noop, .noop, .noop, .noop, .noop, .noop, .noop, .noop, .noop, .noop, .noop, .noop, .noop, .noop]⟩ = [.allocate] := by decide

theorem witness_HeadSinkFaults_pointerWrite :
    (st [] ["M W....... ........"]).runstate = .running ∧
    rowAt (st [] ["M W....... ........"]) 0 = some (.row ⟨.multi, #v[.pointerWrite, .noop, .noop, .noop, .noop, .noop, .noop, .noop, .noop, .noop, .noop, .noop, .noop, .noop, .noop, .noop]⟩) ∧
    Row.kinds ⟨.multi, #v[.pointerWrite, .noop, .noop, .noop, .noop, .noop, .noop, .noop, .noop, .noop, .noop, .noop, .noop, .noop, .noop, .noop]⟩ = [.pointerWrite] := by decide

theorem witness_HeadSinkFaults_mixed :
    (st [] ["M CA...... ........"]).runstate = .running ∧
    rowAt (st [] ["M CA...... ........"]) 0 = some (.row ⟨.multi, #v[.copy, .allocate, .noop, .noop, .noop, .noop, .noop, .noop, .noop, .noop, .noop, .noop, .noop, .noop, .noop, .noop]⟩) ∧
    Character.allocate ∈ Row.kinds ⟨.multi, #v[.copy, .allocate, .noop, .noop, .noop, .noop, .noop, .noop, .noop, .noop, .noop, .noop, .noop, .noop, .noop, .noop]⟩ ∧ 2 ≤ (Row.kinds ⟨.multi, #v[.copy, .allocate, .noop, .noop, .noop, .noop, .noop, .noop, .noop, .noop, .noop, .noop, .noop, .noop, .noop, .noop]⟩).length := by decide

theorem witness_HeadMixedFaults :
    (st [] ["M C.+..... ........"]).runstate = .running ∧
    rowAt (st [] ["M C.+..... ........"]) 0 = some (.row ⟨.multi, #v[.copy, .noop, .add, .noop, .noop, .noop, .noop, .noop, .noop, .noop, .noop, .noop, .noop, .noop, .noop, .noop]⟩) ∧
    2 ≤ (Row.kinds ⟨.multi, #v[.copy, .noop, .add, .noop, .noop, .noop, .noop, .noop, .noop, .noop, .noop, .noop, .noop, .noop, .noop, .noop]⟩).length ∧ (Row.kinds ⟨.multi, #v[.copy, .noop, .add, .noop, .noop, .noop, .noop, .noop, .noop, .noop, .noop, .noop, .noop, .noop, .noop, .noop]⟩).all Character.isLocal = false := by decide

theorem witness_StoreThenLoadReturnsValue :
    (st [(0, 12), (3, 1)] [] [0, 0]).mem.wf = true ∧ (3 : Pos) ≠ 14 ∧ ((st [(0, 12), (3, 1)] [] [0, 0]).reg 3).toNat < (st [(0, 12), (3, 1)] [] [0, 0]).mem.len ∧
    ((nxt (exec (.pointerWrite .copy ⟨.multi, 1#16 <<< 0⟩ (1#16 <<< 3)) (st [(0, 12), (3, 1)] [] [0, 0]))).bind
      (fun t => nxt (exec (.pointerRead (1#16 <<< 3) (1#16 <<< 4)) t))).map (fun u => u.reg 4) = some 12 := by decide

theorem witness_StepKeepsInvariant :
    (st [(0, 12), (3, 1)] [] [0, 0]).inv = true ∧ (nxt (step (st [(0, 12), (3, 1)] [] [0, 0]))).isSome = true ∧
    (faultedAt (st [] []) 2 0 7).inv = true := by decide

theorem witness_LaunchMeetsInvariant : Launched (stIn [] [0x41]) := ⟨by decide, by decide⟩

theorem witness_StepOnlyExtends : ∃ t, step (stIn ["M .I...... ........"] [0x41]) = .next t := ⟨_, rfl⟩

theorem witness_FaultsArePrecise :
    (stWords [endWord]).runstate = .running ∧
    ∃ t, step State.reset = .next t ∧ t.runstate = .faulted := ⟨by decide, _, rfl, rfl⟩

theorem witness_RunEndsOnlyAtEndMarker :
    Ends (stWords []) { stWords [] with runstate := .halted } := ⟨rfl, rfl, rfl⟩

theorem witness_SequentialAdvanceStaysInImage :
    validImage (st [] ["M C....... ........", "M ...C.... ........"]).image = true ∧
    decodeRun (st [] ["M C....... ........", "M ...C.... ........"]).image =
      .ok (.copy ⟨.multi, 1⟩ ⟨.multi, 8⟩) ∧
    Instr.copy ⟨.multi, 1⟩ ⟨.multi, 8⟩ ≠ .endMark := by decide

theorem witness_MemoryIsTheWordSequence :
    (ram [5, 0, 7]).wf = true ∧ 2 < (ram [5, 0, 7]).len ∧
    (ram [5, 0, 7]).len + 65533 ≤ 65536 := by decide

theorem witness_LoaderTakesValidImages :
    ([0x00] : List Byte).length % 17 ≠ 0 ∧ 1 ≤ (asm []).length ∧
    (asm []).length ≤ 65536 ∧ (asm []).getLast? = some endWord := by decide

end Sys2Proof.Tests
end

section
/-! PROOFS. 00_scope.md R9 with 40_run_resolver.md R112 to R114: in a single-register row, extraction is
PEXT and write-back is PDEP. -/

namespace Sys2Proof.Machine

/-! ## The elements write-back hands out (R114) -/

/-- A split reads only the bits it hands out. -/
theorem split_mod (w v k : Nat) : split w (v % 2 ^ (k * w)) k = split w v k := by
  simpa [cat_split] using split_cat w (split w v k) (split_lt w v k)

theorem writeBack_eq_writesTo (m : Marked) (v : Nat) :
    writeBack m v = writesTo m (split m.mode.width v m.count) := by
  rw [writeBack, markedBits, split_mod]

/-! ## Scattered bits (R9) -/

theorem getLsbD_bit_shiftLeft_of_ne (v : Nat) {p b : Pos} (h : b ≠ p) :
    (BitVec.ofNat 16 (v % 2) <<< p.val).getLsbD b.val = false := by
  have hv : b.val ≠ p.val := fun e => h (Fin.ext e)
  rcases Nat.mod_two_eq_zero_or_one v with h0 | h1
  · simp [h0]
  · rw [h1, getLsbD_one_shiftLeft, decide_eq_false hv]

theorem getLsbD_scatter_of_not_mem {b : Pos} : ∀ {ps : List Pos} (v : Nat), b ∉ ps →
    (scatter v ps).getLsbD b.val = false
  | [], _, _ => BitVec.getLsbD_zero
  | p :: ps, v, h => by
    obtain ⟨hbp, hbps⟩ := not_or.mp (mt List.mem_cons.mpr h)
    rw [scatter, BitVec.getLsbD_or, getLsbD_bit_shiftLeft_of_ne v hbp,
      getLsbD_scatter_of_not_mem _ hbps, Bool.or_false]

theorem getLsbD_pdep_of_not_mem {m : PosMask} {b : Pos} (v : Nat) (h : m.getLsbD b.val = false) :
    (pdep v m).getLsbD b.val = false :=
  getLsbD_scatter_of_not_mem v (by simp [mem_positions, h, -BitVec.getLsbD_eq_getElem])

/-! ## Single-register rows -/

/-- In a single-register row the value is PEXT of the named register (R112). -/
theorem value_single (s : State) (r : Reg) (m : PosMask) :
    value s ⟨.single r, m⟩ = pext (s.reg r) m := rfl

/-- Writing the split of a value to a list of positions, bit by bit: the listed bits of the named
register become those of the scattered value, its other bits stay. -/
theorem getLsbD_applyWrites_split (r : Reg) (b : Pos) : ∀ (ps : List Pos) (v : Nat)
    (x : Vector Word 16), ps.Nodup →
    ((applyWrites x (List.zipWith (elemWrite (.single r)) ps (split 1 v ps.length)))[r]).getLsbD b.val =
      if b ∈ ps then (scatter v ps).getLsbD b.val else (x[r]).getLsbD b.val
  | [], _, _, _ => rfl
  | p :: ps, v, x, hn => by
    obtain ⟨hp, hps⟩ := List.nodup_cons.mp hn
    rw [List.length_cons, split, List.zipWith_cons_cons, applyWrites, pow_one,
      getLsbD_applyWrites_split r b ps _ _ hps, getLsbD_applyWrite, elemWrite_single,
      getLsbD_one_shiftLeft, Nat.mod_mod, scatter, BitVec.getLsbD_or]
    by_cases hbp : b = p
    · subst hbp
      simp [hp, getLsbD_scatter_of_not_mem _ hp, -BitVec.getLsbD_eq_getElem]
    · have hv : b.val ≠ p.val := fun e => hbp (Fin.ext e)
      simp [hbp, hv, getLsbD_bit_shiftLeft_of_ne v hbp, -BitVec.getLsbD_eq_getElem]

/-- The named register after a write-back in a single-register row (R114). -/
theorem applyWrites_writeBack_single_self (x : Vector Word 16) (r : Reg) (m : PosMask) (v : Nat) :
    (applyWrites x (writeBack ⟨.single r, m⟩ v))[r] = (x[r] &&& ~~~m) ||| pdep v m := by
  apply BitVec.eq_of_getLsbD_eq
  intro b hb
  have hbit := getLsbD_applyWrites_split r ⟨b, hb⟩ (positions m) v x (positions_nodup m)
  rw [writeBack_eq_writesTo]
  refine hbit.trans ?_
  rw [BitVec.getLsbD_or, BitVec.getLsbD_and, BitVec.getLsbD_not, ← pdep]
  cases hm : m.getLsbD b with
  | true => simp [hm, -BitVec.getLsbD_eq_getElem]
  | false =>
    have hd := getLsbD_pdep_of_not_mem (b := ⟨b, hb⟩) v hm
    simp [hm, hb, hd, -BitVec.getLsbD_eq_getElem]

/-- A write-back in a single-register row leaves every other register. -/
theorem applyWrites_writeBack_single_ne (x : Vector Word 16) {r q : Reg} (h : q ≠ r) (m : PosMask)
    (v : Nat) : (applyWrites x (writeBack ⟨.single r, m⟩ v))[q] = x[q] := by
  apply BitVec.eq_of_getLsbD_eq
  intro b _
  apply getLsbD_applyWrites_of_miss
  intro w hw hq
  obtain ⟨p, e, -, rfl⟩ := mem_writesTo hw
  exact absurd hq.symm h

/-- A write-back in a single-register row as one register update: PDEP under the mask (R114). -/
theorem applyWrites_writeBack_single (x : Vector Word 16) (r : Reg) (m : PosMask) (v : Nat) :
    applyWrites x (writeBack ⟨.single r, m⟩ v) = x.set r ((x[r] &&& ~~~m) ||| pdep v m) := by
  apply vector16_ext
  intro q
  by_cases hq : q = r
  · subst hq
    rw [applyWrites_writeBack_single_self]
    exact (Vector.getElem_set_self q.isLt).symm
  · rw [applyWrites_writeBack_single_ne x hq]
    exact (Vector.getElem_set_ne r.isLt q.isLt fun e => hq (Fin.ext e.symm)).symm

/-- Settles O59: the value by definition, the write-back bit by bit along the mask's positions. -/
theorem singleRowExtractsAndDeposits : Obligations.SingleRowExtractsAndDeposits := by
  unfold Obligations.SingleRowExtractsAndDeposits
  intro s r m v
  exact ⟨value_single s r m, applyWrites_writeBack_single s.x r m v⟩

end Sys2Proof.Machine
end

section
/-! PROOFS. 10_state.md R31, R42, R53: the invariant of the machine, at reset, at launch and across a
step, and what a step can only extend. Each kind of step of `GoesTo` is one lemma. -/

namespace Sys2Proof.Machine

/-! ## The invariant, part by part -/

theorem State.inv_iff {s : State} :
    s.inv = true ↔ s.mem.wf = true ∧ recordOk s = true ∧ s.stdinPos ≤ s.stdin.length := by
  simp [State.inv, and_assoc]

theorem mem_allReasons (r : FaultReason) : r ∈ allReasons := by cases r <;> decide

theorem recordOk_of_not_faulted {s : State} (h : s.runstate ≠ .faulted) :
    recordOk s = true ↔ s.fault = ⟨0, 0, 0⟩ := by
  cases hr : s.runstate with
  | running => simp [recordOk, hr]
  | halted => simp [recordOk, hr]
  | faulted => exact absurd hr h

/-- A run state that is kept together with the fault record keeps their agreement (R30). -/
theorem recordOk_congr {s t : State} (hr : t.runstate = s.runstate) (hf : t.fault = s.fault) :
    recordOk t = recordOk s := by
  simp only [recordOk, hr, hf]

/-- A taken fault records a sub-reason with the kind it belongs to (60_exceptions.md R261, R262). -/
theorem recordOk_takeFault (s : State) (r : Raise) : recordOk (s.takeFault r) = true := by
  simp only [recordOk, takeFault_runstate, takeFault_fault]
  exact List.any_eq_true.mpr ⟨r.reason, mem_allReasons r.reason, by simp [faultRecord]⟩

/-! ## Each kind of step keeps the invariant -/

theorem takeFault_inv {s : State} (h : s.inv = true) (r : Raise) : (s.takeFault r).inv = true := by
  obtain ⟨hmem, -, hpos⟩ := State.inv_iff.mp h
  exact State.inv_iff.mpr ⟨hmem, recordOk_takeFault s r, hpos⟩

theorem halt_inv {s : State} (h : s.inv = true) (hr : s.runstate ≠ .faulted) :
    ({ s with runstate := .halted } : State).inv = true := by
  obtain ⟨hmem, hrec, hpos⟩ := State.inv_iff.mp h
  have hfault := (recordOk_of_not_faulted hr).mp hrec
  exact State.inv_iff.mpr ⟨hmem, (recordOk_of_not_faulted (by simp)).mpr hfault, hpos⟩

/-- A commit keeps the invariant when the run consumes no more stdin bytes than are left. -/
theorem commit_inv {s : State} {e : Effects} (h : s.inv = true)
    (hin : e.nin ≤ s.stdinLeft.length) : (commit s e).inv = true := by
  obtain ⟨hmem, hrec, hpos⟩ := State.inv_iff.mp h
  rw [State.stdinLeft, List.length_drop] at hin
  refine State.inv_iff.mpr ⟨writeAll_wf _ (allocAll_wf _ hmem), ?_, ?_⟩
  · rw [recordOk_congr (commit_runstate s e) (commit_fault s e), hrec]
  · rw [commit_stdinPos, commit_stdin]
    omega

/-! ## Steps -/

/-- A faulted engine stays as it is (40_run_resolver.md R128). -/
theorem step_of_faulted {s : State} (h : s.runstate = .faulted) : step s = .next s := by
  simp only [step, h]

theorem goesTo_inv {s t : State} (hinv : s.inv = true) (hr : s.runstate ≠ .faulted)
    (h : GoesTo s t) : t.inv = true := by
  obtain rfl | ⟨r, rfl⟩ | rfl | ⟨e, rfl, hin⟩ := h
  · exact hinv
  · exact takeFault_inv hinv r
  · exact halt_inv hinv hr
  · exact commit_inv hinv hin

/-- Settles O50: a faulted engine does not move, and every other step goes on in one of the four ways of
`GoesTo`, each of which keeps the invariant. -/
theorem stepKeepsInvariant : Obligations.StepKeepsInvariant := by
  unfold Obligations.StepKeepsInvariant
  intro s t hinv hstep
  by_cases hr : s.runstate = .faulted
  · rw [step_of_faulted hr] at hstep
    injection hstep with hst
    exact hst ▸ hinv
  · exact goesTo_inv hinv hr (step_goesTo hstep)

theorem reset_inv : State.reset.inv = true :=
  State.inv_iff.mpr ⟨reset_memory_wf, rfl, Nat.le_refl 0⟩

/-- Settles O51: a launch state differs from the reset state in the parameters of the run, and with
`stdinPos = 0` the invariant holds whatever they are. -/
theorem launchMeetsInvariant : Obligations.LaunchMeetsInvariant := by
  unfold Obligations.LaunchMeetsInvariant
  refine ⟨reset_inv, ?_⟩
  rintro s ⟨-, hs⟩
  rw [hs]
  exact State.inv_iff.mpr ⟨reset_memory_wf, rfl, Nat.zero_le _⟩

theorem reset_reg : ∀ r : Reg, State.reset.reg r = 0#16 := by decide

/-- Settles O52: the reset state's own registers, which a reset from any state takes over. -/
theorem resetValues : Obligations.ResetValues := by
  unfold Obligations.ResetValues
  exact ⟨reset_reg, fun _ => ⟨reset_reg, rfl, rfl, rfl, rfl, rfl, rfl⟩⟩

/-- Settles O53: of the four ways a step goes on, only a commit touches the elements named, and it
allocates and appends. -/
theorem stepOnlyExtends : Obligations.StepOnlyExtends := by
  unfold Obligations.StepOnlyExtends
  intro s t hstep
  obtain rfl | ⟨r, rfl⟩ | rfl | ⟨e, rfl, -⟩ := step_goesTo hstep
  · simp
  · simp
  · simp
  · simp [len_le_allocAll s.mem e.alloc]

end Sys2Proof.Machine
end

section
/-! PROOFS. 10_state.md R25 with 70_reset_and_hazards.md R292: a run consumes rows and never an end
marker, which the last row of a valid image is, so a run ends before it. What a resolver has consumed is
measured against an end marker that stands somewhere in the rows it is given. -/

namespace Sys2Proof.Machine

/-! ## The rows of an instruction -/

theorem row_instr_rows (r : Row) : r.instr.rows = 1 := by
  unfold Row.instr
  split <;> rfl

theorem decode_rows {w : RowWord} {i : Instr} (h : decode w = .ok i) : i.rows = 1 := by
  unfold decode at h
  split at h
  · cases h; rfl
  · next r _ => cases h; exact row_instr_rows r
  · cases h; rfl
  · split at h
    · cases h; rfl
    · cases h

theorem localInstr_rows (r : Row) : (localInstr r).rows = 1 := by
  unfold localInstr
  split
  case h_6 => exact row_instr_rows r
  all_goals rfl

theorem pairInstr_rows (x : Source) (src snk : Marked) (y : Sink) :
    (pairInstr x src snk y).rows = 2 := by
  cases y with
  | allocate => rfl
  | pointerWrite => rfl
  | same => cases x <;> rfl

theorem chainInstr_rows (o : Operate) (head : Marked) (rest : List Marked) :
    (chainInstr head rest o).rows = 1 + rest.length := by
  cases o <;> rfl

/-- A run and its instruction consume equally many rows (40_run_resolver.md R130). -/
theorem run_instr_rows (r0 : Row) (run : Run) : (run.instr r0).rows = run.rows := by
  cases run with
  | nop => rfl
  | loc => exact localInstr_rows r0
  | pair x src y snk => exact pairInstr_rows x src snk y
  | chain o head rest => exact chainInstr_rows o head rest

/-! ## The rows a resolver consumes -/

theorem endWord_mem_tail {w : RowWord} {ws : List RowWord} {r : Row}
    (hw : decodeRow w = .ok (.row r)) (h : endWord ∈ w :: ws) : endWord ∈ ws := by
  rcases List.mem_cons.mp h with rfl | h
  · simp at hw
  · exact h

/-- The look-ahead of a chain stops before an end marker (R122). -/
theorem chainRows_length_lt {o : Operate} {c : Nat} : ∀ {ws : List RowWord} {q : Nat}
    {ms : List Marked}, endWord ∈ ws → chainRows o c q ws = .ok ms → ms.length < ws.length
  | [], _, _, hend, _ => absurd hend List.not_mem_nil
  | w :: ws, q, ms, hend, h => by
    rw [chainRows] at h
    split at h
    · cases h
    · cases h; exact Nat.succ_pos _
    · next r hw =>
      split at h
      · cases h
      · cases h; exact Nat.succ_pos _
      · split at h
        · cases h
        · next ms' hrec =>
          cases h
          exact Nat.succ_lt_succ (chainRows_length_lt (endWord_mem_tail hw hend) hrec)

/-- A resolved sink row stands before some end marker (R121). -/
theorem resolveSink_length_lt {x : Source} {k : Nat} {rest : List RowWord} {p : Sink × Marked}
    (hend : endWord ∈ rest) (h : resolveSink x k rest = .ok p) : 1 < rest.length := by
  unfold resolveSink at h
  split at h
  · cases h
  · split at h
    · cases h
    · cases h
    · next r1 hw => exact Nat.succ_lt_succ (List.length_pos_of_mem (endWord_mem_tail hw hend))

theorem resolve_rows_le {r0 : Row} {rest : List RowWord} {run : Run} (hend : endWord ∈ rest)
    (h : resolve r0 rest = .ok run) : run.rows ≤ rest.length := by
  have hpos : 1 ≤ rest.length := List.length_pos_of_mem hend
  unfold resolve at h
  split at h
  · cases h
  · cases h; exact hpos
  · cases h; exact hpos
  · split at h
    · cases h
    · next hsink => cases h; exact resolveSink_length_lt hend hsink
  · split at h
    · cases h
    · cases h
    · next hchain =>
      cases h
      have := chainRows_length_lt hend hchain
      simp only [Run.rows]
      omega

/-- A run read from rows with an end marker among them leaves at least one of them. -/
theorem decodeRun_rows_lt {ws : List RowWord} {i : Instr} (hend : endWord ∈ ws)
    (h : decodeRun ws = .ok i) (hi : i ≠ .endMark) : i.rows < ws.length := by
  cases ws with
  | nil => cases h
  | cons w rest =>
    rw [decodeRun] at h
    split at h
    · next r0 hw =>
      split at h
      · cases h
      · next run hrun =>
        cases h
        rw [run_instr_rows]
        exact Nat.lt_succ_of_le (resolve_rows_le (endWord_mem_tail hw hend) hrun)
    · split at h
      · cases h
      · next hdec =>
        cases h
        have hne : endWord ≠ w := by
          rintro rfl
          rw [decode_of_endMarker decodeRow_endWord] at hdec
          cases hdec
          exact hi rfl
        have hrest : endWord ∈ rest := (List.mem_cons.mp hend).resolve_left hne
        rw [decode_rows hdec]
        exact Nat.succ_lt_succ (List.length_pos_of_mem hrest)

/-! ## Valid images -/

theorem validImage_iff {img : List RowWord} :
    validImage img = true ↔
      1 ≤ img.length ∧ img.length ≤ Config.imgMax ∧ img.getLast? = some endWord := by
  simp [validImage, and_assoc]

theorem endWord_mem_drop {img : List RowWord} {n : Nat} (hlast : img.getLast? = some endWord)
    (hn : n < img.length) : endWord ∈ img.drop n := by
  apply List.mem_of_getLast?
  rw [List.getLast?_drop, if_neg (by omega), hlast]

/-- Settles O57: the rows from `pc` on hold the image's last row, an end marker, and a run leaves at
least one of the rows it is read from. -/
theorem sequentialAdvanceStaysInImage : Obligations.SequentialAdvanceStaysInImage := by
  unfold Obligations.SequentialAdvanceStaysInImage
  intro s i hvalid hrun hi
  obtain ⟨-, hmax, hlast⟩ := validImage_iff.mp hvalid
  have hpc : s.pc.toNat < s.image.length := by
    by_contra hge
    rw [List.drop_eq_nil_of_le (Nat.le_of_not_lt hge)] at hrun
    cases hrun
  have hrows := decodeRun_rows_lt (endWord_mem_drop hlast hpc) hrun hi
  rw [List.length_drop] at hrows
  exact ⟨by omega, hmax⟩

end Sys2Proof.Machine
end

section
/-! PROOFS. 41_write_class.md R151 to R156, 40_run_resolver.md R115, R120, R129: what a row of one
writing local character does to its marked positions, and the step of a head row that decodes to a
row. -/

namespace Sys2Proof.Machine

/-! ## Rows of one character -/

theorem count_uniformRow {k : Character} (hk : k ≠ .noop) (m : Marked) :
    (uniformRow k m).count k = m.count := by
  rw [Row.count, maskOf_uniformRow hk, Marked.count]

theorem count_uniformRow_ne {k j : Character} (hj : j ≠ .noop) (hkj : k ≠ j) (m : Marked) :
    (uniformRow k m).count j = 0 := by
  rw [Row.count, maskOf_uniformRow_ne hj hkj]
  rfl

/-- The local characters that write their positions: all but WriteStdout. -/
def writingLocals : List Character := [.zero, .one, .random, .readStdin]

/-- The element that a writing local character asks for at a position of a row of mode `m`, after `nin`
stdin bytes and `nd` draws of the same run (R151 to R154). -/
def requestedElement (s : State) (m : Mode) (k : Character) (nin nd : Nat) : Nat :=
  match k with
  | .one => 2 ^ m.width - 1
  | .random => (Config.draw m.width (s.drawPos + nd)).toNat
  | .readStdin => (s.stdinLeft.getD nin 0).toNat
  | _ => 0

/-- The requests of a row of one writing local character: one element to each marked position. Of the
two counters only the one that the character reads moves, so both may be counted on. -/
theorem localEffects_regw_uniformRow (s : State) {k : Character} (hk : k ∈ writingLocals)
    (m : Marked) : ∀ (ps : List Pos) (nin nd : Nat),
    (localEffects s (uniformRow k m) nin nd ps).regw =
      List.zipWith (elemWrite m.mode) (ps.filter (fun p => m.mask.getLsbD p.val))
        ((List.range (ps.filter (fun p => m.mask.getLsbD p.val)).length).map
          (fun j => requestedElement s m.mode k (nin + j) (nd + j)))
  | [], _, _ => rfl
  | p :: ps, nin, nd => by
    have ih := localEffects_regw_uniformRow s hk m ps
    rw [localEffects_cons, uniformRow_getElem, List.filter_cons]
    cases m.mask.getLsbD p.val with
    | false => exact ih nin nd
    | true =>
      simp only [if_true, List.length_cons, List.range_succ_eq_map, List.map_cons, List.map_map,
        List.zipWith_cons_cons]
      simp only [writingLocals, List.mem_cons, List.not_mem_nil, or_false] at hk
      obtain rfl | rfl | rfl | rfl := hk
      · simp [Effects.withWrite, ih, requestedElement, zeroWrite, Function.comp_def]
      · simp [Effects.withWrite, ih, requestedElement, oneWrite, Function.comp_def]
      · simp [Effects.withWrite, ih, requestedElement, randomWrite, Function.comp_def, Nat.add_assoc,
          Nat.add_comm 1]
      · simp [Effects.withWrite, ih, requestedElement, stdinWrite, Function.comp_def, Nat.add_assoc,
          Nat.add_comm 1]

/-- The stdout bytes of a whole local row (R155). -/
theorem localEffects_out_allPos (s : State) (r : Row) (nin nd : Nat) :
    (localEffects s r nin nd allPos).out =
      (positions (r.maskOf .writeStdout)).map (stdoutByte s) := by
  rw [localEffects_out, Row.maskOf, positions_maskWhere]

/-- A row that writes all its marked positions names `pc` when they touch it. -/
theorem writesPc_of_writesTo {e : Effects} {m : Marked} {es : List Nat}
    (he : e.regw = writesTo m es) (hl : es.length = m.count)
    (ht : touches m Config.pcIndex = true) : e.writesPc = true := by
  obtain ⟨p, hp, hreg⟩ := exists_position_of_touches ht
  obtain ⟨v, hv⟩ := exists_mem_writesTo hl.ge hp
  exact (writesPc_iff e).mpr ⟨_, he ▸ hv, hreg v⟩

/-- A committed run of one row that writes all its marked positions and nothing else has their
frame. -/
theorem regFrame_commit_writesTo {s : State} {e : Effects} {m : Marked} {es : List Nat}
    (he : e.regw = writesTo m es) (hl : es.length = m.count) : RegFrame s (commit s e) e.n [m] := by
  refine regFrame_commit (he ▸ writesWithin_writesTo m es) fun m' hm' ht => ?_
  obtain rfl := List.mem_singleton.mp hm'
  exact writesPc_of_writesTo he hl ht

/-- A run of one writing local character with its stdin bytes at hand (R156): each marked position
takes its element, and the two counters advance. -/
theorem runLocal_uniformRow {s : State} {k : Character} (hk : k ∈ writingLocals) (m : Marked)
    (hin : (uniformRow k m).count .readStdin ≤ s.stdinLeft.length) :
    ∃ t, toHost s (runLocal (uniformRow k m) s) = .next t ∧
      elements t m = (List.range m.count).map
        (fun j => requestedElement s m.mode k j j % 2 ^ m.mode.width) ∧
      RegFrame s t 1 [m] ∧
      t = { s with
            x := t.x
            stdinPos := s.stdinPos + (uniformRow k m).count .readStdin
            drawPos := s.drawPos + (uniformRow k m).count .random } := by
  have hrun : runLocal (uniformRow k m) s =
      .next (commit s (localEffects s (uniformRow k m) 0 0 allPos)) := by
    obtain ⟨-, h⟩ | ⟨h, -⟩ := runLocal_cases (uniformRow k m) s
    · exact h
    · omega
  obtain ⟨hnin, hndraw, hn, halloc, hmemw⟩ :=
    localEffects_counts s (uniformRow k m) allPos 0 0
  rw [holding_allPos, Nat.zero_add] at hnin hndraw
  have hout : (localEffects s (uniformRow k m) 0 0 allPos).out = [] := by
    have hk' : k ≠ .writeStdout := by rintro rfl; simp [writingLocals] at hk
    rw [localEffects_out_allPos, maskOf_uniformRow_ne (by decide) hk', positions_zero, List.map_nil]
  have hregw : (localEffects s (uniformRow k m) 0 0 allPos).regw =
      writesTo m ((List.range m.count).map (fun j => requestedElement s m.mode k j j)) := by
    have h := localEffects_regw_uniformRow s hk m allPos 0 0
    simp only [Nat.zero_add] at h
    exact h
  refine ⟨_, by rw [hrun, toHost_next], ?_, ?_, ?_⟩
  · rw [elements_commit_writesTo (pre := []) hregw (by simp), List.map_map]
    rfl
  · exact hn ▸ regFrame_commit_writesTo hregw (by simp)
  · simp only [commit, halloc, hmemw, hout, hnin, hndraw, List.append_nil]
    rfl

/-- Settles O18: a row of Random reads no stdin byte, and a draw fits the width of its position. -/
theorem randomResult : Obligations.RandomResult := by
  unfold Obligations.RandomResult
  refine ⟨⟨rfl, by decide, rfl, by decide, rfl⟩, fun p s => ?_⟩
  have hstdin : (uniformRow .random p).count .readStdin = 0 :=
    count_uniformRow_ne (by decide) (by decide) p
  obtain ⟨t, hrun, helem, hframe, ht⟩ :=
    runLocal_uniformRow (s := s) (k := .random) (by decide) p (by rw [hstdin]; exact Nat.zero_le _)
  rw [hstdin, count_uniformRow (by decide)] at ht
  refine ⟨t, hrun, ?_, hframe, ht⟩
  rw [helem]
  exact List.map_congr_left fun j _ => Nat.mod_eq_of_lt (Config.draw p.mode.width _).isLt

/-- The bytes that `n` ReadStdin positions ask for are the next `n` of the stream (R154). -/
theorem map_getD_stdinLeft {s : State} {n : Nat} (h : n ≤ s.stdinLeft.length) :
    (List.range n).map (fun j => s.stdinLeft.getD j 0) = s.stdinLeft.take n := by
  apply List.ext_getElem (by simp [h])
  intro j hj _
  have hlt : j < s.stdinLeft.length := by
    rw [List.length_map, List.length_range] at hj
    omega
  simp [hlt]

/-- Settles O19: the row has as many ReadStdin positions as marks, and a byte fits a register. -/
theorem readStdinResult : Obligations.ReadStdinResult := by
  unfold Obligations.ReadStdinResult
  intro p s hbytes
  have hcount : (uniformRow .readStdin ⟨.multi, p⟩).count .readStdin = popcount p :=
    count_uniformRow (by decide) ⟨.multi, p⟩
  have hdraw : (uniformRow .readStdin ⟨.multi, p⟩).count .random = 0 :=
    count_uniformRow_ne (by decide) (by decide) ⟨.multi, p⟩
  have hleft : popcount p ≤ s.stdinLeft.length := by
    rw [State.stdinLeft, List.length_drop]
    omega
  obtain ⟨t, hrun, helem, hframe, ht⟩ :=
    runLocal_uniformRow (s := s) (k := .readStdin) (by decide) ⟨.multi, p⟩ (hcount ▸ hleft)
  rw [hcount, hdraw] at ht
  refine ⟨t, hrun, ?_, hframe, ht⟩
  rw [helem, ← State.stdinLeft, ← map_getD_stdinLeft hleft, List.map_map]
  refine List.map_congr_left fun j _ => Nat.mod_eq_of_lt ?_
  exact (s.stdinLeft.getD j 0).isLt.trans (show 2 ^ 8 < 2 ^ 16 by decide)

/-! ## The step of a row (R115) -/

theorem rowAt_eq_some {s : State} {k : Nat} {d : Decoded} :
    rowAt s k = some d ↔ ∃ w, s.image[s.pc.toNat + k]? = some w ∧ decodeRow w = .ok d := by
  unfold rowAt
  cases s.image[s.pc.toNat + k]? with
  | none => simp
  | some w => cases h : decodeRow w <;> simp [h]

theorem rowsAtPc_of_getElem? {s : State} {w : RowWord} (h : s.image[s.pc.toNat]? = some w) :
    s.rowsAtPc = w :: s.rowsAfterPc := by
  obtain ⟨hlt, rfl⟩ := List.getElem?_eq_some_iff.mp h
  exact List.drop_eq_getElem_cons hlt

/-- The row instruction of a row that the decoder lets pass runs it (30_encoding.md R84). -/
theorem exec_row_instr {r : Row} (h : r.mode = .multi ∨ noMultiOnly r.ch = true) (s : State) :
    exec r.instr s = runRow r s := by
  obtain ⟨mode, ch⟩ := r
  cases mode with
  | multi => rfl
  | single n =>
    have hno : noMultiOnly ch = true := h.resolve_left (by simp)
    have hany : ¬ (allPos.any fun p => ch[p].multiOnly) = true := by
      simpa [noMultiOnly] using hno
    exact if_neg hany

/-- A Running step whose head row word decodes to a row is the run of that row. -/
theorem step_of_row {s : State} {w : RowWord} {r : Row} (hr : s.runstate = .running)
    (hw : s.image[s.pc.toNat]? = some w) (hd : decodeRow w = .ok (.row r)) :
    step s = runRow r s := by
  obtain ⟨-, -, -, -, hmulti⟩ := decodeRow_row hd
  simp only [step, hr, fetchHead, rowsAtPc_of_getElem? hw, decode_of_row hd]
  exact exec_row_instr hmulti s

theorem resolve_of_local {r : Row} (h : classify r = .ok .loc) (rest : List RowWord) :
    resolve r rest = .ok .loc := by
  simp only [resolve, h]

/-- The reply of a Running step at a Local row is stdin's (R129). -/
theorem stepReply_of_local {s : State} {w : RowWord} {r : Row}
    (hw : s.image[s.pc.toNat]? = some w) (hd : decodeRow w = .ok (.row r))
    (hc : classify r = .ok .loc) : stepReply s = s.stdinReply (r.count .readStdin) := by
  simp only [stepReply, rowsAtPc_of_getElem? hw, hd, hc]

theorem stdinReply_of_short {s : State} {need : Nat} (h : s.stdinLeft.length < need) :
    s.stdinReply need = if s.stdinClosed then .stuck else .wait := by
  rw [State.stdinReply, if_neg (Nat.not_le_of_lt h)]

theorem toHost_runLocal_of_short {s : State} {r : Row}
    (h : s.stdinLeft.length < r.count .readStdin) : toHost s (runLocal r s) = .next s := by
  rw [runLocal, stdinReply_of_short h]
  cases s.stdinClosed <;> rfl

/-- Settles O20: a row that needs a byte holds a kind, so it is a Local row, and both the step and its
reply follow what stdin answers. -/
theorem readStdinWaitsOrIsStuck : Obligations.ReadStdinWaitsOrIsStuck := by
  unfold Obligations.ReadStdinWaitsOrIsStuck
  intro s r hr hrow hlocal hpos hshort
  obtain ⟨w, hw, hd⟩ := rowAt_eq_some.mp hrow
  have hleft : s.stdinLeft.length < r.count .readStdin := by
    rw [State.stdinLeft, List.length_drop]
    omega
  have hkinds : r.kinds ≠ [] := by
    intro hnil
    have hzero : r.count .readStdin = 0 := count_eq_zero_iff.mpr fun p hp => by
      have hmem : Character.readStdin ∈ r.kinds := mem_kinds.mpr ⟨by decide, p, hp⟩
      simp [hnil] at hmem
    omega
  have hc := classify_of_local hkinds hlocal
  constructor
  · rw [step_of_row hr hw hd, runRow, resolve_of_local hc]
    exact toHost_runLocal_of_short hleft
  · rw [stepReply_of_local hw hd hc, stdinReply_of_short hleft]

end Sys2Proof.Machine
end

section
/-! PROOFS. 20_memory.md R50 to R54: the cells of a canonical memory are the spec's sequence of words, for
one read, write or allocation and for all the writes of a run. -/

namespace Sys2Proof.Machine

/-! ## One operation -/

/-- A read is a lookup in the sequence of words (R52). -/
theorem Memory.read_eq_getElem?_words (m : Memory) (a : Nat) : m.read a = m.words[a]? := by
  by_cases ha : a < m.len <;> simp [Memory.read, Memory.words, ha]

/-- A write at a valid index replaces that word (R53). -/
theorem Memory.words_write {m : Memory} (h : m.wf = true) {a : Nat} (v : Word) (ha : a < m.len) :
    (m.write a v).words = m.words.set a v := by
  apply List.ext_getElem?
  intro c
  rw [← Memory.read_eq_getElem?_words, Memory.read_write h ha, Memory.read_eq_getElem?_words]
  by_cases hc : c = a
  · subst hc
    simp [ha]
  · rw [if_neg hc, List.getElem?_set_ne (Ne.symm hc)]

/-- A canonical memory that is `z` words longer, with the same cells, has `z` zero words appended
(R54). -/
theorem Memory.words_lengthen {m : Memory} (h : m.wf = true) (z : Nat) :
    (Memory.mk (m.len + z) m.cells).words = m.words ++ List.replicate z 0#16 := by
  have hnew : ∀ j, getCell (m.len + j) m.cells = 0#16 := fun j =>
    getCell_beyond (Memory.wf_iff.mp h).2 (Nat.le_add_right m.len j)
  simp only [Memory.words, List.range_add, List.map_append, List.map_map]
  exact congrArg _ (List.eq_replicate_iff.mpr ⟨by simp, by simp [hnew]⟩)

/-- Settles O58: each operation is one operation on the sequence of words. -/
theorem memoryIsTheWordSequence : Obligations.MemoryIsTheWordSequence := by
  unfold Obligations.MemoryIsTheWordSequence
  intro m h
  refine ⟨m.length_words, m.read_eq_getElem?_words, fun a v => m.words_write h v, fun z hz => ?_⟩
  have hcap : m.len + z ≤ Config.memCap := hz
  rw [Memory.alloc, if_pos hcap, Memory.words_lengthen h]

/-! ## All the writes of a run -/

/-- Writes at valid addresses replace words in their order (40_run_resolver.md R124 step 3). -/
theorem words_writeAll : ∀ {m : Memory} (ws : List (Nat × Word)), m.wf = true →
    (∀ w ∈ ws, w.1 < m.len) →
    (writeAll m ws).words = ws.foldl (fun us w => us.set w.1 w.2) m.words
  | _, [], _, _ => rfl
  | m, (a, v) :: ws, h, hlt => by
    have ha : a < m.len := hlt (a, v) (by simp)
    have hws : ∀ w ∈ ws, w.1 < (m.write a v).len := fun w hw => by
      rw [Memory.write_len]
      exact hlt w (by simp [hw])
    rw [writeAll, words_writeAll ws (Memory.write_wf h a v) hws, Memory.words_write h v ha,
      List.foldl_cons]

end Sys2Proof.Machine
end

section
/-! PROOFS. 42_read_linked.md R181 to R183 with 44_reverse_linked.md R240, R241: the runs that read, grow
and write the data memory. Their register requests are the zeroing of a Cut source followed by the
writes of the sink row, so the frame and the zeroing are shown once for all of them. -/

namespace Sys2Proof.Machine

/-! ## The registers after a source row and a sink row -/

/-- A register after a commit, where the pc update does not stand in the way (40_run_resolver.md
R125). -/
theorem reg_commit {s : State} {e : Effects} {r : Reg}
    (h : r = Config.pcIndex → e.writesPc = true) :
    (commit s e).reg r = (applyWrites s.x e.regw)[r] := by
  simp only [State.reg, commit_x, commitRegs]
  split
  · rfl
  · next hnp =>
    have hv : Config.pcIndex.val ≠ r.val := fun hv => hnp (h (Fin.ext hv.symm))
    simp only [Fin.getElem_fin, Vector.getElem_set_ne _ _ hv]

/-- Zero requests leave zero in every bit one of them reaches. -/
theorem getLsbD_applyWrites_of_zeros {r : Reg} {b : Nat} : ∀ {ws : List RegWrite}
    (x : Vector Word 16), (∀ w ∈ ws, w.value = 0#16) →
    (∃ w ∈ ws, w.reg = r ∧ w.mask.getLsbD b = true) →
    ((applyWrites x ws)[r]).getLsbD b = false
  | [], _, _, h => by simp at h
  | w :: ws, x, hz, h => by
    have hz' : ∀ w ∈ ws, w.value = 0#16 := fun v hv => hz v (by simp [hv])
    by_cases hlater : ∃ v ∈ ws, v.reg = r ∧ v.mask.getLsbD b = true
    · exact getLsbD_applyWrites_of_zeros (applyWrite x w) hz' hlater
    · have hmiss : ∀ v ∈ ws, v.reg = r → v.mask.getLsbD b = false := fun v hv hr =>
        Bool.eq_false_iff.mpr fun hb => hlater ⟨v, hv, hr, hb⟩
      have hw : w.reg = r ∧ w.mask.getLsbD b = true := by
        obtain ⟨v, hv, hreach⟩ := h
        rcases List.mem_cons.mp hv with rfl | hv
        · exact hreach
        · exact absurd ⟨v, hv, hreach⟩ hlater
      rw [applyWrites, getLsbD_applyWrites_of_miss ws _ r b hmiss, getLsbD_applyWrite, if_pos hw,
        hz w (by simp), BitVec.getLsbD_zero]

/-- A bit of a register that marked positions reach is reached by the element write to one of them. -/
theorem exists_position_of_reaches {m : Marked} {r : Reg} {b : Nat} (hb : b < 16)
    (h : reaches m r b = true) :
    ∃ p ∈ positions m.mask, ∀ e, (elemWrite m.mode p e).reg = r ∧
      (elemWrite m.mode p e).mask.getLsbD b = true := by
  obtain ⟨mode, mask⟩ := m
  cases mode with
  | multi => exact ⟨r, mem_positions.mpr h, fun _ => ⟨rfl, by simp [getLsbD_allOnes16, hb]⟩⟩
  | single n =>
    simp only [reaches, Bool.and_eq_true, beq_iff_eq] at h
    obtain ⟨rfl, hm⟩ := h
    refine ⟨⟨b, hb⟩, mem_positions.mpr hm, fun _ => ⟨rfl, ?_⟩⟩
    rw [elemWrite_single, getLsbD_one_shiftLeft, decide_eq_true rfl]

/-- Every request of a Cut's zeroing writes zero (R181). -/
theorem cutWrites_value {x : Source} {src : Marked} : ∀ w ∈ cutWrites x src, w.value = 0#16 := by
  intro w hw
  cases x with
  | copy => simp [cutWrites] at hw
  | pointerRead => simp [cutWrites] at hw
  | cut =>
    simp only [cutWrites, List.mem_map] at hw
    obtain ⟨p, -, rfl⟩ := hw
    cases src.mode <;> simp

/-- The zeroing of a Cut has a request for each of its source positions (R181). -/
theorem exists_mem_cutWrites {x : Source} {src m : Marked} (hm : m ∈ cutRows x src) {p : Pos}
    (hp : p ∈ positions m.mask) : elemWrite m.mode p 0 ∈ cutWrites x src := by
  cases x with
  | copy => simp [cutRows] at hm
  | pointerRead => simp [cutRows] at hm
  | cut =>
    obtain rfl := List.mem_singleton.mp hm
    exact List.mem_map_of_mem hp

/-- The zeroing of a Cut names every register its source touches. -/
theorem exists_cutWrite_of_touches {x : Source} {src m : Marked} {r : Reg} (hm : m ∈ cutRows x src)
    (ht : touches m r = true) : ∃ w ∈ cutWrites x src, w.reg = r := by
  obtain ⟨p, hp, hreg⟩ := exists_position_of_touches ht
  exact ⟨_, exists_mem_cutWrites hm hp, hreg 0⟩

/-- A full list of element writes names every register its row touches. -/
theorem exists_writesTo_of_touches {m : Marked} {es : List Nat} {r : Reg} (hl : es.length = m.count)
    (ht : touches m r = true) : ∃ w ∈ writesTo m es, w.reg = r := by
  obtain ⟨p, hp, hreg⟩ := exists_position_of_touches ht
  obtain ⟨e, he⟩ := exists_mem_writesTo hl.ge hp
  exact ⟨_, he, hreg e⟩

section

variable {s : State} {e : Effects} {x : Source} {src : Marked} {ws : List RegWrite}

/-- The frame of a run that zeroes a Cut source and then writes the rows `sinks` (R183). -/
theorem regFrame_commit_cutWrites {sinks : List Marked} (he : e.regw = cutWrites x src ++ ws)
    (hw : WritesWithin sinks ws)
    (hpc : ∀ m ∈ sinks, touches m Config.pcIndex = true → ∃ w ∈ ws, w.reg = Config.pcIndex) :
    RegFrame s (commit s e) e.n (cutRows x src ++ sinks) := by
  refine regFrame_commit (he ▸ writesWithin_append (cutWrites_within x src) hw) fun m hm ht => ?_
  rw [writesPc_iff, he]
  rcases List.mem_append.mp hm with hcut | hsink
  · obtain ⟨w, hwm, hreg⟩ := exists_cutWrite_of_touches hcut ht
    exact ⟨w, List.mem_append_left _ hwm, hreg⟩
  · obtain ⟨w, hwm, hreg⟩ := hpc m hsink ht
    exact ⟨w, List.mem_append_right _ hwm, hreg⟩

/-- The bits of a Cut source are zero after the run where the sink row does not reach them (R181). -/
theorem zeroedBut_commit_cutWrites {snk : Marked} (he : e.regw = cutWrites x src ++ ws)
    (hw : WritesWithin [snk] ws) : ∀ m ∈ cutRows x src, ZeroedBut (commit s e) m snk := by
  intro m hm r b hreach hsnk
  by_cases hb : b < 16
  · obtain ⟨p, hp, hpos⟩ := exists_position_of_reaches hb hreach
    have hmem := exists_mem_cutWrites hm hp
    have hpc : r = Config.pcIndex → e.writesPc = true := by
      rintro rfl
      exact (writesPc_iff e).mpr ⟨_, he ▸ List.mem_append_left _ hmem, (hpos 0).1⟩
    have hmiss : ∀ w ∈ ws, w.reg = r → w.mask.getLsbD b = false := by
      rintro w hwm rfl
      obtain ⟨n, hn, q, v, hq, rfl⟩ := hw w hwm
      obtain rfl := List.mem_singleton.mp hn
      refine Bool.eq_false_iff.mpr fun hbit => ?_
      rw [reaches_of_elemWrite hq v hbit] at hsnk
      contradiction
    rw [reg_commit hpc, he, applyWrites_append, getLsbD_applyWrites_of_miss ws _ r b hmiss]
    exact getLsbD_applyWrites_of_zeros s.x cutWrites_value ⟨_, hmem, hpos 0⟩
  · exact BitVec.getLsbD_of_ge _ _ (by omega)

end

/-- The inputs of a source are words, which a write to a whole register does not cut. -/
theorem map_inputsOf_mod_word (x : Source) (src : Marked) (s : State) :
    (inputsOf x src s).map (fun e => e % 2 ^ Mode.multi.width) = inputsOf x src s :=
  (List.map_congr_left fun e he => Nat.mod_eq_of_lt (inputsOf_lt e he)).trans (List.map_id' _)

/-! ## PointerRead (42_read_linked.md R182) -/

/-- Settles O25: the readable addresses give the words as inputs, and the sink row takes them uncut. -/
theorem pointerReadResult : Obligations.PointerReadResult := by
  unfold Obligations.PointerReadResult
  intro p q s hcount hlt
  have hread : readable .pointerRead ⟨.multi, p⟩ s = true := by simpa [readable] using hlt
  have hlen : (inputsOf .pointerRead ⟨.multi, p⟩ s).length = (Marked.mk .multi q).count :=
    (length_inputsOf _ _ s).trans hcount
  refine ⟨_, by rw [exec, execPointerRead, pairEffects_ok hread, settle_ok, toHost_next], ?_, ?_, ?_⟩
  · rw [elements_commit_writesTo rfl hlen, map_inputsOf_mod_word, inputsOf, List.map_map]
    refine List.map_congr_left fun a ha => ?_
    simp [Memory.getElem_words, hlt a ha]
  · exact regFrame_commit_writesTo rfl hlen
  · simp [commit, allocAll, writeAll]

/-! ## Allocate (44_reverse_linked.md R240) -/

/-- Allocations that fit end within the capacity (20_memory.md R54). -/
theorem add_sum_le_of_allocFit : ∀ {zs : List Nat} {len : Nat}, len ≤ Config.memCap →
    allocFit len zs = true → len + zs.sum ≤ Config.memCap
  | [], _, hlen, _ => hlen
  | z :: zs, len, _, h => by
    simp only [allocFit, Bool.and_eq_true, decide_eq_true_eq] at h
    obtain ⟨⟨-, hz⟩, hzs⟩ := h
    rw [List.sum_cons, ← Nat.add_assoc]
    exact add_sum_le_of_allocFit hz hzs

/-- The base of an allocation that fits is below the capacity (20_memory.md R54). -/
theorem base_lt_of_allocFit : ∀ {zs : List Nat} {len j : Nat}, allocFit len zs = true →
    j < zs.length → len + (zs.take j).sum < Config.memCap
  | z :: zs, len, j, h, hj => by
    simp only [allocFit, Bool.and_eq_true, decide_eq_true_eq] at h
    obtain ⟨⟨hlen, -⟩, hzs⟩ := h
    cases j with
    | zero => exact hlen
    | succ j =>
      rw [List.take_succ_cons, List.sum_cons, ← Nat.add_assoc]
      exact base_lt_of_allocFit hzs (Nat.lt_of_succ_lt_succ hj)

/-- The bases of the allocations of sizes `zs` in a memory of `len` words: the length before each of
them (R240). -/
def basesOf (len : Nat) (zs : List Nat) : List Nat :=
  (List.range zs.length).map (fun j => len + (zs.take j).sum)

@[simp] theorem length_basesOf (len : Nat) (zs : List Nat) : (basesOf len zs).length = zs.length := by
  simp [basesOf]

/-- The bases of allocations that fit are words. -/
theorem map_basesOf_mod_word {zs : List Nat} {len : Nat} (h : allocFit len zs = true) :
    (basesOf len zs).map (fun e => e % 2 ^ Mode.multi.width) = basesOf len zs := by
  rw [basesOf, List.map_map]
  refine List.map_congr_left fun j hj => Nat.mod_eq_of_lt ?_
  exact base_lt_of_allocFit h (List.mem_range.mp hj)

/-- The effects of an Allocate run whose allocations all fit (R240). -/
theorem allocEffects_ok {x : Source} {src : Marked} {q : PosMask} {s : State}
    (hread : readable x src s = true) (hfit : allocFit s.mem.len (inputsOf x src s) = true) :
    allocEffects x src q s =
      .ok { regw := cutWrites x src ++
              writesTo ⟨.multi, q⟩ (basesOf s.mem.len (inputsOf x src s))
            alloc := inputsOf x src s, n := 2 } := by
  simp only [allocEffects, sourceValues_ok hread, allocBases_ok inputsOf_lt hfit, basesOf]

/-- Settles O43: the inputs are the sizes, the bases are words, and the memory grows by the sum. -/
theorem allocateResult : Obligations.AllocateResult := by
  unfold Obligations.AllocateResult
  intro x src q s hwf hcount hread hfit
  have hin : (inputsOf x src s).length = popcount q := (length_inputsOf x src s).trans hcount
  have hlen : (basesOf s.mem.len (inputsOf x src s)).length = (Marked.mk .multi q).count :=
    (length_basesOf _ _).trans hin
  have hsum := add_sum_le_of_allocFit (Memory.wf_iff.mp hwf).1 hfit
  refine ⟨_, by rw [exec, execAllocate, allocEffects_ok hread hfit, settle_ok, toHost_next],
    ?_, ?_, ?_, ?_, ?_⟩
  · rw [elements_commit_writesTo rfl hlen, map_basesOf_mod_word hfit, basesOf, hin]
  · rw [commit_mem, allocAll_eq _ _ hsum, writeAll, Memory.words_lengthen hwf]
  · exact zeroedBut_commit_cutWrites rfl (writesWithin_writesTo _ _)
  · refine regFrame_commit_cutWrites rfl (writesWithin_writesTo _ _) fun m hm ht => ?_
    obtain rfl := List.mem_singleton.mp hm
    exact exists_writesTo_of_touches hlen ht
  · simp [commit]

/-- Settles O44: the loop over the inputs faults at the sink row, and nothing is committed. -/
theorem allocateBeyondCapacityFaults : Obligations.AllocateBeyondCapacityFaults := by
  unfold Obligations.AllocateBeyondCapacityFaults
  intro x src q s hread hfit
  have heff : allocEffects x src q s = .error ⟨1, .allocCapacity⟩ := by
    simp only [allocEffects, sourceValues_ok hread, allocBases_error inputsOf_lt hfit]
  rw [exec, execAllocate, heff, settle_error, toHost_next]
  rfl

/-! ## PointerWrite (44_reverse_linked.md R241) -/

/-- The stores of a PointerWrite run: each input at the address its sink register holds (R241). -/
def storesOf (x : Source) (src : Marked) (q : PosMask) (s : State) : List (Nat × Word) :=
  ((elements s ⟨.multi, q⟩).zip (inputsOf x src s)).map (fun av => (av.1, BitVec.ofNat 16 av.2))

/-- A store goes to an address that a sink register holds. -/
theorem fst_mem_of_mem_storesOf {x : Source} {src : Marked} {q : PosMask} {s : State} :
    ∀ w ∈ storesOf x src q s, w.1 ∈ elements s ⟨.multi, q⟩ := by
  intro w hw
  obtain ⟨av, hav, rfl⟩ := List.mem_map.mp hw
  exact (List.of_mem_zip hav).1

/-- The effects of a PointerWrite run whose addresses are all valid (R241). -/
theorem pointerWriteEffects_ok {x : Source} {src : Marked} {q : PosMask} {s : State}
    (hcount : src.count = popcount q) (hread : readable x src s = true)
    (hlt : ∀ a ∈ elements s ⟨.multi, q⟩, a < s.mem.len) :
    pointerWriteEffects x src q s =
      .ok { regw := cutWrites x src, memw := storesOf x src q s, n := 2 } := by
  have hlen : (positions q).length = (inputsOf x src s).length := by
    rw [length_positions, length_inputsOf, hcount]
  have hpos : ∀ p ∈ positions q, (s.reg p).toNat < s.mem.len := fun p hp =>
    hlt _ (List.mem_map_of_mem hp)
  have hstores : storesOf x src q s = List.zipWith
      (fun p e => ((s.reg p).toNat, BitVec.ofNat 16 e)) (positions q) (inputsOf x src s) := by
    rw [storesOf, List.zip, List.map_zipWith, elements, List.zipWith_map_left]
    rfl
  simp only [pointerWriteEffects, sourceValues_ok hread, storeWrites_ok hlen hpos, hstores]

/-- Settles O45: the stores are the memory writes of the run, and a Cut's zeroing its only register
requests. -/
theorem pointerWriteResult : Obligations.PointerWriteResult := by
  unfold Obligations.PointerWriteResult
  intro x src q s hwf hcount hread hlt
  have hstore : ∀ w ∈ storesOf x src q s, w.1 < s.mem.len := fun w hw =>
    hlt _ (fst_mem_of_mem_storesOf w hw)
  refine ⟨_, by rw [exec, execPointerWrite, pointerWriteEffects_ok hcount hread hlt, settle_ok,
    toHost_next], ?_, fun a ha => ?_, ?_, ?_, ?_⟩
  · rw [commit_mem, allocAll, words_writeAll _ hwf hstore, storesOf, List.foldl_map]
  · refine read_writeAll_of_not_mem _ hwf fun w hw h => ha ?_
    exact h ▸ fst_mem_of_mem_storesOf w hw
  · exact zeroedBut_commit_cutWrites (List.append_nil _).symm (writesWithin_nil _)
  · simpa using regFrame_commit_cutWrites (sinks := []) (List.append_nil _).symm (writesWithin_nil _)
      (by simp)
  · simp [commit]

/-! ## Storing and loading (95_test_vectors.md E6) -/

theorem positions_one_shiftLeft : ∀ p : Pos, positions (1#16 <<< p.val) = [p] := by decide

@[simp] theorem popcount_one_shiftLeft (p : Pos) : popcount (1#16 <<< p.val) = 1 := by
  rw [popcount, positions_one_shiftLeft, List.length_singleton]

/-- The element of a multi-register row with one mark is its register. -/
@[simp] theorem elements_one_shiftLeft (s : State) (p : Pos) :
    elements s ⟨.multi, 1#16 <<< p.val⟩ = [(s.reg p).toNat] := by
  rw [elements, positions_one_shiftLeft, List.map_singleton]
  rfl

/-- A run that writes no marked position leaves every register but `pc`. -/
theorem RegFrame.reg_eq {s t : State} {n : Nat} {r : Reg} (h : RegFrame s t n [])
    (hr : r ≠ Config.pcIndex) : t.reg r = s.reg r :=
  BitVec.eq_of_getLsbD_eq fun b _ => h.1 r b (by simp) fun hpc => absurd hpc hr

/-- Settles O49: the store leaves register `a` and the memory length, so the load reads the stored
word. -/
theorem storeThenLoadReturnsValue : Obligations.StoreThenLoadReturnsValue := by
  unfold Obligations.StoreThenLoadReturnsValue
  intro s t u v a d hwf ha hlt hstore hload
  obtain ⟨t', hstore', hwords, -, -, hframe, ht⟩ :=
    pointerWriteResult .copy ⟨.multi, 1#16 <<< v.val⟩ (1#16 <<< a.val) s hwf
      (by simp [Marked.count]) rfl (by simpa using hlt)
  obtain rfl : t = t' := Host.Outcome.next.inj (hstore.symm.trans hstore')
  have hreg : t.reg a = s.reg a := hframe.reg_eq ha
  have hset : t.mem.words = s.mem.words.set (s.reg a).toNat (s.reg v) := by
    simpa [inputsOf] using hwords
  have hlen : t.mem.len = s.mem.len := by
    rw [← Memory.length_words, hset, List.length_set, Memory.length_words]
  obtain ⟨u', hload', helem, -, hu⟩ :=
    pointerReadResult (1#16 <<< a.val) (1#16 <<< d.val) t (by simp)
      (by simpa [hreg, hlen] using hlt)
  obtain rfl : u = u' := Host.Outcome.next.inj (hload.symm.trans hload')
  constructor
  · apply BitVec.eq_of_toNat_eq
    simpa [hreg, hset, hlt] using helem
  · rw [hu, ht]

end Sys2Proof.Machine
end

section
/-! PROOFS. 30_encoding.md R80 to R88, R97: what the row decoder answers, one lemma per check in R88's
order, and that the words of rows and of the reserved spaces are read back. -/

namespace Sys2Proof

/-! ## Selectors and codes -/

theorem reservedSel_iff {s : Byte} : reservedSel s = true ↔ 0x11 ≤ s.toNat ∧ s.toNat ≤ 0xFE := by
  simp [reservedSel]

theorem sel_toNat_le (m : Mode) : m.sel.toNat ≤ 0x10 := by
  cases m with
  | multi => decide
  | single r => simp only [Mode.sel, BitVec.toNat_ofNat]; omega

/-- The selector of a mode is the only one that names it (R82). -/
theorem sel_modeOfSel : ∀ s : Byte, s ≠ 0xFF → reservedSel s = false → (modeOfSel s).sel = s := by
  decide

theorem modeOfSel_ne_multi {s : Byte} (h : s.toNat < 0x10) : modeOfSel s ≠ .multi := by
  have hs : s ≠ 0x10 := by rintro rfl; exact absurd h (by decide)
  rw [modeOfSel, if_neg hs]
  exact Mode.noConfusion

/-- The five codes that R84 names are those of the multi-only characters. -/
theorem multiOnly_of_code : ∀ b : Byte, b.toNat ∈ [0x03, 0x04, 0x0F, 0x10, 0x11] →
    ((characterOfCode b).getD .noop).multiOnly = true := by
  decide

/-! ## Reserved slots (R85) -/

theorem firstReserved_eq_none_iff {w : RowWord} :
    firstReserved w = none ↔ ∀ p : Pos, (w.ch[p]).toNat < 0x12 := by
  simp [firstReserved, List.find?_eq_none, characterOfCode_isNone, -Fin.getElem_fin]

theorem firstReserved_isSome_iff {w : RowWord} :
    (firstReserved w).isSome = true ↔ ∃ p : Pos, 0x12 ≤ (w.ch[p]).toNat := by
  simp [Option.isSome_iff_ne_none, firstReserved_eq_none_iff, -Fin.getElem_fin]

/-- The first reserved slot holds a reserved code. -/
theorem reserved_of_firstReserved {w : RowWord} {i : Pos} (h : firstReserved w = some i) :
    0x12 ≤ (w.ch[i]).toNat := by
  have hi := List.find?_some h
  rw [characterOfCode_isNone] at hi
  exact of_decide_eq_true hi

theorem firstReserved_of_only {w : RowWord} {i : Pos} (hi : 0x12 ≤ (w.ch[i]).toNat)
    (honly : ∀ j : Pos, 0x12 ≤ (w.ch[j]).toNat → j = i) : firstReserved w = some i := by
  obtain ⟨j, hj⟩ := Option.isSome_iff_exists.mp (firstReserved_isSome_iff.mpr ⟨i, hi⟩)
  rw [hj, honly j (reserved_of_firstReserved hj)]

/-- In a word without reserved codes, the slots read are the slots' own codes. -/
theorem code_slotsOf {w : RowWord} (h : firstReserved w = none) (p : Pos) :
    (slotsOf w)[p].code = w.ch[p] := by
  have hsome : (characterOfCode w.ch[p]).isNone = false := by
    rw [characterOfCode_isNone]
    exact decide_eq_false (Nat.not_le_of_lt (firstReserved_eq_none_iff.mp h p))
  obtain ⟨k, hk⟩ := Option.isSome_iff_exists.mp (Option.isNone_eq_false_iff.mp hsome)
  rw [slotsOf, tabulate_getElem, hk]
  exact code_of_characterOfCode _ _ hk

/-! ## The checks of the row decoder, in R88's order -/

theorem decodeRow_of_endNonZero {w : RowWord} {p : Pos} (hs : w.sel = 0xFF) (hp : w.ch[p] ≠ 0x00) :
    decodeRow w = .error .endNonZero := by
  have hany : allPos.any (fun q => w.ch[q] != 0x00) = true :=
    List.any_eq_true.mpr ⟨p, mem_allPos p, bne_iff_ne.mpr hp⟩
  rw [decodeRow, if_pos hs, if_pos hany]

theorem decodeRow_of_reservedSel {w : RowWord} (h : reservedSel w.sel = true) :
    decodeRow w = .error .unknownSelector := by
  have hne : w.sel ≠ 0xFF := fun he => absurd (he ▸ h) (by decide)
  rw [decodeRow, if_neg hne, if_pos h]

/-- A row selector passes the two checks on selectors. -/
theorem decodeRow_of_rowSel {w : RowWord} (h : w.sel.toNat ≤ 0x10) :
    decodeRow w =
      if (firstReserved w).isSome then .error .reservedCharacter
      else if modeOfSel w.sel != .multi && allPos.any (fun p => (slotsOf w)[p].multiOnly) then
        .error .multiOnlyInSingle
      else .ok (.row ⟨modeOfSel w.sel, slotsOf w⟩) := by
  have hne : w.sel ≠ 0xFF := fun he => absurd (he ▸ h) (by decide)
  have hres : ¬ reservedSel w.sel = true := fun hs => by
    obtain ⟨hlo, -⟩ := reservedSel_iff.mp hs
    omega
  rw [decodeRow, if_neg hne, if_neg hres]

theorem decodeRow_of_reservedCode {w : RowWord} {p : Pos} (hs : w.sel.toNat ≤ 0x10)
    (hp : 0x12 ≤ (w.ch[p]).toNat) : decodeRow w = .error .reservedCharacter := by
  rw [decodeRow_of_rowSel hs, if_pos (firstReserved_isSome_iff.mpr ⟨p, hp⟩)]

theorem decodeRow_of_multiOnly {w : RowWord} {p : Pos} (hs : w.sel.toNat < 0x10)
    (hdef : ∀ q : Pos, (w.ch[q]).toNat < 0x12)
    (hp : (w.ch[p]).toNat ∈ [0x03, 0x04, 0x0F, 0x10, 0x11]) :
    decodeRow w = .error .multiOnlyInSingle := by
  have hany : allPos.any (fun q => (slotsOf w)[q].multiOnly) = true := by
    refine List.any_eq_true.mpr ⟨p, mem_allPos p, ?_⟩
    rw [slotsOf, tabulate_getElem]
    exact multiOnly_of_code _ hp
  have hmode : (modeOfSel w.sel != .multi) = true := bne_iff_ne.mpr (modeOfSel_ne_multi hs)
  rw [decodeRow_of_rowSel hs.le, firstReserved_eq_none_iff.mpr hdef, hany, hmode]
  rfl

/-- A word that decodes to the end marker is its word (R87). -/
theorem eq_endWord_of_decodeRow {w : RowWord} (h : decodeRow w = .ok .endMarker) : w = endWord := by
  have hs : w.sel = 0xFF := by
    by_contra hne
    rw [decodeRow, if_neg hne] at h
    split_ifs at h
    cases h
  have hch : ∀ p : Pos, w.ch[p] = 0x00 := fun p => by
    by_contra hp
    rw [decodeRow_of_endNonZero hs hp] at h
    cases h
  have hslots : w.ch = tabulate fun _ => 0x00 :=
    vector16_ext fun p => by rw [hch p, tabulate_getElem]
  obtain ⟨sel, ch⟩ := w
  exact congrArg₂ RowWord.mk hs hslots

/-- A word that decodes to a row is the row's word (R82, R83). -/
theorem word_of_decodeRow {w : RowWord} {r : Row} (h : decodeRow w = .ok (.row r)) : r.word = w := by
  obtain ⟨hend, hres, hnone, rfl, -⟩ := decodeRow_row h
  have hslots : (tabulate fun p => (slotsOf w)[p].code) = w.ch :=
    vector16_ext fun p => by rw [tabulate_getElem, code_slotsOf hnone]
  exact congrArg₂ RowWord.mk (sel_modeOfSel w.sel hend hres) hslots

/-- Settles O4: the checks that a decoded word has passed determine its selector and each slot. -/
theorem decodedRowIsItsWord : Obligations.DecodedRowIsItsWord := by
  unfold Obligations.DecodedRowIsItsWord
  exact ⟨fun _ _ => word_of_decodeRow, fun _ => eq_endWord_of_decodeRow⟩

/-! ## Row formats (R80 to R87) -/

theorem decode_of_reservedSel {w : RowWord} (h : reservedSel w.sel = true) :
    decode w = .ok (.reservedSelector w.sel) := by
  rw [decode, decodeRow_of_reservedSel h]

theorem decode_of_firstReserved {w : RowWord} {i : Pos} (hs : w.sel.toNat ≤ 0x10)
    (hi : firstReserved w = some i) :
    decode w = .ok (.reservedCharacter (modeOfSel w.sel) i w.ch[i]) := by
  rw [decode, decodeRow_of_reservedCode hs (reserved_of_firstReserved hi)]
  simp only [hi]

/-- A row's word is read back as the row's instruction, if the decoder lets the row pass (R84). -/
theorem decode_word {r : Row} (h : r.mode = .multi ∨ noMultiOnly r.ch = true) :
    decode r.word = .ok r.instr :=
  decode_of_row (decodeRow_word r h)

/-- The representative word of a reserved character (log entry 11) has that slot as its only reserved
one. -/
theorem decode_reservedCharacter (m : Mode) (i : Pos) {code : Byte} (h : 0x12 ≤ code.toNat) :
    decode ⟨m.sel, tabulate fun p => if p = i then code else 0x00⟩ =
      .ok (.reservedCharacter m i code) := by
  have hi : firstReserved ⟨m.sel, tabulate fun p => if p = i then code else 0x00⟩ = some i := by
    refine firstReserved_of_only ?_ fun j hj => ?_
    · rwa [tabulate_getElem, if_pos rfl]
    · by_contra hne
      rw [tabulate_getElem, if_neg hne] at hj
      exact absurd hj (by decide)
  rw [decode_of_firstReserved (sel_toNat_le m) hi, modeOfSel_sel, tabulate_getElem, if_pos rfl]

/-- Settles O2: one case per row format, each read back by the decoder's lemma for its selector. -/
theorem rowDecodeEncode : Obligations.RowDecodeEncode := by
  unfold Obligations.RowDecodeEncode
  intro i hrow hwf
  cases i with
  | single r ch => exact congrArg ([·]) (decode_word (r := ⟨.single r, ch⟩) (.inr hwf))
  | multi ch => exact congrArg ([·]) (decode_word (r := ⟨.multi, ch⟩) (.inl rfl))
  | endMark => exact congrArg ([·]) (decode_of_endMarker decodeRow_endWord)
  | reservedSelector sel => exact congrArg ([·]) (decode_of_reservedSel (w := ⟨sel, _⟩) hwf)
  | reservedCharacter m i code =>
    exact congrArg ([·]) (decode_reservedCharacter m i (of_decide_eq_true hwf))
  | _ => cases hrow

/-- Settles O1: the seven words are evaluated. -/
theorem sampleWordsDecode : Obligations.SampleWordsDecode := by
  unfold Obligations.SampleWordsDecode
  decide

end Sys2Proof
end

section
/-! PROOFS. 30_encoding.md R80 to R83 with 40_run_resolver.md R118 to R122: the row words of a run, one
lemma per class of run, decode and resolve to the run. -/

namespace Sys2Proof.Machine

/-! ## Marks -/

theorem someMarked_iff {m : PosMask} : someMarked m = true ↔ m ≠ 0#16 := bne_iff_ne

theorem sameCount_iff {a b : PosMask} : sameCount a b = true ↔ popcount a = popcount b := beq_iff_eq

/-- A row with as many marks as a marked one is marked. -/
theorem ne_zero_of_popcount_eq {a b : PosMask} (ha : a ≠ 0#16) (h : popcount b = popcount a) :
    b ≠ 0#16 := by
  rintro rfl
  exact absurd h (popcount_pos ha).ne

theorem sourceModeOk_iff {x : Source} {src : Marked} :
    sourceModeOk x src = true ↔ x.char.multiOnly = false ∨ src.mode = .multi := by
  cases x <;> simp [sourceModeOk, Source.char, Character.multiOnly]

theorem char_ne_noop_of_source (x : Source) : x.char ≠ .noop := by cases x <;> decide

theorem char_ne_noop_of_sink (x : Source) (y : Sink) : y.char x ≠ .noop := by
  cases y with
  | same => exact char_ne_noop_of_source x
  | allocate => exact Character.noConfusion
  | pointerWrite => exact Character.noConfusion

theorem char_ne_noop_of_operate (o : Operate) : o.char ≠ .noop := by cases o <;> decide

theorem multiOnly_operate (o : Operate) : o.char.multiOnly = false := by cases o <;> rfl

/-! ## Rows of one character -/

/-- A run starts with the row that its first word decodes to. -/
theorem decodeRun_of_resolve {w : RowWord} {r : Row} {rest : List RowWord} {run : Run}
    (hw : decodeRow w = .ok (.row r)) (hr : resolve r rest = .ok run) :
    decodeRun (w :: rest) = .ok (run.instr r) := by
  simp only [decodeRun, hw, hr]

theorem classify_uniformRow {k : Character} (hk : k ≠ .noop) {m : Marked} (hm : m.mask ≠ 0#16) :
    classify (uniformRow k m) = classOfKind k :=
  classify_of_singleton (kinds_uniformRow hk hm)

/-! ## Nop and Local runs (R119, R120) -/

theorem resolve_of_nop {r : Row} (h : classify r = .ok .nop) (rest : List RowWord) :
    resolve r rest = .ok .nop := by
  simp only [resolve, h]

theorem decodeRun_noop (m : Mode) (rest : List RowWord) :
    decodeRun (markedWord .noop ⟨m, 0⟩ :: rest) = .ok (.noop m) := by
  have hclass := classify_of_nil (kinds_uniformRow_zero .noop m)
  exact decodeRun_of_resolve (decodeRow_markedWord (.inl rfl)) (resolve_of_nop hclass rest)

/-- The instruction of a local character at the marked positions. -/
def localRun (m : Marked) : Character → Instr
  | .zero => .zero m
  | .one => .one m
  | .random => .random m
  | .readStdin => .readStdin m.mask
  | .writeStdout => .writeStdout m.mask
  | k => (uniformRow k m).instr

theorem localInstr_uniformRow {k : Character} (hk : k ≠ .noop) {m : Marked} (hm : m.mask ≠ 0#16) :
    localInstr (uniformRow k m) = localRun m k := by
  have hmask := maskOf_uniformRow hk m
  have hmarked := marked_uniformRow hk m
  rw [localInstr, kinds_uniformRow hk hm]
  cases k <;> simp only [hmask, hmarked, localRun]

theorem classOfKind_local {k : Character} (hk : k.isLocal = true) : classOfKind k = .ok .loc := by
  cases k with
  | zero => rfl
  | one => rfl
  | random => rfl
  | readStdin => rfl
  | writeStdout => rfl
  | _ => cases hk

theorem decodeRun_local {k : Character} {m : Marked} (hk : k.isLocal = true)
    (hm : someMarked m.mask = true) (hmode : k.multiOnly = false ∨ m.mode = .multi)
    (rest : List RowWord) : decodeRun (markedWord k m :: rest) = .ok (localRun m k) := by
  have hne : k ≠ .noop := by rintro rfl; cases hk
  have hmask := someMarked_iff.mp hm
  have hclass : classify (uniformRow k m) = .ok .loc := by
    rw [classify_uniformRow hne hmask, classOfKind_local hk]
  rw [decodeRun_of_resolve (decodeRow_markedWord hmode) (resolve_of_local hclass rest), Run.instr,
    localInstr_uniformRow hne hmask]

/-! ## Pairs (R121) -/

theorem decodeRun_pair (x : Source) {src : Marked} (y : Sink) {snk : Marked}
    (hm : someMarked src.mask = true) (hc : sameCount src.mask snk.mask = true)
    (hsrc : sourceModeOk x src = true) (hsnk : (y.char x).multiOnly = false ∨ snk.mode = .multi)
    (rest : List RowWord) :
    decodeRun (markedWord x.char src :: markedWord (y.char x) snk :: rest) =
      .ok (pairInstr x src snk y) := by
  have hx := char_ne_noop_of_source x
  have hy := char_ne_noop_of_sink x y
  have hcount : popcount snk.mask = popcount src.mask := (sameCount_iff.mp hc).symm
  have hmask := someMarked_iff.mp hm
  have hsame : (uniformRow (y.char x) snk).count (y.char x) =
      (uniformRow x.char src).count x.char := by
    rw [count_uniformRow hy, count_uniformRow hx, Marked.count, Marked.count, hcount]
  have hcheck : checkSink x ((uniformRow x.char src).count x.char) (uniformRow (y.char x) snk) =
      .ok (y, snk) := by
    rw [checkSink_ok (kinds_uniformRow hy (ne_zero_of_popcount_eq hmask hcount)) hsame,
      marked_uniformRow hy]
  have hresolve : resolve (uniformRow x.char src) (markedWord (y.char x) snk :: rest) =
      .ok (.pair x src y snk) := by
    simp only [resolve, classify_uniformRow hx hmask, classOfKind_source, resolveSink,
      decodeRow_markedWord hsnk, hcheck, marked_uniformRow hx]
  exact decodeRun_of_resolve (decodeRow_markedWord (sourceModeOk_iff.mp hsrc)) hresolve

/-! ## Chains (R122) -/

/-- The look-ahead takes the rows of a chain up to the end marker. -/
theorem chainRows_markedWords (o : Operate) {c : Nat} (rest : List RowWord) :
    ∀ (ms : List Marked) (q : Nat), (∀ m ∈ ms, m.mask ≠ 0#16 ∧ m.count = c) →
      chainRows o c q (ms.map (markedWord o.char) ++ endWord :: rest) = .ok ms
  | [], q, _ => by simp only [List.map_nil, List.nil_append, chainRows, decodeRow_endWord]
  | m :: ms, q, h => by
    obtain ⟨hm, hc⟩ := h m (by simp)
    have ih := chainRows_markedWords o rest ms (q + 1) fun n hn => h n (by simp [hn])
    rw [List.map_cons, List.cons_append, chainRows_cons
      (decodeRow_markedWord (.inl (multiOnly_operate o))) (chainRow_uniformRow o hm hc), ih]

theorem chainOk_iff {head : Marked} {rest : List Marked} :
    chainOk head rest = true ↔
      head.mask ≠ 0#16 ∧ rest ≠ [] ∧ ∀ m ∈ rest, popcount head.mask = popcount m.mask := by
  simp [chainOk, someMarked_iff, sameCount_iff, and_assoc]

theorem decodeRun_chain (o : Operate) {head : Marked} {rest : List Marked}
    (h : chainOk head rest = true) (ws : List RowWord) :
    decodeRun ((head :: rest).map (markedWord o.char) ++ endWord :: ws) =
      .ok (chainInstr head rest o) := by
  have ho := char_ne_noop_of_operate o
  obtain ⟨hm, hrest, hcount⟩ := chainOk_iff.mp h
  have hrows := chainRows_markedWords o (c := head.count) ws rest 1 fun m hmem =>
    ⟨ne_zero_of_popcount_eq hm (hcount m hmem).symm, (hcount m hmem).symm⟩
  obtain ⟨m, ms, rfl⟩ := List.exists_cons_of_ne_nil hrest
  have hresolve : resolve (uniformRow o.char head)
      ((m :: ms).map (markedWord o.char) ++ endWord :: ws) = .ok (.chain o head (m :: ms)) := by
    simp only [resolve, classify_uniformRow ho hm, classOfKind_chain, count_uniformRow ho,
      hrows, marked_uniformRow ho]
  exact decodeRun_of_resolve (decodeRow_markedWord (.inl (multiOnly_operate o))) hresolve

/-- Settles O3: each character is a Nop or Local run, a source or a sink of a pair, or a chain. -/
theorem runDecodeEncode : Obligations.RunDecodeEncode := by
  unfold Obligations.RunDecodeEncode
  intro i rest hrow hwf
  cases i with
  | noop m => exact decodeRun_noop m _
  | zero p => exact decodeRun_local (k := .zero) rfl hwf (.inl rfl) _
  | one p => exact decodeRun_local (k := .one) rfl hwf (.inl rfl) _
  | random p => exact decodeRun_local (k := .random) rfl hwf (.inl rfl) _
  | readStdin p => exact decodeRun_local (k := .readStdin) (m := ⟨.multi, p⟩) rfl hwf (.inr rfl) _
  | writeStdout p =>
    exact decodeRun_local (k := .writeStdout) (m := ⟨.multi, p⟩) rfl hwf (.inr rfl) _
  | copy src snk =>
    obtain ⟨hm, hc⟩ := Bool.and_eq_true_iff.mp hwf
    exact decodeRun_pair .copy .same hm hc rfl (.inl rfl) _
  | cut src snk =>
    obtain ⟨hm, hc⟩ := Bool.and_eq_true_iff.mp hwf
    exact decodeRun_pair .cut .same hm hc rfl (.inl rfl) _
  | pointerRead p q =>
    obtain ⟨hm, hc⟩ := Bool.and_eq_true_iff.mp hwf
    exact decodeRun_pair .pointerRead (src := ⟨.multi, p⟩) .same (snk := ⟨.multi, q⟩) hm hc rfl
      (.inr rfl) _
  | allocate x src q =>
    obtain ⟨hmc, hsrc⟩ := Bool.and_eq_true_iff.mp hwf
    obtain ⟨hm, hc⟩ := Bool.and_eq_true_iff.mp hmc
    exact decodeRun_pair x .allocate (snk := ⟨.multi, q⟩) hm hc hsrc (.inr rfl) _
  | pointerWrite x src q =>
    obtain ⟨hmc, hsrc⟩ := Bool.and_eq_true_iff.mp hwf
    obtain ⟨hm, hc⟩ := Bool.and_eq_true_iff.mp hmc
    exact decodeRun_pair x .pointerWrite (snk := ⟨.multi, q⟩) hm hc hsrc (.inr rfl) _
  | add head tail => exact decodeRun_chain .add hwf rest
  | sub head tail => exact decodeRun_chain .sub hwf rest
  | mul head tail => exact decodeRun_chain .mul hwf rest
  | div head tail => exact decodeRun_chain .div hwf rest
  | and head tail => exact decodeRun_chain .and hwf rest
  | or head tail => exact decodeRun_chain .or hwf rest
  | xor head tail => exact decodeRun_chain .xor hwf rest
  | _ => cases hrow

end Sys2Proof.Machine
end

section
/-! PROOFS. 30_encoding.md R81 with 70_reset_and_hazards.md R292, R294: images as bytes, and which of
them a launch takes. -/

namespace Sys2Proof.Machine

/-! ## Row words as bytes (30_encoding.md R80) -/

@[simp] theorem length_bytes (w : RowWord) : w.bytes.length = Config.rowBytes := by
  simp [RowWord.bytes, Config.rowBytes]

@[simp] theorem rowOfBytes_bytes (w : RowWord) : rowOfBytes w.bytes = some w := by
  rw [RowWord.bytes, rowOfBytes, dif_pos w.ch.length_toList]
  rfl

theorem length_of_rowOfBytes {bs : List Byte} {w : RowWord} (h : rowOfBytes bs = some w) :
    bs.length = Config.rowBytes := by
  unfold rowOfBytes at h
  split at h
  · cases h
  · split at h
    · next hlen => rw [List.length_cons, hlen, Config.rowBytes]
    · cases h

/-! ## Images as bytes (30_encoding.md R81) -/

theorem rowsOfBytes_flatMap : ∀ ws : List RowWord,
    rowsOfBytes ws.length (ws.flatMap RowWord.bytes) = some ws
  | [] => rfl
  | w :: ws => by
    rw [List.length_cons, List.flatMap_cons, rowsOfBytes, List.take_left' (length_bytes w),
      List.drop_left' (length_bytes w), rowOfBytes_bytes, rowsOfBytes_flatMap ws]

/-- As many rows as were asked for are read from all of the bytes. -/
theorem length_of_rowsOfBytes : ∀ {n : Nat} {bs : List Byte} {ws : List RowWord},
    rowsOfBytes n bs = some ws → bs.length = Config.rowBytes * n
  | 0, [], _, _ => rfl
  | 0, _ :: _, _, h => by cases h
  | n + 1, bs, ws, h => by
    rw [rowsOfBytes] at h
    split at h
    · next hrow hrows =>
      have hhead := length_of_rowOfBytes hrow
      have htail := length_of_rowsOfBytes hrows
      rw [List.length_take] at hhead
      rw [List.length_drop] at htail
      rw [Nat.mul_succ]
      omega
    · cases h

theorem imageOfBytes_flatMap (ws : List RowWord) :
    imageOfBytes (ws.flatMap RowWord.bytes) = some ws := by
  have hlen : (ws.flatMap RowWord.bytes).length = ws.length * Config.rowBytes := by
    simp [List.length_flatMap]
  rw [imageOfBytes, hlen, Nat.mul_div_cancel _ (by decide), rowsOfBytes_flatMap]

theorem imageOfBytes_eq_none {bs : List Byte} (h : bs.length % Config.rowBytes ≠ 0) :
    imageOfBytes bs = none := by
  refine Option.eq_none_iff_forall_ne_some.mpr fun ws hws => h ?_
  rw [length_of_rowsOfBytes hws, Nat.mul_mod_right]

/-! ## Launch (70_reset_and_hazards.md R292, R294) -/

theorem launch_isSome (img : List RowWord) (inp : List Byte) (c : Bool) :
    (launch img inp c).isSome = validImage img := by
  unfold launch
  split
  · next h => rw [h]; rfl
  · next h => rw [Bool.eq_false_iff.mpr h]; rfl

/-- Settles O60: reading back row by row, the length that a reading needs, and R292's three conditions
as the launch checks them. -/
theorem loaderTakesValidImages : Obligations.LoaderTakesValidImages := by
  unfold Obligations.LoaderTakesValidImages
  refine ⟨imageOfBytes_flatMap, fun _ => imageOfBytes_eq_none, fun img inp c => ?_⟩
  rw [launch_isSome, validImage_iff]
  rfl

end Sys2Proof.Machine
end

section
/-! PROOFS. 30_encoding.md R84 to R88 with 60_exceptions.md R261 to R265: a Running step whose head row
word the decoder rejects takes the DecodeFault. The instructions of the two reserved spaces take the
same fault as the row decoder raises, so one lemma covers all four reasons. -/

namespace Sys2Proof.Machine

/-- A fault at the head row, as its three numbers (60_exceptions.md R261 to R263). -/
theorem takeFault_head (s : State) (e : FaultReason) :
    s.takeFault ⟨0, e⟩ =
      faultedAt s (kindCode (kindOfReason e)).toNat s.pc.toNat (reasonCode e).toNat := by
  simp [State.takeFault, faultedAt, faultRecord]

/-- What `decode` makes of a word that the row decoder rejects: an instruction that takes the fault, or
the rejection itself. -/
theorem decode_of_error {w : RowWord} {e : FaultReason} (h : decodeRow w = .error e) :
    decode w = .error e ∨
      ∃ i, decode w = .ok i ∧ ∀ s, exec i s = .next (s.takeFault ⟨0, e⟩) := by
  unfold decode
  rw [h]
  split
  · next heq => cases heq
  · next heq => cases heq
  · next heq => cases heq; exact .inr ⟨_, rfl, fun _ => rfl⟩
  · next heq =>
    cases heq
    split
    · exact .inr ⟨_, rfl, fun _ => rfl⟩
    · exact .inl rfl

/-- A Running step whose head row word is rejected takes the fault at the head row (R116, R123). -/
theorem step_of_decodeRow_error {s : State} {w : RowWord} {e : FaultReason}
    (hr : s.runstate = .running) (hw : s.image[s.pc.toNat]? = some w)
    (hd : decodeRow w = .error e) :
    step s = .next
      (faultedAt s (kindCode (kindOfReason e)).toNat s.pc.toNat (reasonCode e).toNat) := by
  rw [← takeFault_head]
  rcases decode_of_error hd with hdec | ⟨i, hdec, hexec⟩
  · simp only [step, hr, fetchHead, rowsAtPc_of_getElem? hw, hdec]
  · simp only [step, hr, fetchHead, rowsAtPc_of_getElem? hw, hdec, hexec]

/-- Settles O5: the selector check is the first that such a word meets. -/
theorem reservedSelectorFaults : Obligations.ReservedSelectorFaults := by
  unfold Obligations.ReservedSelectorFaults
  have hdec : ∀ w : RowWord, 0x11 ≤ w.sel.toNat → w.sel.toNat ≤ 0xFE →
      decodeRow w = .error .unknownSelector := fun w hlo hhi =>
    decodeRow_of_reservedSel (reservedSel_iff.mpr ⟨hlo, hhi⟩)
  refine ⟨fun _ s => ?_, fun s w hr hw hlo hhi => ?_, hdec⟩
  · exact congrArg Host.Outcome.next (takeFault_head s .unknownSelector)
  · exact step_of_decodeRow_error hr hw (hdec w hlo hhi)

/-- Settles O6: a row selector passes the selector checks, and the reserved slot is then found. -/
theorem reservedCharacterFaults : Obligations.ReservedCharacterFaults := by
  unfold Obligations.ReservedCharacterFaults
  refine ⟨fun _ _ _ s => ?_, fun s w p hr hw hs hp => ?_, fun _ _ => decodeRow_of_reservedCode⟩
  · exact congrArg Host.Outcome.next (takeFault_head s .reservedCharacter)
  · exact step_of_decodeRow_error hr hw (decodeRow_of_reservedCode hs hp)

/-- Settles O7: with every slot a defined code, the check of R84 is the one that fails. -/
theorem multiOnlyInSingleFaults : Obligations.MultiOnlyInSingleFaults := by
  unfold Obligations.MultiOnlyInSingleFaults
  refine ⟨fun s w p hr hw hs hdef hp => ?_, fun _ _ => decodeRow_of_multiOnly⟩
  exact step_of_decodeRow_error hr hw (decodeRow_of_multiOnly hs hdef hp)

/-- Settles O8: the end marker's own check is made before any on the slots' codes. -/
theorem endMarkerWithNonZeroSlotFaults : Obligations.EndMarkerWithNonZeroSlotFaults := by
  unfold Obligations.EndMarkerWithNonZeroSlotFaults
  intro s w p hr hw hs hp
  exact step_of_decodeRow_error hr hw (decodeRow_of_endNonZero hs hp)

end Sys2Proof.Machine
end

section
/-! PROOFS. 40_run_resolver.md R115 to R119, R128, R129 with 70_reset_and_hazards.md R298: a Running step
is the meaning of the run that its rows decode to, or takes the fault that stopped them; every step
answers a next state, and only the end marker halts. -/

namespace Sys2Proof.Machine

/-! ## Fetch and meaning (R115, R116) -/

/-- What a Running step makes of an instruction, or of the fault raised in its place (R123). -/
def runFetched (s : State) : Except Raise Instr → Host.Outcome State Fault Refusal
  | .ok i => exec i s
  | .error r => .next (s.takeFault r)

theorem step_of_running {s : State} (hr : s.runstate = .running) :
    step s = runFetched s (fetchHead s) := by
  simp only [step, hr]
  cases fetchHead s <;> rfl

theorem fetchHead_of_decode {s : State} {w : RowWord} {i : Instr}
    (hw : s.image[s.pc.toNat]? = some w) (hd : decode w = .ok i) : fetchHead s = .ok i := by
  simp only [fetchHead, rowsAtPc_of_getElem? hw, hd]

theorem rowsAtPc_of_beyond {s : State} (h : s.image.length ≤ s.pc.toNat) : s.rowsAtPc = [] :=
  List.drop_eq_nil_of_le h

theorem fetchHead_of_beyond {s : State} (h : s.image.length ≤ s.pc.toNat) :
    fetchHead s = .error ⟨0, .noRow⟩ := by
  simp only [fetchHead, rowsAtPc_of_beyond h]

/-- Settles O9: the fetch gives the decoded instruction. -/
theorem stepRunsDecodedInstruction : Obligations.StepRunsDecodedInstruction := by
  unfold Obligations.StepRunsDecodedInstruction
  intro s w i hr hw hd
  rw [step_of_running hr, fetchHead_of_decode hw hd, runFetched]

/-- Settles O12: the fetch finds no row, and its fault is taken at the head. -/
theorem fetchBeyondImageFaults : Obligations.FetchBeyondImageFaults := by
  unfold Obligations.FetchBeyondImageFaults
  intro s hr hlen
  rw [step_of_running hr, fetchHead_of_beyond hlen, runFetched, takeFault_head]
  rfl

theorem step_of_halted {s : State} (h : s.runstate = .halted) : step s = .next s := by
  simp only [step, h]

/-- Settles O13: the step looks at RUNSTATE first. -/
theorem terminalStatesKeepEverything : Obligations.TerminalStatesKeepEverything := by
  unfold Obligations.TerminalStatesKeepEverything
  rintro s (h | h)
  · exact step_of_halted h
  · exact step_of_faulted h

/-- Settles O14: the end marker's word decodes to the end marker, whose meaning the step is. -/
theorem endMarkerHalts : Obligations.EndMarkerHalts := by
  unfold Obligations.EndMarkerHalts
  have hexec (s : State) : exec .endMark s = .next { s with runstate := .halted } := rfl
  refine ⟨hexec, fun s hr hw => ?_⟩
  rw [stepRunsDecodedInstruction s _ _ hr hw (decode_of_endMarker decodeRow_endWord), hexec]

/-- Settles O15: a commit without requests has the frame of no written row. -/
theorem noopOnlyAdvancesPc : Obligations.NoopOnlyAdvancesPc := by
  unfold Obligations.NoopOnlyAdvancesPc
  intro m s
  have hframe : RegFrame s (commit s { n := 1 }) 1 [] :=
    regFrame_commit (writesWithin_nil _) (by simp)
  refine ⟨commit s { n := 1 }, rfl, ?_, hframe.2 (by simp), fun r hr => hframe.reg_eq hr⟩
  simp [commit, allocAll, writeAll]

/-! ## The resolved run and its meaning (R118 to R122) -/

/-- A row that the decoder lets pass holds a multi-only character in multi-register mode only
(30_encoding.md R84). -/
theorem mode_of_multiOnly {r : Row} {k : Character} (h : r.mode = .multi ∨ noMultiOnly r.ch = true)
    (hk : k ∈ r.kinds) (hmulti : k.multiOnly = true) : r.mode = .multi := by
  refine h.resolve_right fun hno => ?_
  obtain ⟨-, p, rfl⟩ := mem_kinds.mp hk
  have hp := List.all_eq_true.mp hno p (mem_allPos p)
  rw [hmulti] at hp
  cases hp

/-- The row of the one kind `k`, given by its mode and its mask. -/
theorem uniformRow_multi_of_kinds {r : Row} {k : Character} (hk : r.kinds = [k])
    (hm : r.mode = .multi) : uniformRow k ⟨.multi, r.maskOf k⟩ = r := by
  rw [← hm]
  exact uniformRow_of_kinds hk

/-- The instruction of a Local row runs that row (41_write_class.md R156). -/
theorem exec_localInstr {r : Row} {s : State} (h : r.mode = .multi ∨ noMultiOnly r.ch = true)
    (hrow : runRow r s = toHost s (runLocal r s)) :
    exec (localInstr r) s = toHost s (runLocal r s) := by
  unfold localInstr
  split
  · next hk => rw [exec, execZero, uniformRow_of_kinds hk]
  · next hk => rw [exec, execOne, uniformRow_of_kinds hk]
  · next hk => rw [exec, execRandom, uniformRow_of_kinds hk]
  · next hk =>
    have hm := mode_of_multiOnly h (hk ▸ List.mem_singleton_self _) rfl
    rw [exec, execReadStdin, uniformRow_multi_of_kinds hk hm]
  · next hk =>
    have hm := mode_of_multiOnly h (hk ▸ List.mem_singleton_self _) rfl
    rw [exec, execWriteStdout, uniformRow_multi_of_kinds hk hm]
  · rw [exec_row_instr h, hrow]

theorem exec_pairInstr (x : Source) (src snk : Marked) (y : Sink) (s : State) :
    exec (pairInstr x src snk y) s = runPair x src y snk s := by
  cases y with
  | allocate => rfl
  | pointerWrite => rfl
  | same => cases x <;> rfl

theorem exec_chainInstr (o : Operate) (head : Marked) (rest : List Marked) (s : State) :
    exec (chainInstr head rest o) s = runChain o head rest s := by
  cases o <;> rfl

/-- A row whose run is resolved does what the run's instruction means. -/
theorem runRow_of_resolve {r : Row} {s : State} {run : Run}
    (h : r.mode = .multi ∨ noMultiOnly r.ch = true) (hrun : resolve r s.rowsAfterPc = .ok run) :
    runRow r s = exec (run.instr r) s := by
  cases run with
  | nop => simp only [runRow, hrun, Run.instr, exec]
  | loc =>
    have hrow : runRow r s = toHost s (runLocal r s) := by simp only [runRow, hrun]
    rw [hrow, Run.instr, exec_localInstr h hrow]
  | pair x src y snk => simp only [runRow, hrun, Run.instr, exec_pairInstr]
  | chain o head rest => simp only [runRow, hrun, Run.instr, exec_chainInstr]

theorem runRow_of_resolve_error {r : Row} {s : State} {e : Raise}
    (h : resolve r s.rowsAfterPc = .error e) : runRow r s = .next (s.takeFault e) := by
  simp only [runRow, h]

theorem decodeRun_of_resolve_error {w : RowWord} {r : Row} {rest : List RowWord} {e : Raise}
    (hw : decodeRow w = .ok (.row r)) (h : resolve r rest = .error e) :
    decodeRun (w :: rest) = .error e := by
  simp only [decodeRun, hw, h]

/-- Where no row is decoded, the run is what the fetch of the head gives. -/
theorem decodeRun_eq_fetchHead {s : State} {w : RowWord} (hw : s.image[s.pc.toNat]? = some w)
    (h : ∀ r, decodeRow w ≠ .ok (.row r)) : decodeRun s.rowsAtPc = fetchHead s := by
  simp only [fetchHead, rowsAtPc_of_getElem? hw]
  cases hd : decodeRow w with
  | error e => cases hdec : decode w <;> simp only [decodeRun, hd, hdec]
  | ok d =>
    cases d with
    | row r => exact absurd hd (h r)
    | endMarker => simp only [decodeRun, hd, decode_of_endMarker hd]

/-- A Running step is the meaning of the run its rows decode to, or takes their fault (R115, R123). -/
theorem step_eq_decodeRun {s : State} (hr : s.runstate = .running) :
    step s = runFetched s (decodeRun s.rowsAtPc) := by
  cases hw : s.image[s.pc.toNat]? with
  | none =>
    have hlen := List.getElem?_eq_none_iff.mp hw
    rw [step_of_running hr, fetchHead_of_beyond hlen, rowsAtPc_of_beyond hlen, decodeRun]
  | some w =>
    by_cases hrow : ∃ r, decodeRow w = .ok (.row r)
    · obtain ⟨r, hd⟩ := hrow
      obtain ⟨-, -, -, -, hmode⟩ := decodeRow_row hd
      rw [step_of_row hr hw hd, rowsAtPc_of_getElem? hw]
      cases hres : resolve r s.rowsAfterPc with
      | error e => rw [runRow_of_resolve_error hres, decodeRun_of_resolve_error hd hres, runFetched]
      | ok run => rw [runRow_of_resolve hmode hres, decodeRun_of_resolve hd hres, runFetched]
    · rw [step_of_running hr, decodeRun_eq_fetchHead hw (not_exists.mp hrow)]

/-- Settles O10: the step runs what its rows decode to. -/
theorem stepRunsResolvedRun : Obligations.StepRunsResolvedRun := by
  unfold Obligations.StepRunsResolvedRun
  intro s i hr hrun
  rw [step_eq_decodeRun hr, State.rowsAtPc, hrun, runFetched]

/-- Settles O11: the step takes the fault its rows raise, as R265 takes every fault. -/
theorem resolverFaultIsTaken : Obligations.ResolverFaultIsTaken := by
  unfold Obligations.ResolverFaultIsTaken
  intro s r hr hrun
  rw [step_eq_decodeRun hr, State.rowsAtPc, hrun, runFetched, State.takeFault]

/-! ## What a step answers (R129) -/

/-- A next state that runs on: RUNSTATE is kept, or a fault was taken. -/
def RunsOn (s : State) (o : Host.Outcome State Fault Refusal) : Prop :=
  ∃ t, o = .next t ∧ (t.runstate = s.runstate ∨ t.runstate = .faulted)

theorem runsOn_takeFault (s : State) (r : Raise) : RunsOn s (.next (s.takeFault r)) :=
  ⟨_, rfl, .inr rfl⟩

theorem runsOn_settle (s : State) (r : Except Raise Effects) :
    RunsOn s (toHost s (.next (settle s r))) := by
  cases r with
  | ok e => exact ⟨_, rfl, .inl rfl⟩
  | error r => exact ⟨_, rfl, .inr rfl⟩

theorem runsOn_runLocal (r : Row) (s : State) : RunsOn s (toHost s (runLocal r s)) := by
  rcases runLocal_cases r s with ⟨-, h⟩ | ⟨h, -⟩
  · rw [h]
    exact ⟨_, rfl, .inl rfl⟩
  · exact ⟨s, toHost_runLocal_of_short h, .inl rfl⟩

theorem runsOn_runPair (x : Source) (src : Marked) (y : Sink) (snk : Marked) (s : State) :
    RunsOn s (runPair x src y snk s) := by
  cases y with
  | allocate => exact runsOn_settle s _
  | pointerWrite => exact runsOn_settle s _
  | same => cases x <;> exact runsOn_settle s _

theorem runsOn_runChain (o : Operate) (head : Marked) (rest : List Marked) (s : State) :
    RunsOn s (runChain o head rest s) := by
  cases o <;> exact runsOn_settle s _

theorem runsOn_runRow (r : Row) (s : State) : RunsOn s (runRow r s) := by
  unfold runRow
  split
  · exact runsOn_takeFault s _
  · exact runsOn_settle s (.ok { n := 1 })
  · exact runsOn_runLocal r s
  · exact runsOn_runPair _ _ _ _ s
  · exact runsOn_runChain _ _ _ s

/-- Every instruction but the end marker runs on. -/
theorem runsOn_exec {i : Instr} (hi : i ≠ .endMark) (s : State) : RunsOn s (exec i s) := by
  cases i with
  | endMark => exact absurd rfl hi
  | single n ch =>
    rw [exec, execSingle]
    split
    · exact runsOn_takeFault s _
    · exact runsOn_runRow _ s
  | multi ch => exact runsOn_runRow _ s
  | reservedSelector sel => exact runsOn_takeFault s _
  | reservedCharacter m p code => exact runsOn_takeFault s _
  | noop m => exact runsOn_settle s (.ok { n := 1 })
  | zero p => exact runsOn_runLocal _ s
  | one p => exact runsOn_runLocal _ s
  | random p => exact runsOn_runLocal _ s
  | readStdin p => exact runsOn_runLocal _ s
  | writeStdout p => exact runsOn_runLocal _ s
  | copy src snk => exact runsOn_runPair .copy src .same snk s
  | cut src snk => exact runsOn_runPair .cut src .same snk s
  | pointerRead p q => exact runsOn_runPair .pointerRead ⟨.multi, p⟩ .same ⟨.multi, q⟩ s
  | allocate x src q => exact runsOn_runPair x src .allocate ⟨.multi, q⟩ s
  | pointerWrite x src q => exact runsOn_runPair x src .pointerWrite ⟨.multi, q⟩ s
  | add head rest => exact runsOn_runChain .add head rest s
  | sub head rest => exact runsOn_runChain .sub head rest s
  | mul head rest => exact runsOn_runChain .mul head rest s
  | div head rest => exact runsOn_runChain .div head rest s
  | and head rest => exact runsOn_runChain .and head rest s
  | or head rest => exact runsOn_runChain .or head rest s
  | xor head rest => exact runsOn_runChain .xor head rest s

/-- A Running step runs on, unless it fetches the end marker. -/
theorem runsOn_step {s : State} (hr : s.runstate = .running) (h : fetchHead s ≠ .ok .endMark) :
    RunsOn s (step s) := by
  rw [step_of_running hr]
  cases hf : fetchHead s with
  | error r => exact runsOn_takeFault s r
  | ok i => exact runsOn_exec (fun hi => h (hi ▸ hf)) s

theorem step_of_fetch_endMark {s : State} (hr : s.runstate = .running)
    (h : fetchHead s = .ok .endMark) : step s = .next { s with runstate := .halted } := by
  rw [step_of_running hr, h]
  rfl

/-- Settles O55: a terminal state stays, the end marker halts, and all else runs on. -/
theorem stepAnswersNext : Obligations.StepAnswersNext := by
  unfold Obligations.StepAnswersNext
  intro s
  cases hr : s.runstate with
  | halted => exact ⟨s, step_of_halted hr⟩
  | faulted => exact ⟨s, step_of_faulted hr⟩
  | running =>
    by_cases hf : fetchHead s = .ok .endMark
    · exact ⟨_, step_of_fetch_endMark hr hf⟩
    · obtain ⟨t, ht, -⟩ := runsOn_step hr hf
      exact ⟨t, ht⟩

/-! ## The end of a run (70_reset_and_hazards.md R298) -/

theorem row_instr_ne_endMark (r : Row) : r.instr ≠ .endMark := by
  unfold Row.instr
  split <;> exact Instr.noConfusion

theorem endMarker_of_decode {w : RowWord} (h : decode w = .ok .endMark) :
    decodeRow w = .ok .endMarker := by
  unfold decode at h
  split at h
  · assumption
  · next r _ => exact absurd (Except.ok.inj h) (row_instr_ne_endMark r)
  · cases h
  · split at h <;> cases h

theorem endWord_of_fetch {s : State} (h : fetchHead s = .ok .endMark) :
    s.image[s.pc.toNat]? = some endWord := by
  cases hw : s.image[s.pc.toNat]? with
  | none =>
    rw [fetchHead_of_beyond (List.getElem?_eq_none_iff.mp hw)] at h
    cases h
  | some w =>
    simp only [fetchHead, rowsAtPc_of_getElem? hw] at h
    split at h
    · next hd =>
      cases h
      rw [eq_endWord_of_decodeRow (endMarker_of_decode hd)]
    · cases h

/-- Settles O56: a step that halts has fetched the end marker, since all else runs on. -/
theorem runEndsOnlyAtEndMarker : Obligations.RunEndsOnlyAtEndMarker := by
  unfold Obligations.RunEndsOnlyAtEndMarker
  rintro s t ⟨hr, hstep, hhalt⟩
  have hf : fetchHead s = .ok .endMark := by
    by_contra hne
    obtain ⟨u, hu, hrun⟩ := runsOn_step hr hne
    obtain rfl : t = u := Host.Outcome.next.inj (hstep.symm.trans hu)
    rcases hrun with h | h
    · rw [hhalt, hr] at h
      cases h
    · rw [hhalt] at h
      cases h
  obtain rfl : t = { s with runstate := .halted } :=
    Host.Outcome.next.inj (hstep.symm.trans (step_of_fetch_endMark hr hf))
  exact ⟨endWord_of_fetch hf, rfl, rfl⟩

end Sys2Proof.Machine
end

section
/-! PROOFS. 40_run_resolver.md R118, R121, R122, R127 with 42_read_linked.md R185 and 43_operate.md R218:
the faults of the run resolver. Each check that fails is one lemma about the resolver; a Running step
takes what the resolver raises, so the row and the codes recorded are the raise's own. -/

namespace Sys2Proof.Machine

/-! ## Taking what the resolver raises -/

/-- A taken fault, as its three numbers (60_exceptions.md R261 to R263). -/
theorem takeFault_eq_faultedAt (s : State) (r : Raise) :
    s.takeFault r = faultedAt s (kindCode (kindOfReason r.reason)).toNat (s.pc.toNat + r.offset)
      (reasonCode r.reason).toNat := by
  simp [State.takeFault, faultedAt, faultRecord]

/-- A Running step takes the fault that resolving its head row raises (R123). -/
theorem step_of_resolve_error {s : State} {r0 : Row} {e : Raise} (hr : s.runstate = .running)
    (hrow : rowAt s 0 = some (.row r0)) (h : resolve r0 s.rowsAfterPc = .error e) :
    step s = .next (s.takeFault e) := by
  obtain ⟨w, hw, hd⟩ := rowAt_eq_some.mp hrow
  rw [step_of_row hr hw hd, runRow_of_resolve_error h]

theorem resolve_classify_error {r0 : Row} {e : FaultReason} (h : classify r0 = .error e)
    (rest : List RowWord) : resolve r0 rest = .error ⟨0, e⟩ := by
  simp only [resolve, h]

/-- Settles O48: the classification of the head row raises the fault. -/
theorem headMixedFaults : Obligations.HeadMixedFaults := by
  unfold Obligations.HeadMixedFaults
  intro s r0 hr hrow hlen hlocal
  have hclass : classify r0 = .error .headMixed := by
    rw [classify_of_mixed hlen, hlocal, if_neg Bool.false_ne_true]
  rw [step_of_resolve_error hr hrow (resolve_classify_error hclass _), takeFault_eq_faultedAt]
  rfl

/-! ## The rows after the head (R127) -/

theorem rowsAfterPc_getElem? (s : State) (q : Nat) :
    s.rowsAfterPc[q]? = s.image[s.pc.toNat + 1 + q]? :=
  List.getElem?_drop

theorem rowAt_add_one {s : State} {q : Nat} {d : Decoded} :
    rowAt s (1 + q) = some d ↔ ∃ w, s.rowsAfterPc[q]? = some w ∧ decodeRow w = .ok d := by
  rw [rowAt_eq_some, ← Nat.add_assoc, rowsAfterPc_getElem?]

theorem rowsAfterPc_of_beyond {s : State} (h : s.image.length ≤ s.pc.toNat + 1) :
    s.rowsAfterPc = [] :=
  List.drop_eq_nil_of_le h

theorem exists_drop_eq_cons {α : Type} {l : List α} {q : Nat} {a : α} (h : l[q]? = some a) :
    ∃ as, l.drop q = a :: as := by
  obtain ⟨hlt, rfl⟩ := List.getElem?_eq_some_iff.mp h
  exact ⟨_, List.drop_eq_getElem_cons hlt⟩

/-- The row after the head is the first of the rows that look-ahead may fetch. -/
theorem rowsAfterPc_of_rowAt_one {s : State} {d : Decoded} (h : rowAt s 1 = some d) :
    ∃ w ws, s.rowsAfterPc = w :: ws ∧ decodeRow w = .ok d := by
  obtain ⟨w, hw, hd⟩ := (rowAt_add_one (q := 0)).mp h
  obtain ⟨ws, hws⟩ := exists_drop_eq_cons hw
  exact ⟨w, ws, hws, hd⟩

/-! ## Sinks (R121) -/

theorem resolve_of_resolveSink_error {x : Source} {r0 : Row} {rest : List RowWord} {e : Raise}
    (hk : r0.kinds = [x.char]) (h : resolveSink x (r0.count x.char) rest = .error e) :
    resolve r0 rest = .error e := by
  simp only [resolve, classify_of_singleton hk, classOfKind_source, h]

theorem resolveSink_nil (x : Source) (k : Nat) :
    resolveSink x k [] = .error ⟨0, .noFollowingRow⟩ := rfl

theorem resolveSink_of_endMarker {w : RowWord} (hd : decodeRow w = .ok .endMarker) (x : Source)
    (k : Nat) (ws : List RowWord) : resolveSink x k (w :: ws) = .error ⟨0, .noFollowingRow⟩ := by
  simp only [resolveSink, hd]

theorem resolveSink_of_decode_error {w : RowWord} {e : FaultReason} (hd : decodeRow w = .error e)
    (x : Source) (k : Nat) (ws : List RowWord) : resolveSink x k (w :: ws) = .error ⟨1, e⟩ := by
  simp only [resolveSink, hd]

theorem resolveSink_of_row {w : RowWord} {r1 : Row} (hd : decodeRow w = .ok (.row r1)) (x : Source)
    (k : Nat) (ws : List RowWord) : resolveSink x k (w :: ws) = checkSink x k r1 := by
  simp only [resolveSink, hd]

/-- A Running step at a source row takes the fault that the check of its sink row raises. -/
theorem step_of_checkSink_error {s : State} {x : Source} {r0 r1 : Row} {e : Raise}
    (hr : s.runstate = .running) (hrow : rowAt s 0 = some (.row r0)) (hk : r0.kinds = [x.char])
    (hnext : rowAt s 1 = some (.row r1)) (h : checkSink x (r0.count x.char) r1 = .error e) :
    step s = .next (s.takeFault e) := by
  obtain ⟨w, ws, hws, hd⟩ := rowsAfterPc_of_rowAt_one hnext
  refine step_of_resolve_error hr hrow (resolve_of_resolveSink_error hk ?_)
  rw [hws, resolveSink_of_row hd, h]

theorem checkSink_of_mixed {r1 : Row} (h : 2 ≤ r1.kinds.length) (x : Source) (k : Nat) :
    checkSink x k r1 = .error ⟨1, .sinkMixed⟩ := by
  unfold checkSink
  split
  · next hk => simp [hk] at h
  · next hk => simp [hk] at h
  · rfl

theorem sinkOf_eq_none {x : Source} {c : Character} (hx : c ≠ x.char) (ha : c ≠ .allocate)
    (hp : c ≠ .pointerWrite) : sinkOf x c = none := by
  rw [sinkOf, if_neg hx, if_neg ha, if_neg hp]

theorem checkSink_of_no_receiver {x : Source} {r1 : Row} (hlen : r1.kinds.length ≤ 1)
    (hx : x.char ∉ r1.kinds) (ha : Character.allocate ∉ r1.kinds)
    (hp : Character.pointerWrite ∉ r1.kinds) (k : Nat) :
    checkSink x k r1 = .error ⟨1, .sinkKind⟩ := by
  unfold checkSink
  split
  · rfl
  · next c hc =>
    rw [hc, List.mem_singleton] at hx ha hp
    rw [sinkOf_eq_none (Ne.symm hx) (Ne.symm ha) (Ne.symm hp)]
  · next hnil hone =>
    obtain hzero | hlen1 := Nat.le_one_iff_eq_zero_or_eq_one.mp hlen
    · exact absurd (List.length_eq_zero_iff.mp hzero) hnil
    · obtain ⟨c, hc⟩ := List.length_eq_one_iff.mp hlen1
      exact absurd hc (hone c)

theorem checkSink_of_count_ne {x : Source} {y : Sink} {r1 : Row} {k : Nat}
    (hk : r1.kinds = [y.char x]) (hc : r1.count (y.char x) ≠ k) :
    checkSink x k r1 = .error ⟨1, .sinkCount⟩ := by
  simp only [checkSink, hk, sinkOf_char, if_neg hc]

/-- The receiving kinds of a source are the characters of its sinks. -/
theorem exists_sink_of_receiver {x : Source} {c : Character}
    (h : c ∈ [x.char, .allocate, .pointerWrite]) : ∃ y : Sink, c = y.char x := by
  simp only [List.mem_cons, List.not_mem_nil, or_false] at h
  obtain rfl | rfl | rfl := h
  · exact ⟨.same, rfl⟩
  · exact ⟨.allocate, rfl⟩
  · exact ⟨.pointerWrite, rfl⟩

/-- Settles O27: the look-ahead meets the end of the image or the end marker. -/
theorem noFollowingRowFaults : Obligations.NoFollowingRowFaults := by
  unfold Obligations.NoFollowingRowFaults
  intro s x r0 hr hrow hk hend
  have hsink : resolveSink x (r0.count x.char) s.rowsAfterPc = .error ⟨0, .noFollowingRow⟩ := by
    rcases hend with hlen | hnext
    · rw [rowsAfterPc_of_beyond hlen, resolveSink_nil]
    · obtain ⟨w, ws, hws, hd⟩ := rowsAfterPc_of_rowAt_one hnext
      rw [hws, resolveSink_of_endMarker hd]
  rw [step_of_resolve_error hr hrow (resolve_of_resolveSink_error hk hsink), takeFault_eq_faultedAt]
  rfl

/-- Settles O28: the check of the sink row counts its kinds first. -/
theorem sinkMixedFaults : Obligations.SinkMixedFaults := by
  unfold Obligations.SinkMixedFaults
  intro s x r0 r1 hr hrow hk hnext hlen
  rw [step_of_checkSink_error hr hrow hk hnext (checkSink_of_mixed hlen x _), takeFault_eq_faultedAt]
  rfl

/-- Settles O29: no kind of the row is a sink of the source. -/
theorem sinkKindFaults : Obligations.SinkKindFaults := by
  unfold Obligations.SinkKindFaults
  intro s x r0 r1 hr hrow hk hnext hlen hx ha hp
  rw [step_of_checkSink_error hr hrow hk hnext (checkSink_of_no_receiver hlen hx ha hp _),
    takeFault_eq_faultedAt]
  rfl

/-- Settles O30: a receiving kind is a sink of the source, and then its count is compared. -/
theorem sinkCountFaults : Obligations.SinkCountFaults := by
  unfold Obligations.SinkCountFaults
  intro s x c r0 r1 hr hrow hk hnext hc hk1 hcount
  obtain ⟨y, rfl⟩ := exists_sink_of_receiver hc
  rw [step_of_checkSink_error hr hrow hk hnext (checkSink_of_count_ne hk1 hcount),
    takeFault_eq_faultedAt]
  rfl

/-! ## Chains (R122) -/

theorem resolve_of_chainRows_error {o : Operate} {r0 : Row} {rest : List RowWord} {e : Raise}
    (hk : r0.kinds = [o.char]) (h : chainRows o (r0.count o.char) 1 rest = .error e) :
    resolve r0 rest = .error e := by
  simp only [resolve, classify_of_singleton hk, classOfKind_chain, h]

theorem resolve_of_chainRows_nil {o : Operate} {r0 : Row} {rest : List RowWord}
    (hk : r0.kinds = [o.char]) (h : chainRows o (r0.count o.char) 1 rest = .ok []) :
    resolve r0 rest = .error ⟨0, .emptyChain⟩ := by
  simp only [resolve, classify_of_singleton hk, classOfKind_chain, h]

theorem endsChain_iff {s : State} {o : Operate} {k : Nat} :
    endsChain s o k = true ↔ s.image.length ≤ s.pc.toNat + k ∨ rowAt s k = some .endMarker ∨
      ∃ r, rowAt s k = some (.row r) ∧ r.count o.char = 0 := by
  rw [endsChain, Bool.or_eq_true, decide_eq_true_eq]
  refine or_congr_right ?_
  split <;> simp_all

theorem continuesChain_iff {s : State} {o : Operate} {c k : Nat} :
    continuesChain s o c k = true ↔
      ∃ r, rowAt s k = some (.row r) ∧ r.count o.char = c ∧ r.kinds = [o.char] := by
  unfold continuesChain
  split <;> simp_all

theorem chainRow_of_absent {o : Operate} {r : Row} (h : r.count o.char = 0) (c : Nat) :
    chainRow o c r = .ok none := by
  rw [chainRow, if_pos h]

theorem chainRow_of_count_ne {o : Operate} {c : Nat} {r : Row} (h0 : r.count o.char ≠ 0)
    (hc : r.count o.char ≠ c) : chainRow o c r = .error .chainCount := by
  rw [chainRow, if_neg h0, if_pos hc]

theorem chainRow_of_mixed {o : Operate} {c : Nat} {r : Row} (h0 : c ≠ 0) (hc : r.count o.char = c)
    (hlen : 2 ≤ r.kinds.length) : chainRow o c r = .error .chainMixed := by
  have hk : r.kinds ≠ [o.char] := by
    intro h
    simp [h] at hlen
  rw [chainRow, if_neg (hc ▸ h0), if_neg (not_not.mpr hc), if_pos hk]

/-- A look-ahead row that ends the chain leaves it as it is. -/
theorem chainRows_of_endsChain {s : State} {o : Operate} (h : endsChain s o 1 = true) (c q : Nat) :
    chainRows o c q s.rowsAfterPc = .ok [] := by
  rcases endsChain_iff.mp h with hlen | hend | ⟨r, hrow, hzero⟩
  · rw [rowsAfterPc_of_beyond hlen, chainRows]
  · obtain ⟨w, ws, hws, hd⟩ := rowsAfterPc_of_rowAt_one hend
    simp only [hws, chainRows, hd]
  · obtain ⟨w, ws, hws, hd⟩ := rowsAfterPc_of_rowAt_one hrow
    simp only [hws, chainRows, hd, chainRow_of_absent hzero]

theorem chainRows_of_decode_error {w : RowWord} {e : FaultReason} (hd : decodeRow w = .error e)
    (o : Operate) (c q : Nat) (ws : List RowWord) : chainRows o c q (w :: ws) = .error ⟨q, e⟩ := by
  simp only [chainRows, hd]

theorem chainRows_of_chainRow_error {w : RowWord} {r : Row} {o : Operate} {c : Nat}
    {e : FaultReason} (hd : decodeRow w = .ok (.row r)) (h : chainRow o c r = .error e) (q : Nat)
    (ws : List RowWord) : chainRows o c q (w :: ws) = .error ⟨q, e⟩ := by
  simp only [chainRows, hd, h]

theorem count_ne_zero_of_kinds {r : Row} {k : Character} (h : r.kinds = [k]) : r.count k ≠ 0 := by
  obtain ⟨-, p, hp⟩ := mem_kinds.mp (h ▸ List.mem_singleton_self k)
  exact fun h0 => count_eq_zero_iff.mp h0 p hp

/-- A row word that faults after `q` rows that continue the chain faults at its own index (R127). -/
theorem chainRows_error_after {s : State} {o : Operate} {c q : Nat} {w : RowWord} {e : FaultReason}
    (hc : c ≠ 0) (hcont : ∀ k, k < q → continuesChain s o c (1 + k) = true)
    (hw : s.rowsAfterPc[q]? = some w)
    (h : ∀ (j : Nat) (ws : List RowWord), chainRows o c j (w :: ws) = .error ⟨j, e⟩) :
    chainRows o c 1 s.rowsAfterPc = .error ⟨1 + q, e⟩ := by
  obtain ⟨ms, -, hskip⟩ := chainRows_skip (o := o) (c := c) q 1 s.rowsAfterPc fun k hk => by
    obtain ⟨r, hrow, hcount, hkinds⟩ := continuesChain_iff.mp (hcont k hk)
    obtain ⟨v, hv, hd⟩ := rowAt_add_one.mp hrow
    exact ⟨v, r, _, hv, hd, chainRow_continues.mpr ⟨hc, hcount, hkinds, rfl⟩⟩
  obtain ⟨ws, hws⟩ := exists_drop_eq_cons hw
  rw [hskip, hws, h]

/-- A Running step at an operate row takes the fault of the row word after `q` rows that continue the
chain. -/
theorem step_of_chainRows_error {s : State} {o : Operate} {r0 : Row} {q : Nat} {w : RowWord}
    {e : FaultReason} (hr : s.runstate = .running) (hrow : rowAt s 0 = some (.row r0))
    (hk : r0.kinds = [o.char])
    (hcont : ∀ k, k < q → continuesChain s o (r0.count o.char) (1 + k) = true)
    (hw : s.rowsAfterPc[q]? = some w)
    (h : ∀ (j : Nat) (ws : List RowWord),
      chainRows o (r0.count o.char) j (w :: ws) = .error ⟨j, e⟩) :
    step s = .next (faultedAt s (kindCode (kindOfReason e)).toNat (s.pc.toNat + 1 + q)
      (reasonCode e).toNat) := by
  have hrows := chainRows_error_after (count_ne_zero_of_kinds hk) hcont hw h
  rw [step_of_resolve_error hr hrow (resolve_of_chainRows_error hk hrows), takeFault_eq_faultedAt,
    Nat.add_assoc]

/-- Settles O39: the head row is alone, whichever way the look-ahead ends. -/
theorem emptyChainFaults : Obligations.EmptyChainFaults := by
  unfold Obligations.EmptyChainFaults
  intro s o r0 hr hrow hk hend
  have hrows := chainRows_of_endsChain hend (r0.count o.char) 1
  rw [step_of_resolve_error hr hrow (resolve_of_chainRows_nil hk hrows), takeFault_eq_faultedAt]
  rfl

/-- Settles O40: the counts are compared as soon as the row holds the character. -/
theorem chainCountFaults : Obligations.ChainCountFaults := by
  unfold Obligations.ChainCountFaults
  intro s o r0 r q hr hrow hk hcont hnext h0 hc
  obtain ⟨w, hw, hd⟩ := rowAt_add_one.mp hnext
  exact step_of_chainRows_error hr hrow hk hcont hw
    (chainRows_of_chainRow_error hd (chainRow_of_count_ne h0 hc))

/-- Settles O41: with equal counts, the kinds are compared. -/
theorem chainMixedFaults : Obligations.ChainMixedFaults := by
  unfold Obligations.ChainMixedFaults
  intro s o r0 r q hr hrow hk hcont hnext hc hlen
  obtain ⟨w, hw, hd⟩ := rowAt_add_one.mp hnext
  exact step_of_chainRows_error hr hrow hk hcont hw
    (chainRows_of_chainRow_error hd (chainRow_of_mixed (count_ne_zero_of_kinds hk) hc hlen))

/-! ## Look-ahead rows that do not decode (R127) -/

/-- The row decoder raises DecodeFaults only (30_encoding.md R88, 60_exceptions.md R262). -/
theorem kindOfReason_of_decodeRow {w : RowWord} {e : FaultReason} (h : decodeRow w = .error e) :
    kindOfReason e = .decodeFault := by
  unfold decodeRow at h
  split_ifs at h <;> cases h <;> rfl

/-- Settles O42: the sink row is the row after the head; a chain's look-ahead reaches the row through
those that continue it. -/
theorem lookAheadDecodeFaults : Obligations.LookAheadDecodeFaults := by
  unfold Obligations.LookAheadDecodeFaults
  intro s r0 w e q hr hrow hw hd hhead
  rw [← rowsAfterPc_getElem?] at hw
  have hstep : step s = .next (faultedAt s (kindCode (kindOfReason e)).toNat (s.pc.toNat + 1 + q)
      (reasonCode e).toNat) := by
    rcases hhead with ⟨⟨x, hk⟩, rfl⟩ | ⟨o, hk, hcont⟩
    · obtain ⟨ws, hws⟩ := exists_drop_eq_cons hw
      have hsink : resolveSink x (r0.count x.char) s.rowsAfterPc = .error ⟨1, e⟩ := by
        rw [← List.drop_zero (l := s.rowsAfterPc), hws, resolveSink_of_decode_error hd]
      rw [step_of_resolve_error hr hrow (resolve_of_resolveSink_error hk hsink),
        takeFault_eq_faultedAt, Nat.add_zero]
    · exact step_of_chainRows_error hr hrow hk hcont hw (chainRows_of_decode_error hd o _)
  rw [hstep, kindOfReason_of_decodeRow hd]
  rfl

end Sys2Proof.Machine
end

section
/-! PROOFS. 41_write_class.md R156 with 40_run_resolver.md R111, R118, R120: a row that mixes local
characters. Each position asks for at most one element, given the bytes and draws of the positions
before it, so the requests of a row split at any position. -/

namespace Sys2Proof.Machine

/-! ## The requests of a local row, position by position -/

/-- The request of one position of a local row, after `nin` stdin bytes and `nd` draws: none unless its
character writes (R151 to R154). -/
def ownRequest (s : State) (r : Row) (nin nd : Nat) (p : Pos) : List RegWrite :=
  if r.ch[p] ∈ writingLocals then
    [elemWrite r.mode p (requestedElement s r.mode r.ch[p] nin nd)]
  else []

theorem ownRequest_of_writing {s : State} {r : Row} {p : Pos} (h : r.ch[p] ∈ writingLocals)
    (nin nd : Nat) : ownRequest s r nin nd p =
      [elemWrite r.mode p (requestedElement s r.mode r.ch[p] nin nd)] :=
  if_pos h

/-- A position's own request comes before those of the positions after it, which count its byte or
draw. -/
theorem localEffects_regw_cons (s : State) (r : Row) (nin nd : Nat) (p : Pos) (ps : List Pos) :
    (localEffects s r nin nd (p :: ps)).regw = ownRequest s r nin nd p ++
      (localEffects s r (nin + if r.ch[p] = .readStdin then 1 else 0)
        (nd + if r.ch[p] = .random then 1 else 0) ps).regw := by
  rw [localEffects_cons, ownRequest]
  cases r.ch[p] <;> rfl

theorem mem_localEffects_regw {s : State} {r : Row} {w : RegWrite} : ∀ {ps : List Pos} {nin nd : Nat},
    w ∈ (localEffects s r nin nd ps).regw → ∃ p ∈ ps, ∃ e, w = elemWrite r.mode p e
  | [], _, _, h => absurd h List.not_mem_nil
  | p :: ps, nin, nd, h => by
    rw [localEffects_regw_cons, List.mem_append] at h
    rcases h with h | h
    · unfold ownRequest at h
      split at h
      · exact ⟨p, List.mem_cons_self, _, List.mem_singleton.mp h⟩
      · exact absurd h List.not_mem_nil
    · obtain ⟨q, hq, e, rfl⟩ := mem_localEffects_regw h
      exact ⟨q, List.mem_cons_of_mem p hq, e, rfl⟩

/-- The requests of a list of positions, split at any point: the later positions count on after the
bytes and draws of the earlier ones. -/
theorem localEffects_regw_append (s : State) (r : Row) (ps : List Pos) :
    ∀ (pre : List Pos) (nin nd : Nat), (localEffects s r nin nd (pre ++ ps)).regw =
      (localEffects s r nin nd pre).regw ++
        (localEffects s r (nin + holding r .readStdin pre) (nd + holding r .random pre) ps).regw
  | [], _, _ => rfl
  | p :: pre, nin, nd => by
    rw [List.cons_append, localEffects_regw_cons, localEffects_regw_cons,
      localEffects_regw_append s r ps pre, List.append_assoc, holding_cons, holding_cons,
      Nat.add_assoc, Nat.add_assoc]

/-! ## The positions before and after one -/

theorem allPos_split : ∀ p : Pos,
    allPos = allPos.filter (· < p) ++ p :: allPos.filter (p < ·) := by
  decide

theorem holding_before (r : Row) (k : Character) (p : Pos) :
    holding r k (allPos.filter (· < p)) = countBefore r k p := by
  rw [holding, countBefore, Row.maskOf, positions_maskWhere, List.filter_comm]

/-- The element that a position of a local row asks for in the whole run (R156). -/
def runElement (s : State) (r : Row) (p : Pos) : Nat :=
  requestedElement s r.mode r.ch[p] (countBefore r .readStdin p) (countBefore r .random p)

/-- A position that writes has one request, and those after it go to other positions. -/
theorem localEffects_regw_split (s : State) {r : Row} {p : Pos} (h : r.ch[p] ∈ writingLocals) :
    ∃ pre post, (localEffects s r 0 0 allPos).regw =
        pre ++ elemWrite r.mode p (runElement s r p) :: post ∧
      ∀ w ∈ post, ∃ q e, q ≠ p ∧ w = elemWrite r.mode q e := by
  have hsplit : (localEffects s r 0 0 allPos).regw =
      (localEffects s r 0 0 (allPos.filter (· < p) ++ p :: allPos.filter (p < ·))).regw := by
    rw [← allPos_split p]
  rw [localEffects_regw_append, localEffects_regw_cons, ownRequest_of_writing h, holding_before,
    holding_before, Nat.zero_add, Nat.zero_add, List.singleton_append] at hsplit
  refine ⟨_, _, hsplit, fun w hw => ?_⟩
  obtain ⟨q, hq, e, rfl⟩ := mem_localEffects_regw hw
  have hlt : p < q := of_decide_eq_true (List.mem_filter.mp hq).2
  exact ⟨q, e, hlt.ne', rfl⟩

theorem mem_localEffects_of_writing (s : State) {r : Row} {p : Pos} (h : r.ch[p] ∈ writingLocals) :
    elemWrite r.mode p (runElement s r p) ∈ (localEffects s r 0 0 allPos).regw := by
  obtain ⟨pre, post, hsplit, -⟩ := localEffects_regw_split s h
  rw [hsplit]
  exact List.mem_append_right pre List.mem_cons_self

/-! ## The registers after a local row -/

/-- Element writes to other positions leave an element. -/
theorem elemOf_applyWrites_of_ne {m : Mode} {p : Pos} : ∀ {ws : List RegWrite} (x : Vector Word 16),
    (∀ w ∈ ws, ∃ q e, q ≠ p ∧ w = elemWrite m q e) → elemOf (applyWrites x ws) m p = elemOf x m p
  | [], _, _ => rfl
  | w :: ws, x, h => by
    obtain ⟨q, e, hq, rfl⟩ := h w List.mem_cons_self
    rw [applyWrites, elemOf_applyWrites_of_ne _ fun v hv => h v (List.mem_cons_of_mem _ hv),
      elemOf_applyWrite_ne x m hq.symm]

/-- Every row of marks of a writing local character has its requests, so one of them names `pc` when the
marks touch it. -/
theorem localEffects_writesPc (s : State) {r : Row} {k : Character} (hk : k ∈ writingLocals)
    (ht : touches (r.marked k) Config.pcIndex = true) :
    (localEffects s r 0 0 allPos).writesPc = true := by
  obtain ⟨p, hp, hreg⟩ := exists_position_of_touches ht
  have hch : r.ch[p] = k := mem_maskOf.mp hp
  exact (writesPc_iff _).mpr ⟨_, mem_localEffects_of_writing s (hch ▸ hk), hreg _⟩

theorem regFrame_localEffects (s : State) (r : Row) :
    RegFrame s (commit s (localEffects s r 0 0 allPos)) 1 (writingLocals.map r.marked) := by
  obtain ⟨-, -, hn, -, -⟩ := localEffects_counts s r allPos 0 0
  have hpc : ∀ m ∈ writingLocals.map r.marked, touches m Config.pcIndex = true →
      (localEffects s r 0 0 allPos).writesPc = true := by
    intro m hm
    obtain ⟨k, hk, rfl⟩ := List.mem_map.mp hm
    exact localEffects_writesPc s hk
  have hframe := regFrame_commit (s := s) (localEffects_within s r allPos 0 0) hpc
  rwa [hn] at hframe

/-- A position that writes holds its element after the run, cut to its width. -/
theorem elem_commit_localEffects (s : State) {r : Row} {p : Pos} (h : r.ch[p] ∈ writingLocals) :
    elem (commit s (localEffects s r 0 0 allPos)) r.mode p = runElement s r p % 2 ^ r.mode.width := by
  have hcommit := List.map_inj_left.mp
    (elements_commit (s := s) (m := r.marked r.ch[p]) (localEffects_writesPc s h)) p
    (mem_maskOf.mpr rfl)
  obtain ⟨pre, post, hsplit, hpost⟩ := localEffects_regw_split s h
  refine hcommit.trans ?_
  rw [hsplit, applyWrites_append, applyWrites]
  exact (elemOf_applyWrites_of_ne _ hpost).trans (elemOf_applyWrite_self _ _ _ _)

/-! ## What the positions hold after the run (R156) -/

theorem getD_stdinLeft {s : State} {n : Nat} {b : Byte} (h : s.stdin[s.stdinPos + n]? = some b) :
    s.stdinLeft.getD n 0 = b := by
  rw [State.stdinLeft, List.getD_eq_getElem?_getD, List.getElem?_drop, h, Option.getD_some]

/-- ReadStdin stands in multi-register rows only (30_encoding.md R84). -/
theorem mode_of_readStdin {r : Row} {p : Pos} (hmode : r.mode = .multi ∨ noMultiOnly r.ch = true)
    (hp : r.ch[p] = .readStdin) : r.mode = .multi :=
  mode_of_multiOnly hmode (mem_kinds.mpr ⟨by decide, p, hp⟩) rfl

/-- What a position is to hold after the run is the element it asks for, and fits its width. -/
theorem runElement_of_localAfter {s : State} {r : Row} {p : Pos} {v : Nat}
    (hmode : r.mode = .multi ∨ noMultiOnly r.ch = true) (h : localAfter r s p = some v) :
    r.ch[p] ∈ writingLocals ∧ runElement s r p % 2 ^ r.mode.width = v := by
  unfold localAfter at h
  unfold runElement
  cases hch : r.ch[p] with
  | zero =>
    rw [hch] at h
    cases h
    exact ⟨by decide, Nat.zero_mod _⟩
  | one =>
    rw [hch] at h
    cases h
    exact ⟨by decide, Nat.mod_eq_of_lt (Nat.sub_lt (by positivity) Nat.one_pos)⟩
  | random =>
    rw [hch] at h
    cases h
    exact ⟨by decide, Nat.mod_eq_of_lt (Config.draw r.mode.width _).isLt⟩
  | readStdin =>
    rw [hch] at h
    obtain ⟨b, hb, rfl⟩ := Option.map_eq_some_iff.mp h
    have hlt : b.toNat < 2 ^ r.mode.width := by
      rw [mode_of_readStdin hmode hch]
      exact b.isLt.trans (show 2 ^ 8 < 2 ^ 16 by decide)
    rw [requestedElement, getD_stdinLeft hb]
    exact ⟨by decide, Nat.mod_eq_of_lt hlt⟩
  | _ =>
    rw [hch] at h
    cases h

/-- The byte that WriteStdout emits, as bits 7 to 0 of the register (R155). -/
theorem stdoutByte_eq_extractLsb' (s : State) (p : Pos) :
    stdoutByte s p = (s.reg p).extractLsb' 0 8 := by
  rw [stdoutByte, BitVec.extractLsb', Nat.shiftRight_zero]

/-- Committing the effects of a local row is what R156 says of it. -/
theorem localResult_commit {s : State} {r : Row}
    (hmode : r.mode = .multi ∨ noMultiOnly r.ch = true) :
    LocalResult r s (commit s (localEffects s r 0 0 allPos)) := by
  obtain ⟨hnin, hndraw, -, halloc, hmemw⟩ := localEffects_counts s r allPos 0 0
  rw [holding_allPos, Nat.zero_add] at hnin hndraw
  refine ⟨fun p v hv => ?_, regFrame_localEffects s r, ?_, ?_, ?_, ?_⟩
  · obtain ⟨hw, rfl⟩ := runElement_of_localAfter hmode hv
    exact elem_commit_localEffects s hw
  · rw [commit_stdout, localEffects_out_allPos]
    exact congrArg _ (List.map_congr_left fun p _ => stdoutByte_eq_extractLsb' s p)
  · rw [commit_stdinPos, hnin]
  · rw [commit_drawPos, hndraw]
  · simp only [commit, halloc, hmemw, allocAll, writeAll]

/-! ## The run of a local row (R118 to R120) -/

/-- A row without kinds has the effects of a Nop run (R119). -/
theorem localEffects_of_kinds_nil (s : State) {r : Row} (h : r.kinds = []) :
    ∀ (ps : List Pos) (nin nd : Nat), localEffects s r nin nd ps = { nin := nin, ndraw := nd, n := 1 }
  | [], _, _ => rfl
  | p :: ps, nin, nd => by
    have hp : r.ch[p] = .noop := by
      by_contra hne
      have hmem : r.ch[p] ∈ r.kinds := mem_kinds.mpr ⟨hne, p, rfl⟩
      rw [h] at hmem
      exact List.not_mem_nil hmem
    rw [localEffects_cons, hp]
    exact localEffects_of_kinds_nil s h ps nin nd

/-- A row whose kinds are all local commits its effects once its bytes are there. -/
theorem runRow_of_local {s : State} {r : Row} (h : r.kinds.all Character.isLocal = true)
    (hin : r.count .readStdin ≤ s.stdinLeft.length) :
    runRow r s = .next (commit s (localEffects s r 0 0 allPos)) := by
  by_cases hk : r.kinds = []
  · simp only [runRow, resolve_of_nop (classify_of_nil hk), localEffects_of_kinds_nil s hk, execNoop,
      toHost_next]
  · have hrun : runLocal r s = .next (commit s (localEffects s r 0 0 allPos)) := by
      rcases runLocal_cases r s with ⟨-, hrun⟩ | ⟨hshort, -⟩
      · exact hrun
      · omega
    simp only [runRow, resolve_of_local (classify_of_local hk h), hrun, toHost_next]

theorem localRow_result {s : State} {r : Row} (hmode : r.mode = .multi ∨ noMultiOnly r.ch = true)
    (h : r.kinds.all Character.isLocal = true) (hin : r.count .readStdin ≤ s.stdinLeft.length) :
    ∃ t, exec r.instr s = .next t ∧ LocalResult r s t :=
  ⟨_, by rw [exec_row_instr hmode, runRow_of_local h hin], localResult_commit hmode⟩

/-- A single-register row has no ReadStdin position (30_encoding.md R84). -/
theorem count_readStdin_of_noMultiOnly {r : Row} (h : noMultiOnly r.ch = true) :
    r.count .readStdin = 0 := by
  refine count_eq_zero_iff.mpr fun p hp => ?_
  have hno := List.all_eq_true.mp h p (mem_allPos p)
  rw [hp] at hno
  cases hno

/-- Settles O22: both row formats run the row, and a single-register row needs no byte. -/
theorem localRowResult : Obligations.LocalRowResult := by
  unfold Obligations.LocalRowResult
  refine ⟨fun ch s hlocal hin => ?_, fun n ch s hno hlocal => ?_⟩
  · refine localRow_result (r := ⟨.multi, ch⟩) (.inl rfl) hlocal ?_
    rw [State.stdinLeft, List.length_drop]
    omega
  · refine localRow_result (r := ⟨.single n, ch⟩) (.inr hno) hlocal ?_
    rw [count_readStdin_of_noMultiOnly hno]
    exact Nat.zero_le _

end Sys2Proof.Machine
end

section
/-! PROOFS. 43_operate.md R210, R214: what a chain that combines its values without a fault leaves, and
the unsigned quotients of Div. -/

namespace Sys2Proof.Machine

/-- A committed write-back leaves the low bits of its value, also where the row reaches `pc` (R114,
R125). -/
theorem value_commit_writeBack {s : State} {e : Effects} {m : Marked} {v : Nat}
    (he : e.regw = writeBack m v) : value (commit s e) m = v % 2 ^ markedBits m := by
  have hel : elements (commit s e) m = elements { s with x := applyWrites s.x e.regw } m := by
    rw [elements_commit (writesPc_of_writesTo he (length_split _ _ _))]
    exact List.map_congr_left fun p _ =>
      (elem_eq_elemOf { s with x := _ } m.mode p).symm
  rw [value, hel, ← value]
  exact value_after_writeBack (x := s.x) (congrArg _ he)

/-- A chain of at least two rows whose values combine to `acc` (R210): the last row takes the result, and
nothing else changes but `pc`. -/
theorem chain_result {op : Int → Nat → Except FaultReason Int} {head : Marked} {rest : List Marked}
    {s : State} {acc : Int} (hne : rest ≠ [])
    (h : chainFold op 1 (value s head) (rest.map (value s)) = .ok acc) :
    ∃ t, toHost s (.next (settle s (chainEffects op head rest s))) = .next t ∧
      value t (rest.getLastD head) = trunc (markedBits (rest.getLastD head)) acc ∧
      RegFrame s t (1 + rest.length) [rest.getLastD head] ∧ t = { s with x := t.x } := by
  refine ⟨_, by rw [chainEffects_ok hne h, settle_ok, toHost_next], ?_, ?_, ?_⟩
  · rw [lastRow, value_commit_writeBack rfl]
    exact Nat.mod_eq_of_lt (trunc_lt _ _)
  · exact regFrame_commit_writesTo rfl (length_split _ _ _)
  · simp only [commit, allocAll, writeAll, List.append_nil, Nat.add_zero]

/-- With no zero divisor a chain of Div folds the quotients (R214). -/
theorem chainFold_opDiv : ∀ {vs : List Nat} {j a : Nat}, (∀ v ∈ vs, v ≠ 0) →
    chainFold opDiv j a vs = .ok ((vs.foldl (· / ·) a : Nat) : Int)
  | [], _, _, _ => rfl
  | v :: vs, j, a, h => by
    have hv : opDiv a v = .ok ((a / v : Nat) : Int) := if_neg (h v List.mem_cons_self)
    simp only [chainFold, hv]
    exact chainFold_opDiv fun u hu => h u (List.mem_cons_of_mem v hu)

/-- Settles O34: the quotients are natural numbers, so the truncation is a remainder. -/
theorem divResult : Obligations.DivResult := by
  unfold Obligations.DivResult
  intro head rest s hne hdiv
  have hvs : ∀ v ∈ rest.map (value s), v ≠ 0 := List.forall_mem_map.mpr hdiv
  obtain ⟨t, hrun, hvalue, hframe⟩ := chain_result hne (chainFold_opDiv (j := 1) hvs)
  refine ⟨t, hrun, ?_, hframe⟩
  rw [hvalue, trunc_natCast, List.foldl_map]

end Sys2Proof.Machine
end

section
/-! PROOFS. 41_write_class.md R151, R152, R155: rows of Zero, of One and of WriteStdout. The first two
ask for the same element at every position, the third for none. -/

namespace Sys2Proof.Machine

/-! ## Rows of one element -/

/-- A row of a local character that reads neither stdin nor draws and asks for the element `c` at every
position leaves `c` in each of them, and changes nothing else but `pc` (R151, R152). -/
theorem runLocal_uniformRow_constant {s : State} {k : Character} {m : Marked} {c : Nat}
    (hk : k ∈ writingLocals) (hread : k ≠ .readStdin) (hdraw : k ≠ .random)
    (hc : ∀ j, requestedElement s m.mode k j j = c) (hlt : c < 2 ^ m.mode.width) :
    ∃ t, toHost s (runLocal (uniformRow k m) s) = .next t ∧
      elements t m = (positions m.mask).map (fun _ => c) ∧
      RegFrame s t 1 [m] ∧ t = { s with x := t.x } := by
  have hbytes : (uniformRow k m).count .readStdin = 0 := count_uniformRow_ne (by decide) hread m
  have hdraws : (uniformRow k m).count .random = 0 := count_uniformRow_ne (by decide) hdraw m
  obtain ⟨t, hrun, helem, hframe, ht⟩ := runLocal_uniformRow (s := s) hk m (hbytes ▸ Nat.zero_le _)
  rw [hbytes, hdraws] at ht
  refine ⟨t, hrun, ?_, hframe, ht⟩
  have hlen : m.count = (positions m.mask).length := rfl
  simp only [helem, hc, Nat.mod_eq_of_lt hlt, List.map_const', List.length_range, hlen]

/-- Settles O16: Zero asks for 0 at every position. -/
theorem zeroResult : Obligations.ZeroResult := by
  unfold Obligations.ZeroResult
  exact ⟨⟨rfl, by decide, rfl, by decide, rfl⟩, fun p s =>
    runLocal_uniformRow_constant (k := .zero) (by decide) (by decide) (by decide) (fun _ => rfl)
      (Nat.two_pow_pos _)⟩

/-- Settles O17: One asks for the largest element of the row's width at every position. -/
theorem oneResult : Obligations.OneResult := by
  unfold Obligations.OneResult
  exact ⟨⟨rfl, by decide, rfl, by decide, rfl⟩, fun p s =>
    runLocal_uniformRow_constant (k := .one) (by decide) (by decide) (by decide) (fun _ => rfl)
      (Nat.sub_lt (Nat.two_pow_pos _) Nat.one_pos)⟩

/-! ## Rows without a writing character -/

theorem runLocal_of_bytes {s : State} {r : Row} (h : r.count .readStdin ≤ s.stdinLeft.length) :
    runLocal r s = .next (commit s (localEffects s r 0 0 allPos)) := by
  rcases runLocal_cases r s with ⟨-, hrun⟩ | ⟨hshort, -⟩
  · exact hrun
  · exact absurd h (Nat.not_le_of_lt hshort)

/-- A local row in which no character writes has no register request. -/
theorem localEffects_regw_eq_nil (s : State) {r : Row} (h : ∀ k ∈ writingLocals, r.count k = 0) :
    (localEffects s r 0 0 allPos).regw = [] := by
  refine List.eq_nil_iff_forall_not_mem.mpr fun w hw => ?_
  obtain ⟨m, hm, p, -, hp, -⟩ := localEffects_within s r allPos 0 0 w hw
  obtain ⟨k, hk, rfl⟩ := List.mem_map.mp (show m ∈ writingLocals.map r.marked from hm)
  exact count_eq_zero_iff.mp (h k hk) p (mem_maskOf.mp hp)

/-- A local row in which no character writes emits the bytes of its WriteStdout positions, and changes
nothing else but `pc` (R155). -/
theorem runLocal_of_no_writing {s : State} {r : Row} (hmode : r.mode = .multi ∨ noMultiOnly r.ch = true)
    (h : ∀ k ∈ writingLocals, r.count k = 0) :
    ∃ t, toHost s (runLocal r s) = .next t ∧
      t.stdout = s.stdout ++
        (positions (r.maskOf .writeStdout)).map (fun p => (s.reg p).extractLsb' 0 8) ∧
      RegFrame s t 1 [] ∧ t = { s with x := t.x, stdout := t.stdout } := by
  have hbytes : r.count .readStdin = 0 := h .readStdin (by decide)
  have hdraws : r.count .random = 0 := h .random (by decide)
  have hframe : RegFrame s (commit s (localEffects s r 0 0 allPos)) 1 [] := by
    obtain ⟨-, -, hn, -, -⟩ := localEffects_counts s r allPos 0 0
    exact hn ▸ regFrame_commit (localEffects_regw_eq_nil s h ▸ writesWithin_nil _) (by simp)
  obtain ⟨-, -, hout, hin, hdraw, ht⟩ := localResult_commit (s := s) hmode
  rw [hin, hdraw, hbytes, hdraws] at ht
  exact ⟨_, by rw [runLocal_of_bytes (hbytes ▸ Nat.zero_le _), toHost_next], hout, hframe, ht⟩

/-- Settles O21: the marked positions are the row's WriteStdout positions, and none holds a character
that writes. -/
theorem writeStdoutResult : Obligations.WriteStdoutResult := by
  unfold Obligations.WriteStdoutResult
  refine ⟨⟨rfl, by decide, rfl, by decide, rfl⟩, fun p s => ?_⟩
  have hnone : ∀ k ∈ writingLocals, k ≠ .noop ∧ .writeStdout ≠ k := by decide
  have hrun := runLocal_of_no_writing (s := s) (r := uniformRow .writeStdout ⟨.multi, p⟩) (.inl rfl)
    fun k hk => count_uniformRow_ne (hnone k hk).1 (hnone k hk).2 _
  rwa [maskOf_uniformRow (by decide)] at hrun

end Sys2Proof.Machine
end

section
/-! PROOFS. 42_read_linked.md R180 to R184: a source row and a sink row of its own kind, as one run for
Copy, Cut and PointerRead, and the fault of a source whose addresses are not readable. -/

namespace Sys2Proof.Machine

/-! ## Pairs of one kind (R180, R181, R184) -/

/-- A readable source paired with a sink row of its own kind and count (R183): the sink row takes the
inputs cut to its width, a Cut source is zeroed where the sink row does not reach, and nothing else
changes but `pc`. -/
theorem pair_result {x : Source} {src snk : Marked} {s : State} (hread : readable x src s = true)
    (hcount : src.count = snk.count) :
    ∃ t, toHost s (.next (settle s (pairEffects x src snk s))) = .next t ∧
      elements t snk = (inputsOf x src s).map (fun e => e % 2 ^ snk.mode.width) ∧
      (∀ m ∈ cutRows x src, ZeroedBut t m snk) ∧
      RegFrame s t 2 (cutRows x src ++ [snk]) ∧ t = { s with x := t.x } := by
  have hlen : (inputsOf x src s).length = snk.count := (length_inputsOf x src s).trans hcount
  refine ⟨_, by rw [pairEffects_ok hread, settle_ok, toHost_next], ?_, ?_, ?_, ?_⟩
  · exact elements_commit_writesTo rfl hlen
  · exact zeroedBut_commit_cutWrites rfl (writesWithin_writesTo _ _)
  · refine regFrame_commit_cutWrites rfl (writesWithin_writesTo _ _) fun m hm ht => ?_
    obtain rfl := List.mem_singleton.mp hm
    exact exists_writesTo_of_touches hlen ht
  · simp only [commit, allocAll, writeAll, List.append_nil, Nat.add_zero]

/-- Settles O23: a Copy source is always readable, its inputs are its elements, and it writes no source
position. -/
theorem copyResult : Obligations.CopyResult := by
  unfold Obligations.CopyResult
  refine ⟨⟨rfl, by decide, rfl, by decide, rfl⟩, fun src snk s hcount => ?_⟩
  obtain ⟨t, hrun, helem, -, hframe, ht⟩ := pair_result (x := .copy) (s := s) rfl hcount
  exact ⟨t, hrun, helem, hframe, ht⟩

/-- Settles O24: as Copy, and the source is the one row that is zeroed. -/
theorem cutResult : Obligations.CutResult := by
  unfold Obligations.CutResult
  refine ⟨⟨rfl, by decide, rfl, by decide, rfl⟩, fun src snk s hcount => ?_⟩
  obtain ⟨t, hrun, helem, hzero, hframe, ht⟩ := pair_result (x := .cut) (s := s) rfl hcount
  exact ⟨t, hrun, helem, hzero src (List.mem_singleton_self src), hframe, ht⟩

/-! ## Addresses that are not readable (R182) -/

/-- One address at or beyond `MemLen` makes a PointerRead source unreadable. -/
theorem readable_eq_false {src : Marked} {s : State} {a : Nat} (ha : a ∈ elements s src)
    (hlen : s.mem.len ≤ a) : readable .pointerRead src s = false := by
  have hall : (elements s src).all (fun b => decide (b < s.mem.len)) = false :=
    List.all_eq_false.mpr ⟨a, ha, by simpa using hlen⟩
  rw [readable, hall]
  rfl

section

variable {x : Source} {src : Marked} {s : State} {e : Raise}

theorem pairEffects_of_source_error (h : sourceValues x src s = .error e) (snk : Marked) :
    pairEffects x src snk s = .error e := by
  simp only [pairEffects, h]

theorem allocEffects_of_source_error (h : sourceValues x src s = .error e) (q : PosMask) :
    allocEffects x src q s = .error e := by
  simp only [allocEffects, h]

theorem pointerWriteEffects_of_source_error (h : sourceValues x src s = .error e) (q : PosMask) :
    pointerWriteEffects x src q s = .error e := by
  simp only [pointerWriteEffects, h]

end

/-- Settles O26: each of the three sinks reads its source first, and passes on the fault of the
source. -/
theorem pointerReadOutOfBoundsFaults : Obligations.PointerReadOutOfBoundsFaults := by
  unfold Obligations.PointerReadOutOfBoundsFaults
  intro p q s a ha hlen
  have hsrc : sourceValues .pointerRead ⟨.multi, p⟩ s = .error ⟨0, .readOutOfBounds⟩ :=
    sourceValues_error (readable_eq_false ha hlen)
  have hfault : toHost s (.next (settle s (.error ⟨0, .readOutOfBounds⟩))) =
      .next (faultedAt s 3 s.pc.toNat 14) :=
    congrArg Host.Outcome.next (takeFault_head s .readOutOfBounds)
  refine ⟨?_, ?_, ?_⟩
  · rw [exec, execPointerRead, pairEffects_of_source_error hsrc, hfault]
  · rw [exec, execAllocate, allocEffects_of_source_error hsrc, hfault]
  · rw [exec, execPointerWrite, pointerWriteEffects_of_source_error hsrc, hfault]

end Sys2Proof.Machine
end

section
/-! PROOFS. 43_operate.md R210 to R217: the operate characters whose operation never faults. Sub is the one
whose accumulator may leave the natural numbers. -/

namespace Sys2Proof.Machine

/-! ## Folds of the row values (R210) -/

/-- A chain whose operation maps natural numbers to natural numbers folds them. -/
theorem chainFold_natCast {op : Int → Nat → Except FaultReason Int} {f : Nat → Nat → Nat}
    (h : ∀ a v : Nat, op a v = .ok (f a v : Nat)) : ∀ (j a : Nat) (vs : List Nat),
      chainFold op j a vs = .ok ((vs.foldl f a : Nat) : Int)
  | _, _, [] => rfl
  | j, a, v :: vs => by
    simp only [chainFold, h]
    exact chainFold_natCast h (j + 1) (f a v) vs

/-- A chain of at least two rows whose operation maps natural numbers to natural numbers leaves the fold
of the row values, modulo the last row's width; nothing else changes but `pc`. -/
theorem chain_result_natCast {op : Int → Nat → Except FaultReason Int} {f : Nat → Nat → Nat}
    (h : ∀ a v : Nat, op a v = .ok (f a v : Nat)) {head : Marked} {rest : List Marked} (s : State)
    (hne : rest ≠ []) :
    ∃ t, toHost s (.next (settle s (chainEffects op head rest s))) = .next t ∧
      value t (rest.getLastD head) =
        (rest.foldl (fun acc m => f acc (value s m)) (value s head)) %
          2 ^ markedBits (rest.getLastD head) ∧
      RegFrame s t (1 + rest.length) [rest.getLastD head] ∧ t = { s with x := t.x } := by
  obtain ⟨t, hrun, hvalue, hframe⟩ := chain_result hne (chainFold_natCast h 1 _ _)
  refine ⟨t, hrun, ?_, hframe⟩
  rw [hvalue, trunc_natCast, List.foldl_map]

/-! ## Arithmetic (R211 to R213) -/

/-- Settles O31: the fold of the sums is the head row's value and the sum of the others. -/
theorem addResult : Obligations.AddResult := by
  unfold Obligations.AddResult
  refine ⟨⟨rfl, by decide, rfl, by decide, rfl⟩, fun head rest s hne => ?_⟩
  have hsum : value s head + (rest.map (value s)).sum =
      rest.foldl (fun acc m => acc + value s m) (value s head) := by
    rw [← List.sum_cons, List.sum_eq_foldl, List.foldl_cons, Nat.zero_add, List.foldl_map]
  rw [hsum]
  exact chain_result_natCast (f := (· + ·)) (fun _ _ => rfl) s hne

/-- Settles O33: the fold of the products is the head row's value times the product of the others. -/
theorem mulResult : Obligations.MulResult := by
  unfold Obligations.MulResult
  refine ⟨⟨rfl, by decide, rfl, by decide, rfl⟩, fun head rest s hne => ?_⟩
  have hprod : value s head * (rest.map (value s)).prod =
      rest.foldl (fun acc m => acc * value s m) (value s head) := by
    rw [← List.prod_cons, List.prod_eq_foldl, List.foldl_cons, Nat.one_mul, List.foldl_map]
  rw [hprod]
  exact chain_result_natCast (f := (· * ·)) (fun _ _ => rfl) s hne

/-- Subtracting values one by one is subtracting their sum, in the integers (R212). -/
theorem foldl_sub_natCast : ∀ (vs : List Nat) (a : Int),
    vs.foldl (fun (acc : Int) (v : Nat) => acc - v) a = a - (vs.sum : Nat)
  | [], a => (Int.sub_zero a).symm
  | v :: vs, a => by
    rw [List.foldl_cons, foldl_sub_natCast vs, List.sum_cons, Int.natCast_add, Int.sub_sub]

/-- Truncation as a remainder of the integers, for results that may be negative (R210). -/
theorem natCast_trunc (n : Nat) (v : Int) : (trunc n v : Int) = v % 2 ^ n :=
  Int.toNat_of_nonneg (Int.emod_nonneg v (by positivity))

/-- Settles O32: the operation never faults, so the chain folds the differences in the integers. -/
theorem subResult : Obligations.SubResult := by
  unfold Obligations.SubResult
  refine ⟨⟨rfl, by decide, rfl, by decide, rfl⟩, fun head rest s hne => ?_⟩
  have hfold : chainFold opSub 1 (value s head) (rest.map (value s)) =
      .ok (value s head - ((rest.map (value s)).sum : Nat)) := by
    rw [← foldl_sub_natCast]
    exact chainFold_ok fun _ _ _ => rfl
  obtain ⟨t, hrun, hvalue, hframe⟩ := chain_result hne hfold
  exact ⟨t, hrun, by rw [hvalue, natCast_trunc], hframe⟩

/-! ## Bitwise operations (R215 to R217) -/

/-- Settles O35: the accumulator is never negative, so the chain folds the bitwise and of natural numbers. -/
theorem andResult : Obligations.AndResult := by
  unfold Obligations.AndResult
  exact ⟨⟨rfl, by decide, rfl, by decide, rfl⟩, fun _ _ s hne =>
    chain_result_natCast (f := (· &&& ·)) (fun _ _ => rfl) s hne⟩

/-- Settles O36: as for And, with the bitwise or. -/
theorem orResult : Obligations.OrResult := by
  unfold Obligations.OrResult
  exact ⟨⟨rfl, by decide, rfl, by decide, rfl⟩, fun _ _ s hne =>
    chain_result_natCast (f := (· ||| ·)) (fun _ _ => rfl) s hne⟩

/-- Settles O37: as for And, with the bitwise exclusive or. -/
theorem xorResult : Obligations.XorResult := by
  unfold Obligations.XorResult
  exact ⟨⟨rfl, by decide, rfl, by decide, rfl⟩, fun _ _ s hne =>
    chain_result_natCast (f := (· ^^^ ·)) (fun _ _ => rfl) s hne⟩

end Sys2Proof.Machine
end

section
/-! PROOFS. 43_operate.md R214, R218: a chain whose operation raises a fault at one of its rows, and Div's
zero divisor. -/

namespace Sys2Proof.Machine

/-- A chain whose first values combine to `acc'` goes on from there with the others (R210). -/
theorem chainFold_append {op : Int → Nat → Except FaultReason Int} {acc' : Int} (ws : List Nat) :
    ∀ {vs : List Nat} {j : Nat} {acc : Int}, chainFold op j acc vs = .ok acc' →
      chainFold op j acc (vs ++ ws) = chainFold op (j + vs.length) acc' ws
  | [], _, _, h => by
    obtain rfl := Except.ok.inj h
    rfl
  | v :: vs, j, acc, h => by
    rw [chainFold] at h
    rw [List.cons_append, chainFold, List.length_cons, Nat.add_comm vs.length, ← Nat.add_assoc]
    cases hop : op acc v with
    | error e => rw [hop] at h; cases h
    | ok a =>
      rw [hop] at h
      exact chainFold_append ws h

/-- A chain of at least two rows passes on the fault of combining its values. -/
theorem chainEffects_of_chainFold_error {op : Int → Nat → Except FaultReason Int} {head : Marked}
    {rest : List Marked} {s : State} {e : Raise} (hne : rest ≠ [])
    (h : chainFold op 1 (value s head) (rest.map (value s)) = .error e) :
    chainEffects op head rest s = .error e := by
  cases rest with
  | nil => exact absurd rfl hne
  | cons m ms => simp only [chainEffects, h]

/-- The first zero divisor of a chain of Div is raised at its own row, whatever follows it (R214). -/
theorem chainFold_opDiv_zero {vs : List Nat} (h : ∀ v ∈ vs, v ≠ 0) (j a : Nat) (ws : List Nat) :
    chainFold opDiv j a (vs ++ 0 :: ws) = .error ⟨j + vs.length, .divByZero⟩ :=
  chainFold_append (0 :: ws) (chainFold_opDiv h)

/-- Settles O38: the rows before the zero divisor combine without a fault, and it is the next. -/
theorem divByZeroFaults : Obligations.DivByZeroFaults := by
  unfold Obligations.DivByZeroFaults
  intro head before after m s hbefore hm
  have hvs : ∀ v ∈ before.map (value s), v ≠ 0 := List.forall_mem_map.mpr hbefore
  have hfold : chainFold opDiv 1 (value s head) ((before ++ m :: after).map (value s)) =
      .error ⟨1 + before.length, .divByZero⟩ := by
    rw [List.map_append, List.map_cons, hm, chainFold_opDiv_zero hvs, List.length_map]
  have hne : before ++ m :: after ≠ [] := List.append_ne_nil_of_right_ne_nil _ (List.cons_ne_nil _ _)
  rw [exec, execDiv, chainEffects_of_chainFold_error hne hfold, settle_error, toHost_next,
    takeFault_eq_faultedAt, Nat.add_assoc]
  rfl

end Sys2Proof.Machine
end

section
/-! PROOFS. 44_reverse_linked.md R241, R242: the faults of the reverse-linked characters, a PointerWrite
run with an address at or beyond `MemLen`, and a head row that holds Allocate or PointerWrite. -/

namespace Sys2Proof.Machine

/-! ## A PointerWrite address at or beyond `MemLen` (R241) -/

/-- Once its source is read, one invalid address among the sink registers is the fault of the whole
run, whatever stores come before it (R241). -/
theorem pointerWriteEffects_of_beyond {x : Source} {src : Marked} {q : PosMask} {s : State} {a : Nat}
    (hcount : src.count = popcount q) (hread : readable x src s = true)
    (ha : a ∈ elements s ⟨.multi, q⟩) (hlen : s.mem.len ≤ a) :
    pointerWriteEffects x src q s = .error ⟨1, .writeOutOfBounds⟩ := by
  have hpairs : (positions q).length = (inputsOf x src s).length := by
    rw [length_positions, length_inputsOf, hcount]
  obtain ⟨p, hp, rfl⟩ := List.mem_map.mp ha
  simp only [pointerWriteEffects, sourceValues_ok hread, storeWrites_error hpairs ⟨p, hp, hlen⟩]

/-- Settles O46: the loop over the stores faults at the sink row, and nothing is committed. -/
theorem pointerWriteOutOfBoundsFaults : Obligations.PointerWriteOutOfBoundsFaults := by
  unfold Obligations.PointerWriteOutOfBoundsFaults
  intro x src q s a hcount hread ha hlen
  rw [exec, execPointerWrite, pointerWriteEffects_of_beyond hcount hread ha hlen, settle_error,
    toHost_next, takeFault_eq_faultedAt]
  rfl

/-! ## A reverse-linked character in a head row (R242) -/

/-- A Running step takes the fault that classifying its head row raises, at the head row (R118,
R123). -/
theorem step_of_classify_error {s : State} {r0 : Row} {e : FaultReason} (hr : s.runstate = .running)
    (hrow : rowAt s 0 = some (.row r0)) (h : classify r0 = .error e) :
    step s = .next
      (faultedAt s (kindCode (kindOfReason e)).toNat s.pc.toNat (reasonCode e).toNat) := by
  rw [step_of_resolve_error hr hrow (resolve_classify_error h _), takeFault_head]

/-- A row whose only kind is a reverse-linked character cannot head a run. -/
theorem classify_of_reverseLinked {r : Row} (h : r.kinds = [.allocate] ∨ r.kinds = [.pointerWrite]) :
    classify r = .error .headSink := by
  rcases h with hk | hk <;> exact classify_of_singleton hk

/-- A row that holds a reverse-linked character is not Local. -/
theorem all_isLocal_of_reverseLinked {r : Row}
    (h : Character.allocate ∈ r.kinds ∨ Character.pointerWrite ∈ r.kinds) :
    r.kinds.all Character.isLocal = false := by
  rcases h with hk | hk <;> exact List.all_eq_false.mpr ⟨_, hk, Bool.false_ne_true⟩

/-- Settles O47: the classification of the head row raises both faults, HeadMixed because neither
character is local. -/
theorem headSinkFaults : Obligations.HeadSinkFaults := by
  unfold Obligations.HeadSinkFaults
  constructor
  · intro s r0 hr hrow hkinds
    exact step_of_classify_error hr hrow (classify_of_reverseLinked hkinds)
  · intro s r0 hr hrow hholds hlen
    exact headMixedFaults s r0 hr hrow hlen (all_isLocal_of_reverseLinked hholds)

end Sys2Proof.Machine
end

section
/-! PROOFS. 60_exceptions.md R265 with 40_run_resolver.md R123, R129: of the ways a step goes on, only
taking a fault enters Faulted. -/

namespace Sys2Proof.Machine

/-- An engine that was not Faulted and now is has taken a fault: each other way of `GoesTo` keeps
RUNSTATE or halts. -/
theorem exists_takeFault_of_goesTo {s t : State} (hs : s.runstate ≠ .faulted) (h : GoesTo s t)
    (ht : t.runstate = .faulted) : ∃ r, t = s.takeFault r := by
  obtain rfl | hfault | rfl | ⟨e, rfl, -⟩ := h
  · exact absurd ht hs
  · exact hfault
  · cases ht
  · exact absurd ((commit_runstate s e).symm.trans ht) hs

/-- Settles O54: the step took a fault, which writes RUNSTATE and the fault record and nothing else. -/
theorem faultsArePrecise : Obligations.FaultsArePrecise := by
  unfold Obligations.FaultsArePrecise
  intro s t hr hstep ht
  have hs : s.runstate ≠ .faulted := by simp [hr]
  obtain ⟨r, rfl⟩ := exists_takeFault_of_goesTo hs (step_goesTo hstep) ht
  rfl

end Sys2Proof.Machine
end
